-- ==== Sys2Proof/Word.lean ====
section
/-! DEFINITION. The words of the hardware and the two-valued names of its lines (00_scope R11, R13). -/

namespace Sys2Proof

/-- A byte: 8 bits, unsigned (R11). -/
abbrev Byte := BitVec 8

/-- A value of the peer's address counter: 7 bits (R8, R39). -/
abbrev Address := BitVec 7

/-- A host command word, format HC16 (R100). -/
abbrev CommandWord := BitVec 16

/-- A bus word, format BUS10 (R104): RS, RW, DB7..DB0. -/
abbrev BusWord := BitVec 10

/-- Register select RS (R13): the peer's instruction register or its data register. -/
inductive BusRegister
  | instruction
  | data
  deriving DecidableEq, Repr

/-- Read/write RW (R13). -/
inductive Transfer
  | write
  | read
  deriving DecidableEq, Repr

/-- A level of the enable line E (R13). -/
inductive Level
  | low
  | high
  deriving DecidableEq, Repr

/-- A direction of a group of lines, seen from LCDC (R13). -/
inductive Direction
  | input
  | output
  deriving DecidableEq, Repr

end Sys2Proof
end

