-- ==== Sys2Proof/Machine/PeerState.lean ====
section
/-! DEFINITION. The state of the reference peer (20_memory R81) and the plain data its two memories are made of. -/

namespace Sys2Proof.Machine

/-- A memory: (address, byte) pairs, addresses strictly rising, no entry equal to what an unlisted address reads as
(`Memory.wf`). -/
abbrev Memory := List Host.Cell

/-- Which RAM the last set-address instruction selected (R39, R65). -/
inductive RamSelect
  | ddram
  | cgram
  deriving DecidableEq, Repr, Inhabited

/-- How the peer takes a data or instruction cycle that follows a poll timeout (70 R281, U5): the reference peer
performs it (R92); a peer of which only R281 is known performs it or ignores it, a free value (log 8). -/
inductive LateCycles
  | performed
  | unsettled
  deriving DecidableEq, Repr, Inhabited

/-- How the peer steps its address in one-line mode, N = 0: by the table of R83, which does not speak of N; or as only
R285 is known, by which address range and increment change, a free value (log 22). -/
inductive OneLineSteps
  | byTable
  | unsettled
  deriving DecidableEq, Repr, Inhabited

/-- The reference peer's state (R81), under R81's names. `kBusy` (R92), `late` (R281) and `oneLine` (R285) are
parameters: no bus cycle changes them. -/
structure RefPeer where
  /-- BF: the busy bit of the last status read. -/
  bf : Bool
  /-- AC: the address counter. -/
  ac : Address
  ramsel : RamSelect
  /-- ID: true is increment. -/
  id : Bool
  /-- S: shift the display on each write. -/
  s : Bool
  /-- D, C, B: display, cursor, blink on. -/
  d : Bool
  c : Bool
  b : Bool
  /-- DL, N, F: data length 8, two lines, large font. -/
  dl : Bool
  n : Bool
  f : Bool
  /-- SH: the display shift offset; right counts +1 (log 18). -/
  sh : Int
  ddram : Memory
  cgram : Memory
  /-- BUSYCNT: how many coming status reads will report busy. -/
  busycnt : Nat
  /-- K_BUSY (R92). -/
  kBusy : Nat
  late : LateCycles
  oneLine : OneLineSteps
  deriving DecidableEq, Repr, Inhabited

end Sys2Proof.Machine
end

