-- ==== Sys2Proof/Config.lean ====
section
/-! DEFINITION. What an instance of LCDC fixes (00_scope R9), the delays (R293), and the free values: what the spec
leaves open, as constants without a body. -/

namespace Sys2Proof

/-- The constants of one instance (R9). MAX_ATTEMPTS is `budget` + 1, so that exactly its legal range 1 to 255 can be
written (D11, U14). -/
structure Config where
  budget : Fin 255
  /-- BLANK, the character BKSP writes (D17). -/
  blank : Byte
  deriving DecidableEq, Repr

/-- MAX_ATTEMPTS (R9). -/
def Config.maxAttempts (c : Config) : Nat := c.budget.val + 1

/-- The defaults of R9: MAX_ATTEMPTS = 254, BLANK = 0x20. -/
def Config.default : Config := { budget := 253, blank := 0x20#8 }

/-- FREE VALUE. A byte on the data lines that the spec leaves open: the answer of a peer of which nothing is known
(R71), or the level of lines nobody is known to drive (R25, U3). The n-th one taken (log 4, log 5). -/
opaque Config.freeByte : Nat → Byte

/-- FREE VALUE. The state of the peer after a bus cycle on control lines that LCDC does not drive (R74, R272; log 6). -/
opaque Config.freePeer : Nat → Machine.RefPeer

/-- FREE VALUE. The address a peer in one-line mode comes to from a DDRAM address, `true` for an increment: R285 says
that range and increment change, not how (log 22). -/
opaque Config.oneLineStep : Bool → Address → Address

/-- FREE VALUE. Whether a peer of which only R281 is known performs a cycle that follows a timeout (log 8). -/
opaque Config.latePerformed : Nat → Bool

/-- FREE VALUE. T_UNIT in nanoseconds (R9, D12); below 1 ms = T_INIT_3, as R295 demands of every steady-state delay. -/
opaque Config.tUnit : Fin 1000000
/-- FREE VALUE. T_SETTLE in nanoseconds (R9, R295). -/
opaque Config.tSettle : Fin 1000000
/-- FREE VALUE. T_EN_HOLD in nanoseconds (R9, R295). -/
opaque Config.tEnHold : Fin 1000000
/-- FREE VALUE. T_RD_SETUP in nanoseconds (R9, R295). -/
opaque Config.tRdSetup : Fin 1000000
/-- FREE VALUE. T_RD_HOLD in nanoseconds (R9, R295). -/
opaque Config.tRdHold : Fin 1000000

/-- The delays of R293, by the name of their parameter. -/
inductive Delay
  | init1
  | init2
  | init3
  | pollGap
  | settle
  | enHold
  | rdSetup
  | rdHold
  deriving DecidableEq, Repr

/-- The length of a delay in nanoseconds (R9, R293); T_POLL_GAP is one T_UNIT. -/
def Delay.nanoseconds : Delay → Nat
  | .init1 => 16000000
  | .init2 => 5000000
  | .init3 => 1000000
  | .pollGap => Config.tUnit.val
  | .settle => Config.tSettle.val
  | .enHold => Config.tEnHold.val
  | .rdSetup => Config.tRdSetup.val
  | .rdHold => Config.tRdHold.val

end Sys2Proof
end

