-- ==== Sys2Proof/Syntax.lean ====
section
/-! DEFINITION. The instructions: one constructor per row of spec/opcode_table.json, eighteen host command words
(format HC16, 30_encoding R101) and eleven bus words (format BUS10, R104). -/

namespace Sys2Proof

/-- The eight LCD instructions (R105: "opcode: one of 8 fixed codes"). -/
inductive LcdOpcode
  | clearDisplay
  | returnHome
  | entryModeSet
  | displayControl
  | cursorDisplayShift
  | functionSet
  | setCgramAddress
  | setDdramAddress
  deriving DecidableEq, Repr

/-- One constructor per row of the opcode table. A host command word carries its operand byte `arg`, also where the
operation ignores it (R102). An instruction-write bus word carries its settings as the byte R105 gives them, which
`Instr.wellFormed` checks against the opcode; a status read and a data read carry the byte the peer drives (R104). -/
inductive Instr
  -- host command words (R101)
  | clear (arg : Byte)
  | home (arg : Byte)
  | entry (arg : Byte)
  | dispctl (arg : Byte)
  | shift (arg : Byte)
  | funcset (arg : Byte)
  | setcg (arg : Byte)
  | setdd (arg : Byte)
  | wrdata (arg : Byte)
  | rddata (arg : Byte)
  | rdac (arg : Byte)
  | waitbusy (arg : Byte)
  | init (arg : Byte)
  | putch (arg : Byte)
  | bksp (arg : Byte)
  | enter (arg : Byte)
  | curleft (arg : Byte)
  | curright (arg : Byte)
  -- bus words (R104)
  | bwClearDisplay
  | bwReturnHome
  | bwEntryModeSet (settings : Byte)
  | bwDisplayControl (settings : Byte)
  | bwCursorDisplayShift (settings : Byte)
  | bwFunctionSet (settings : Byte)
  | bwSetCgramAddress (settings : Byte)
  | bwSetDdramAddress (settings : Byte)
  | bwStatusRead (busy : Bool) (address : Address)
  | bwDataWrite (byte : Byte)
  | bwDataRead (byte : Byte)
  deriving DecidableEq, Repr

/-- A word as the hardware holds it: 16 bits in CMD (R100) or 10 bits on the bus (R104). The two formats are apart:
the same number can be a word of each (log 9). -/
inductive CodeWord
  | hc16 (w : CommandWord)
  | bus10 (w : BusWord)
  deriving DecidableEq, Repr

end Sys2Proof
end

