-- ==== Sys2Proof/Machine/State.lean ====
section
/-! DEFINITION. The state of the machine: LCDC's own state (10_state R20 to R36), the peer on the bus (R39, R81), what
the outside world does next, and the model's own record of the trace and of the free values taken. -/

namespace Sys2Proof.Machine

/-- A pin-level event of the trace (20_memory R70). -/
inductive Event
  | cdir (d : Direction)
  | ddir (d : Direction)
  | ctl (rs : BusRegister) (rw : Transfer)
  | data (b : Byte)
  | en (l : Level)
  | wait (d : Delay)
  | sample (b : Byte)
  | timeout
  deriving DecidableEq, Repr

/-- The remap tables of 45_navigator, as the name a composite's lookup carries (R213 to R216). -/
inductive RemapTable
  | nextAddress
  | previousAddress
  | enterTarget
  | postWriteFix
  deriving DecidableEq, Repr

/-- What the sequencer can have to perform next (R36): a pin micro-operation (40 R130 to R135), a delay, or one of the
steps at which SEQ moves otherwise than to the next one: the start and the test of a poll (R152), the two-way branch of
a composite (R222 to R226), a write of a register, the end of the operation. -/
inductive MicroOp
  | setEnable (l : Level)
  | setControlDirection (d : Direction)
  | setDataDirection (d : Direction)
  | setControlLines (rs : BusRegister) (rw : Transfer)
  | setDataLines (b : Byte)
  | delay (d : Delay)
  | readDataLines
  | pollStart
  | pollTest
  | latchAddress
  | latchData
  | branch (t : RemapTable) (otherwise : Option Byte)
  | setInitd
  | finish (code : Byte)
  deriving DecidableEq, Repr

/-- SEQ (R36): Idle, or the micro-operation to perform next, those that follow it in textual order, and the byte `s`
the running pseudocode last sampled. -/
inductive Seq
  | idle
  | running (sampled : Byte) (next : MicroOp) (rest : List MicroOp)
  deriving DecidableEq, Repr

/-- The peer on the bus: the oracle, which answers the listed bytes in order and then any byte (R71), or the reference
peer (R80). -/
inductive Peer
  | oracle (answers : List Byte)
  | reference (p : RefPeer)
  deriving DecidableEq, Repr

/-- One thing the outside world does. `busWord` is the model's own: it has the sequencer perform one bus cycle alone,
which no host can ask for (40_bus_transport; log 9). `writeCutShort` is a write of CMD whose operation a power-on reset
abandons after that many micro-operations (R270; log 20). -/
inductive Input
  | write (register : Nat) (value : CommandWord)
  | writeCutShort (value : CommandWord) (microOps : Nat)
  | read (register : Nat)
  | reset
  | busWord (w : BusWord)
  deriving DecidableEq, Repr

/-- Whether a launch that R273 or R284 tells a model to refuse runs, as it does on the hardware, or is refused
(log 6, log 7). -/
inductive LaunchMode
  | hardware
  | checked
  deriving DecidableEq, Repr

/-- LCDC itself has no fault (R16, 93_implementation_defined). -/
inductive Fault
  /-- Raised by `step` for a host access to a register number of 5 or above, which does not exist (R61, U12). Safe: the
  machine stops where the spec gives no step. -/
  | noSuchHostRegister (register : Nat)
  deriving DecidableEq, Repr

inductive Refusal
  /-- Raised by an arm of `exec` for an instruction without a meaning; no arm raises it. Safe. -/
  | notModelled (mnemonic : String)
  /-- Raised by `step` for a bus word that is no row of the opcode table: DB 0x00 or 0x03 with RS = Instruction, RW =
  Write, which LCDC never sends (R113, R116, U16). Safe. -/
  | notABusWord (w : BusWord)
  /-- Raised by `step` in the checked launch mode only, for a launch before INIT that would touch the bus (R273). Safe. -/
  | launchBeforeInit
  /-- Raised by `step` in the checked launch mode only, for a function-set with the data-length flag clear (R284, R89,
  U9). Safe. -/
  | fourBitDataLength
  deriving DecidableEq, Repr

structure State where
  /-- DB_OUT (R21). -/
  dbOut : Byte
  /-- DB_DIR (R22). -/
  dbDir : Direction
  /-- CTL_DIR (R23). -/
  ctlDir : Direction
  /-- RS, RW, E (R24). -/
  rs : BusRegister
  rw : Transfer
  e : Level
  /-- CMD (R27). -/
  cmd : CommandWord
  /-- STATUS (R28). -/
  status : Byte
  /-- POLLRES (R29). -/
  pollres : Byte
  /-- RDATA (R30). -/
  rdata : Byte
  /-- FLAGS (R31): bit 0 TMO, bit 1 INITD. -/
  flags : Byte
  /-- ATTEMPT (R35). -/
  attempt : Byte
  /-- SEQ (R36). -/
  seq : Seq
  /-- The constants of this instance (R9); nothing writes them. -/
  cfg : Config
  /-- The LCD module (R15 b). -/
  peer : Peer
  /-- What the host and the power supply do next, oldest first (R15 c, R270). -/
  inputs : List Input
  /-- The value the last host register read returned (R32); the model's own. -/
  hostOut : BitVec 16
  /-- The events so far, oldest first (R70); the model's own. -/
  trace : List Event
  /-- How many free values have been taken; the model's own. -/
  freeCount : Nat
  launchMode : LaunchMode
  deriving DecidableEq, Repr

/-- A reference peer at power-up. The spec gives every element any value (R81, R272): DESIGN CHOICE, unsafe (log 1,
log 2). -/
def RefPeer.powerUp : RefPeer :=
  { bf := false, ac := 0x00#7, ramsel := .ddram, id := false, s := false, d := false, c := false, b := false,
    dl := false, n := false, f := false, sh := 0, ddram := [], cgram := [], busycnt := 0, kBusy := 0,
    late := .performed, oneLine := .unsettled }

/-- The machine right after reset: LCDC at the values of R43 (R270), the parameters at their defaults (R9, R92). -/
def State.reset : State :=
  { dbOut := 0x00#8, dbDir := .input, ctlDir := .input, rs := .instruction, rw := .write, e := .low,
    cmd := 0x0000#16, status := 0x00#8, pollres := 0x00#8, rdata := 0x00#8, flags := 0x00#8, attempt := 0#8,
    seq := .idle, cfg := Config.default, peer := .reference RefPeer.powerUp, inputs := [], hostOut := 0#16,
    trace := [], freeCount := 0, launchMode := .hardware }

end Sys2Proof.Machine
end

