-- ==== Sys2Proof/Machine/Flags.lean ====
section
/-! DEFINITION. The result codes (30_encoding R115, 60_exceptions R244), FLAGS (10_state R31) and the busy bit (R114). -/

namespace Sys2Proof.Machine

/-- STATUS Success (R115). -/
def codeSuccess : Byte := 0x00#8
/-- STATUS InvalidArgument, the encoder's InvalidSetting (R115, R241). -/
def codeInvalidArgument : Byte := 0x01#8
/-- POLLRES Ready, the busy-wait Success (R115). -/
def codeReady : Byte := 0x02#8
/-- POLLRES TimedOut, the busy-wait Timeout (R115, R242). -/
def codeTimedOut : Byte := 0x04#8

/-- FLAGS with bit 0, TMO, set (R31). -/
def withTmo (flags : Byte) : Byte := flags ||| 0x01#8

/-- FLAGS with bit 1, INITD, set (R31). -/
def withInitd (flags : Byte) : Byte := flags ||| 0x02#8

/-- FLAGS as the host reads it: bits 7 to 2 read as zero (R31). -/
def visibleFlags (flags : Byte) : Byte := flags &&& 0x03#8

/-- FLAGS bit 0: some poll has timed out since reset (R31). -/
def State.tmo (s : State) : Bool := s.flags[0]

/-- FLAGS bit 1: an INIT has completed since reset (R31). -/
def State.initd (s : State) : Bool := s.flags[1]

/-- The busy bit of a status byte: bit 7, 1 means busy (R114). -/
def busyBit (b : Byte) : Bool := b[7]

end Sys2Proof.Machine
end

