-- ==== Sys2Proof/WellFormed.lean ====
section
/-! DEFINITION. Which instructions the encodings can write. -/

namespace Sys2Proof

/-- The invariant of R105, with the opcodes of R106: the settings of an instruction write lie below the opcode's own
bit. A host command word carries any arg: one at or above the opcode is a word the host can write, which LCDC answers
with InvalidArgument (R166, R241). -/
def Instr.wellFormed : Instr → Bool
  | .clear _ | .home _ | .entry _ | .dispctl _ | .shift _ | .funcset _ | .setcg _ | .setdd _ => true
  | .wrdata _ | .rddata _ | .rdac _ | .waitbusy _ | .init _ => true
  | .putch _ | .bksp _ | .enter _ | .curleft _ | .curright _ => true
  | .bwClearDisplay | .bwReturnHome => true
  | .bwEntryModeSet settings => decide (settings < 0x04#8)
  | .bwDisplayControl settings => decide (settings < 0x08#8)
  | .bwCursorDisplayShift settings => decide (settings < 0x10#8)
  | .bwFunctionSet settings => decide (settings < 0x20#8)
  | .bwSetCgramAddress settings => decide (settings < 0x40#8)
  | .bwSetDdramAddress settings => decide (settings < 0x80#8)
  | .bwStatusRead _ _ | .bwDataWrite _ | .bwDataRead _ => true

end Sys2Proof
end

