-- ==== Sys2Proof/Decode.lean ====
section
/-! DEFINITION. Decoding and encoding, from the tables of 30_encoding: command words (R100 to R103), bus words (R104),
the LCD instruction byte (R105, R106, R116). -/

namespace Sys2Proof

/-- The opcode byte of an LCD instruction (R106). -/
def LcdOpcode.code : LcdOpcode → Byte
  | .clearDisplay => 0x01#8
  | .returnHome => 0x02#8
  | .entryModeSet => 0x04#8
  | .displayControl => 0x08#8
  | .cursorDisplayShift => 0x10#8
  | .functionSet => 0x20#8
  | .setCgramAddress => 0x40#8
  | .setDdramAddress => 0x80#8

/-- R116: the instruction is named by the highest set bit of the byte, the settings are the bits below it; the byte
0x00 names none. -/
def decodeLcdByte (b : Byte) : Option (LcdOpcode × Byte) :=
  if b[7] then some (.setDdramAddress, b &&& 0x7F#8)
  else if b[6] then some (.setCgramAddress, b &&& 0x3F#8)
  else if b[5] then some (.functionSet, b &&& 0x1F#8)
  else if b[4] then some (.cursorDisplayShift, b &&& 0x0F#8)
  else if b[3] then some (.displayControl, b &&& 0x07#8)
  else if b[2] then some (.entryModeSet, b &&& 0x03#8)
  else if b[1] then some (.returnHome, b &&& 0x01#8)
  else if b[0] then some (.clearDisplay, 0x00#8)
  else none

/-- The levels of R24: RS Instruction = 0, Data = 1. -/
def BusRegister.bit : BusRegister → BitVec 1
  | .instruction => 0#1
  | .data => 1#1

/-- The levels of R24: RW Write = 0, Read = 1. -/
def Transfer.bit : Transfer → BitVec 1
  | .write => 0#1
  | .read => 1#1

/-- A bus word from its parts (R104): bit 9 RS, bit 8 RW, bits 7 to 0 DB. -/
def busWord (reg : BusRegister) (rw : Transfer) (db : Byte) : BusWord :=
  reg.bit ++ rw.bit ++ db

/-- A command word from its fields (R100): bits 15 to 8 op, bits 7 to 0 arg. -/
def commandWord (op arg : Byte) : CommandWord := op ++ arg

/-- Field `op` of a command word (R100). -/
def opField (w : CommandWord) : Byte := w.extractLsb' 8 8

/-- Field `arg` of a command word (R100). -/
def argField (w : CommandWord) : Byte := w.extractLsb' 0 8

/-- The status byte (R114): bit 7 the busy flag, bits 6 to 0 the address counter. -/
def statusByte (busy : Bool) (address : Address) : Byte := BitVec.ofBool busy ++ address

/-- Why a word names no instruction. -/
inductive DecodeError
  /-- A command word whose op is reserved (R103). LCDC answers it with InvalidArgument. -/
  | reservedOp (op : Byte)
  /-- An instruction-write bus word that is no row of the opcode table: DB = 0x00, which names no instruction (R116,
  U16), or DB = 0x03, which LCDC never sends (R113). -/
  | noBusWord (w : BusWord)
  deriving DecidableEq, Repr

/-- R101 and R103: the operation a command word names. -/
def decodeCommand (w : CommandWord) : Except DecodeError Instr :=
  match (opField w).toNat with
  | 0x00 => .ok (.clear (argField w))
  | 0x01 => .ok (.home (argField w))
  | 0x02 => .ok (.entry (argField w))
  | 0x03 => .ok (.dispctl (argField w))
  | 0x04 => .ok (.shift (argField w))
  | 0x05 => .ok (.funcset (argField w))
  | 0x06 => .ok (.setcg (argField w))
  | 0x07 => .ok (.setdd (argField w))
  | 0x08 => .ok (.wrdata (argField w))
  | 0x09 => .ok (.rddata (argField w))
  | 0x0A => .ok (.rdac (argField w))
  | 0x0B => .ok (.waitbusy (argField w))
  | 0x0C => .ok (.init (argField w))
  | 0x10 => .ok (.putch (argField w))
  | 0x11 => .ok (.bksp (argField w))
  | 0x12 => .ok (.enter (argField w))
  | 0x13 => .ok (.curleft (argField w))
  | 0x14 => .ok (.curright (argField w))
  | _ => .error (.reservedOp (opField w))

/-- The instruction-write rows of R104. -/
def decodeInstructionWrite (w : BusWord) : Except DecodeError Instr :=
  match decodeLcdByte (w.extractLsb' 0 8) with
  | some (.clearDisplay, _) => .ok .bwClearDisplay
  | some (.returnHome, settings) => if settings = 0x00#8 then .ok .bwReturnHome else .error (.noBusWord w)
  | some (.entryModeSet, settings) => .ok (.bwEntryModeSet settings)
  | some (.displayControl, settings) => .ok (.bwDisplayControl settings)
  | some (.cursorDisplayShift, settings) => .ok (.bwCursorDisplayShift settings)
  | some (.functionSet, settings) => .ok (.bwFunctionSet settings)
  | some (.setCgramAddress, settings) => .ok (.bwSetCgramAddress settings)
  | some (.setDdramAddress, settings) => .ok (.bwSetDdramAddress settings)
  | none => .error (.noBusWord w)

/-- R104: the cycle a bus word names, by its RS (bit 9) and RW (bit 8). -/
def decodeBus (w : BusWord) : Except DecodeError Instr :=
  match w[9], w[8] with
  | false, false => decodeInstructionWrite w
  | false, true => .ok (.bwStatusRead w[7] (w.extractLsb' 0 7))
  | true, false => .ok (.bwDataWrite (w.extractLsb' 0 8))
  | true, true => .ok (.bwDataRead (w.extractLsb' 0 8))

/-- Decoding, total on every word of either format. -/
def decode : CodeWord → Except DecodeError Instr
  | .hc16 w => decodeCommand w
  | .bus10 w => decodeBus w

/-- The bus word of an instruction write (R104, R105): `opcode | settings`. -/
def instructionWriteWord (op : LcdOpcode) (settings : Byte) : CodeWord :=
  .bus10 (busWord .instruction .write (op.code ||| settings))

/-- The word of an instruction: `op` and `arg` of R101 for a command, RS, RW and DB of R104 for a bus cycle. -/
def encode : Instr → CodeWord
  | .clear arg => .hc16 (commandWord 0x00#8 arg)
  | .home arg => .hc16 (commandWord 0x01#8 arg)
  | .entry arg => .hc16 (commandWord 0x02#8 arg)
  | .dispctl arg => .hc16 (commandWord 0x03#8 arg)
  | .shift arg => .hc16 (commandWord 0x04#8 arg)
  | .funcset arg => .hc16 (commandWord 0x05#8 arg)
  | .setcg arg => .hc16 (commandWord 0x06#8 arg)
  | .setdd arg => .hc16 (commandWord 0x07#8 arg)
  | .wrdata arg => .hc16 (commandWord 0x08#8 arg)
  | .rddata arg => .hc16 (commandWord 0x09#8 arg)
  | .rdac arg => .hc16 (commandWord 0x0A#8 arg)
  | .waitbusy arg => .hc16 (commandWord 0x0B#8 arg)
  | .init arg => .hc16 (commandWord 0x0C#8 arg)
  | .putch arg => .hc16 (commandWord 0x10#8 arg)
  | .bksp arg => .hc16 (commandWord 0x11#8 arg)
  | .enter arg => .hc16 (commandWord 0x12#8 arg)
  | .curleft arg => .hc16 (commandWord 0x13#8 arg)
  | .curright arg => .hc16 (commandWord 0x14#8 arg)
  | .bwClearDisplay => instructionWriteWord .clearDisplay 0x00#8
  | .bwReturnHome => instructionWriteWord .returnHome 0x00#8
  | .bwEntryModeSet settings => instructionWriteWord .entryModeSet settings
  | .bwDisplayControl settings => instructionWriteWord .displayControl settings
  | .bwCursorDisplayShift settings => instructionWriteWord .cursorDisplayShift settings
  | .bwFunctionSet settings => instructionWriteWord .functionSet settings
  | .bwSetCgramAddress settings => instructionWriteWord .setCgramAddress settings
  | .bwSetDdramAddress settings => instructionWriteWord .setDdramAddress settings
  | .bwStatusRead busy address => .bus10 (busWord .instruction .read (statusByte busy address))
  | .bwDataWrite byte => .bus10 (busWord .data .write byte)
  | .bwDataRead byte => .bus10 (busWord .data .read byte)

/-- A decoder's answer with its reason dropped. -/
def decodedInstr? : Except DecodeError Instr → Option Instr
  | .ok i => some i
  | .error _ => none

/-- The number `w` of `nbits` bits as a word: a table row of 10 bits is a bus word, a row of 16 bits a command word;
bits at and above `nbits` are 0. A 10-bit row is told from a 16-bit one by `nbits` alone (log 9). -/
def tableWord (nbits w : Nat) : CodeWord :=
  if nbits ≤ 10 then .bus10 (BitVec.ofNat 10 (w % 2 ^ nbits)) else .hc16 (BitVec.ofNat 16 (w % 2 ^ nbits))

/-- The instruction the decoder reads from a word of the opcode table. -/
def decodeTableWord (nbits w : Nat) : Option Instr := decodedInstr? (decode (tableWord nbits w))

end Sys2Proof
end

