-- ==== Sys2Proof/Machine/Operands.lean ====
section
/-! DEFINITION. The operand forms: a settings byte checked against its opcode (42_instructions R166), the address in a
status byte (30_encoding R114, R117). -/

namespace Sys2Proof.Machine

/-- R166, `Encode(opcode, settings)`: none is InvalidSetting, given iff `settings >= opcode` as unsigned bytes;
otherwise the byte is `opcode | settings`. -/
def encodeSettings (op : LcdOpcode) (settings : Byte) : Option Byte :=
  if op.code ≤ settings then none else some (op.code ||| settings)

/-- The address in a status byte: `AC = s & 0x7F` (R114). -/
def addressOf (sampled : Byte) : Address := sampled.extractLsb' 0 7

/-- The byte RDATA receives for an address: bit 7 zero (R117). -/
def addressByte (a : Address) : Byte := a.setWidth 8

end Sys2Proof.Machine
end

