-- ==== Sys2Proof/Machine/Memory.lean ====
section
/-! DEFINITION. The peer's memories as lists of (address, byte) in one canonical form. -/

namespace Sys2Proof.Machine

/-- What an unlisted cell reads as: 0x20, the byte clear-display, and so INIT, leaves in every DDRAM cell (R87, R204).
For a cell nothing has written since power-up the spec gives any value (R81): DESIGN CHOICE, unsafe (log 2). -/
def Memory.unlisted : Byte := 0x20#8

/-- One byte. -/
def Memory.read : Memory → Nat → Byte
  | [], _ => Memory.unlisted
  | (k, v) :: rest, a => if k = a then v else Memory.read rest a

/-- An entry in front of a canonical list whose addresses are all higher, unless it says what an unlisted cell says. -/
def Memory.cons (a : Nat) (b : Byte) (m : Memory) : Memory :=
  if b = Memory.unlisted then m else (a, b) :: m

/-- Write one byte, keeping the canonical form: writing what an unlisted cell reads as removes the entry. -/
def Memory.write : Memory → Nat → Byte → Memory
  | [], a, b => Memory.cons a b []
  | (k, v) :: rest, a, b =>
    if a < k then Memory.cons a b ((k, v) :: rest)
    else if a = k then Memory.cons a b rest
    else (k, v) :: Memory.write rest a b

/-- Every cell of a memory of `size` cells holds `b` (R87 fills DDRAM). -/
def Memory.fill (size : Nat) (b : Byte) : Memory :=
  if b = Memory.unlisted then [] else (List.range size).map fun a => (a, b)

/-- Addresses strictly rising from `least` and below `size`, and no entry equal to an unlisted cell. -/
def Memory.wfFrom (size : Nat) : Nat → Memory → Bool
  | _, [] => true
  | least, (k, v) :: rest =>
    decide (least ≤ k) && decide (k < size) && decide (v ≠ Memory.unlisted) && Memory.wfFrom size (k + 1) rest

/-- The canonical form of a memory of `size` cells. -/
def Memory.wf (size : Nat) (m : Memory) : Bool := Memory.wfFrom size 0 m

/-- The canonical memory with the given entries written in order, addresses taken modulo the size. -/
def Memory.ofCells (size : Nat) (cells : List Host.Cell) : Memory :=
  cells.foldl (fun m cell => Memory.write m (cell.1 % size) cell.2) []

/-- DDRAM has 128 cells (R63, R81). -/
def ddramSize : Nat := 128

/-- CGRAM has 64 cells (R64, R81). -/
def cgramSize : Nat := 64

end Sys2Proof.Machine
end

