-- ==== Sys2Proof/Machine/Peer.lean ====
section
/-! DEFINITION. The reference peer: what an HD44780-class module does at each bus word (20_memory R80 to R92). -/

namespace Sys2Proof.Machine

/-- The CGRAM address in an address counter: its low 6 bits (R64, R83). -/
def cgramIndex (a : Address) : BitVec 6 := a.extractLsb' 0 6

/-- R83, RAMSEL = DDRAM: the address after `a`. -/
def ddramNext (a : Address) : Address :=
  if a = 0x27#7 then 0x40#7 else if a = 0x67#7 then 0x00#7 else a + 1#7

/-- R83, RAMSEL = DDRAM: the address before `a`. -/
def ddramPrevious (a : Address) : Address :=
  if a = 0x40#7 then 0x27#7 else if a = 0x00#7 then 0x67#7 else a - 1#7

/-- R83, RAMSEL = CGRAM: the low 6 bits step modulo 64 and bit 6 is kept. -/
def cgramStep (up : Bool) (a : Address) : Address :=
  a.extractLsb' 6 1 ++ (if up then cgramIndex a + 1#6 else cgramIndex a - 1#6)

/-- R83: `step(a, dir)`, `up` for dir = +1. -/
def addressStep (ram : RamSelect) (up : Bool) (a : Address) : Address :=
  match ram with
  | .ddram => if up then ddramNext a else ddramPrevious a
  | .cgram => cgramStep up a

/-- The byte in the cell the address counter points at (R85). -/
def RefPeer.cell (p : RefPeer) : Byte :=
  match p.ramsel with
  | .ddram => Memory.read p.ddram p.ac.toNat
  | .cgram => Memory.read p.cgram (cgramIndex p.ac).toNat

/-- Store a byte in the cell the address counter points at (R84). -/
def RefPeer.store (b : Byte) (p : RefPeer) : RefPeer :=
  match p.ramsel with
  | .ddram => { p with ddram := Memory.write p.ddram p.ac.toNat b }
  | .cgram => { p with cgram := Memory.write p.cgram (cgramIndex p.ac).toNat b }

/-- Whether a step of the address counter is not by the table of R83: DDRAM selected, one-line mode (N = 0), and a peer
of which only R285 is known there (log 22). -/
def RefPeer.stepUnsettled (p : RefPeer) : Bool :=
  decide (p.ramsel = .ddram) && !p.n && decide (p.oneLine = .unsettled)

/-- The address one step from the address counter: R83, or what R285 leaves open. -/
def RefPeer.stepped (up : Bool) (p : RefPeer) : Address :=
  if p.stepUnsettled then Config.oneLineStep up p.ac else addressStep p.ramsel up p.ac

/-- The address counter moves one step (R83, R285). -/
def RefPeer.move (up : Bool) (p : RefPeer) : RefPeer := { p with ac := p.stepped up }

/-- The peer is busy for the next K_BUSY status reads (R92). -/
def RefPeer.startBusy (p : RefPeer) : RefPeer := { p with busycnt := p.kBusy }

/-- R82: the byte a status read returns. -/
def RefPeer.statusAnswer (p : RefPeer) : Byte := statusByte (decide (0 < p.busycnt)) p.ac

/-- R82: the peer after a status read. -/
def RefPeer.afterStatusRead (p : RefPeer) : RefPeer :=
  { p with bf := decide (0 < p.busycnt), busycnt := p.busycnt - 1 }

/-- R85: the peer after a data read. -/
def RefPeer.afterDataRead (p : RefPeer) : RefPeer := (p.move p.id).startBusy

/-- R84: with S = 1 a DDRAM write shifts the display opposite to the step of AC. -/
def RefPeer.shiftOnWrite (p : RefPeer) : RefPeer :=
  if p.s ∧ p.ramsel = .ddram then { p with sh := if p.id then p.sh - 1 else p.sh + 1 } else p

/-- R84: a data write. -/
def RefPeer.dataWrite (b : Byte) (p : RefPeer) : RefPeer :=
  ((p.store b).move p.id).shiftOnWrite.startBusy

/-- R87: clear-display. -/
def RefPeer.clearDisplay (p : RefPeer) : RefPeer :=
  { p with ddram := Memory.fill ddramSize 0x20#8, ac := 0x00#7, ramsel := .ddram, id := true, sh := 0 }

/-- R88: return-home. -/
def RefPeer.returnHome (p : RefPeer) : RefPeer :=
  { p with ac := 0x00#7, ramsel := .ddram, sh := 0 }

/-- R89: entry-mode, settings xy: ID <- x, S <- y. -/
def RefPeer.entryModeSet (settings : Byte) (p : RefPeer) : RefPeer :=
  { p with id := settings[1], s := settings[0] }

/-- R89: display-control, settings xyz: D <- x, C <- y, B <- z. -/
def RefPeer.displayControl (settings : Byte) (p : RefPeer) : RefPeer :=
  { p with d := settings[2], c := settings[1], b := settings[0] }

/-- R90: cursor/display-shift, settings xy--: a cursor move (x = 0) or a display shift (x = 1), right if y = 1. -/
def RefPeer.cursorDisplayShift (settings : Byte) (p : RefPeer) : RefPeer :=
  if settings[3] then { p with sh := if settings[2] then p.sh + 1 else p.sh - 1 }
  else p.move settings[2]

/-- R89: function-set, settings xyz--: DL <- x, N <- y, F <- z. -/
def RefPeer.functionSet (settings : Byte) (p : RefPeer) : RefPeer :=
  { p with dl := settings[4], n := settings[3], f := settings[2] }

/-- R91: set-CGRAM-address. -/
def RefPeer.setCgramAddress (settings : Byte) (p : RefPeer) : RefPeer :=
  { p with ramsel := .cgram, ac := 0#1 ++ settings.extractLsb' 0 6 }

/-- R91: set-DDRAM-address. -/
def RefPeer.setDdramAddress (settings : Byte) (p : RefPeer) : RefPeer :=
  { p with ramsel := .ddram, ac := settings.extractLsb' 0 7 }

/-- R86: the effect of one instruction on the peer, before it becomes busy. -/
def RefPeer.perform (op : LcdOpcode) (settings : Byte) (p : RefPeer) : RefPeer :=
  match op with
  | .clearDisplay => p.clearDisplay
  | .returnHome => p.returnHome
  | .entryModeSet => p.entryModeSet settings
  | .displayControl => p.displayControl settings
  | .cursorDisplayShift => p.cursorDisplayShift settings
  | .functionSet => p.functionSet settings
  | .setCgramAddress => p.setCgramAddress settings
  | .setDdramAddress => p.setDdramAddress settings

/-- R86: an instruction write; after any instruction other than 0x00 the peer is busy. -/
def RefPeer.instructionWrite (b : Byte) (p : RefPeer) : RefPeer :=
  match decodeLcdByte b with
  | some (op, settings) => (p.perform op settings).startBusy
  | none => p

/-- R89, R284: whether a byte is a function-set that asks for the 4-bit bus, which the reference peer does not model. -/
def selectsFourBitBus (b : Byte) : Bool :=
  match decodeLcdByte b with
  | some (.functionSet, settings) => !settings[4]
  | _ => false

/-- A peer state with its memories put into canonical form. -/
def RefPeer.canonical (p : RefPeer) : RefPeer :=
  { p with ddram := Memory.ofCells ddramSize p.ddram, cgram := Memory.ofCells cgramSize p.cgram }

/-- The peer `q` seen as the same module as `p`: the parameters of a peer do not change. -/
def RefPeer.withParametersOf (p q : RefPeer) : RefPeer :=
  { q with kBusy := p.kBusy, late := p.late, oneLine := p.oneLine }

/-- The peer in any state at all, the n-th taken: after a bus cycle on undriven control lines (R74, R272; log 6). -/
def RefPeer.unknown (n : Nat) (p : RefPeer) : RefPeer :=
  p.withParametersOf (Config.freePeer n).canonical

/-- The peer's memories are in canonical form. -/
def RefPeer.wf (p : RefPeer) : Bool := Memory.wf ddramSize p.ddram && Memory.wf cgramSize p.cgram

end Sys2Proof.Machine
end

