-- ==== Sys2Proof/Machine/Ops.lean ====
section
/-! DEFINITION. The named operations every meaning is made of: the trace, the free values, the peer at the bus, the pin
micro-operations (40_bus_transport R130 to R135), the two bus cycles (R137, R138), the end of an operation (60 R248)
and reset (70 R270). -/

namespace Sys2Proof.Machine

/-- Append an event to the trace (R12 `emit`, R70). -/
def emit (ev : Event) (s : State) : State := { s with trace := s.trace ++ [ev] }

/-- `Delay(d)`: a fixed wait; it changes no state but the trace (R12, R290). -/
def delay (d : Delay) (s : State) : State := emit (.wait d) s

/-! ### Free values -/

/-- The next free value is taken. -/
def countFree (s : State) : State := { s with freeCount := s.freeCount + 1 }

/-- Any byte: the next free one (log 4, log 5). -/
def takeFreeByte (s : State) : Byte × State := (Config.freeByte s.freeCount, countFree s)

/-! ### The peer at the bus -/

/-- A cycle that a peer may perform or ignore: the last poll timed out, and of this peer only R281 is known (log 8). -/
def lateCycle (p : RefPeer) (s : State) : Bool :=
  decide (p.late = .unsettled) && decide (s.pollres = codeTimedOut)

/-- What a reference peer is after an instruction write: R86, unless the byte selects the 4-bit bus, which it does not
model (R89, R284); from there on any byte is possible (log 7). -/
def peerAfterInstruction (b : Byte) (p : RefPeer) : Peer :=
  if selectsFourBitBus b then .oracle [] else .reference (p.instructionWrite b)

/-- The peer after the write transaction `W(reg, b)` (R84, R86). -/
def peerAfterWrite (reg : BusRegister) (b : Byte) (p : RefPeer) : Peer :=
  match reg with
  | .instruction => peerAfterInstruction b p
  | .data => .reference (p.dataWrite b)

/-- The peer takes `W(reg, b)`; the oracle's reaction shows only in its later answers (R71). -/
def peerWrite (reg : BusRegister) (b : Byte) (s : State) : State :=
  match s.peer with
  | .oracle _ => s
  | .reference p =>
    if lateCycle p s then
      if Config.latePerformed s.freeCount then countFree { s with peer := peerAfterWrite reg b p }
      else countFree s
    else { s with peer := peerAfterWrite reg b p }

/-- The peer answers a data read: the byte at its address counter (R85), or any byte if it ignored the cycle (R281). -/
def referenceDataRead (p : RefPeer) (s : State) : Byte × State :=
  if lateCycle p s then
    if Config.latePerformed s.freeCount then (p.cell, countFree { s with peer := .reference p.afterDataRead })
    else takeFreeByte s
  else (p.cell, { s with peer := .reference p.afterDataRead })

/-- The byte the peer drives for a read of `reg`, and its reaction: the oracle's next answer (R71), the reference
peer's status byte (R82) or data byte (R85). -/
def peerRead (reg : BusRegister) (s : State) : Byte × State :=
  match s.peer with
  | .oracle [] => takeFreeByte s
  | .oracle (b :: answers) => (b, { s with peer := .oracle answers })
  | .reference p =>
    match reg with
    | .instruction => (p.statusAnswer, { s with peer := .reference p.afterStatusRead })
    | .data => referenceDataRead p s

/-- Enable falls while LCDC does not drive the control lines: what the peer sees is undefined (R74), so the peer may be
in any state (log 6). -/
def undrivenCycle (s : State) : State :=
  match s.peer with
  | .oracle _ => s
  | .reference p => countFree { s with peer := .reference (p.unknown s.freeCount) }

/-- The falling edge of enable, where the peer takes the byte of a write cycle (R135): the byte on the data lines,
which is DB_OUT while LCDC drives them (R130) and any byte otherwise (log 21). -/
def enableFalls (s : State) : State :=
  match s.ctlDir with
  | .input => undrivenCycle s
  | .output =>
    match s.rw with
    | .read => s
    | .write =>
      match s.dbDir with
      | .output => peerWrite s.rs s.dbOut s
      | .input => peerWrite s.rs (takeFreeByte s).1 (takeFreeByte s).2

/-! ### The pin micro-operations -/

/-- `SetDataLines(b)` (R130). -/
def setDataLines (b : Byte) (s : State) : State := emit (.data b) { s with dbOut := b }

/-- `SetControlLines(rs, rw)` (R132). -/
def setControlLines (rs : BusRegister) (rw : Transfer) (s : State) : State :=
  emit (.ctl rs rw) { s with rs := rs, rw := rw }

/-- `SetEnable(l)` (R133); a high-then-low transition latches (R72 e). -/
def setEnable (l : Level) (s : State) : State :=
  match s.e, l with
  | .high, .low => enableFalls (emit (.en .low) { s with e := .low })
  | _, _ => emit (.en l) { s with e := l }

/-- `SetDataDirection(d)` (R134). -/
def setDataDirection (d : Direction) (s : State) : State := emit (.ddir d) { s with dbDir := d }

/-- `CTL_DIR <- d`, the direction of the three control lines (R23, R200). -/
def setControlDirection (d : Direction) (s : State) : State := emit (.cdir d) { s with ctlDir := d }

/-- DB_IN (R25): the byte the peer drives while the lines are in a driven read with enable high, any byte otherwise
(U3, log 5). -/
def dataLinesIn (s : State) : Byte × State :=
  if s.ctlDir = .output ∧ s.dbDir = .input ∧ s.rw = .read ∧ s.e = .high then peerRead s.rs s else takeFreeByte s

/-- `ReadDataLines()` (R131). -/
def readDataLines (s : State) : Byte × State :=
  ((dataLinesIn s).1, emit (.sample (dataLinesIn s).1) (dataLinesIn s).2)

/-- `PulseEnable()` (R135). -/
def pulseEnable (s : State) : State := setEnable .low (delay .enHold (setEnable .high s))

/-! ### The two bus cycles -/

/-- `WCYC(reg, b)` (R137). -/
def writeCycle (reg : BusRegister) (b : Byte) (s : State) : State :=
  pulseEnable (delay .settle (setDataLines b (setControlLines reg .write s)))

/-- A read cycle up to its sample (R138). -/
def readCycleOpen (reg : BusRegister) (s : State) : State :=
  delay .rdSetup (setEnable .high (setControlLines reg .read (setDataDirection .input s)))

/-- A read cycle after its sample (R138). -/
def readCycleClose (s : State) : State := setDataDirection .output (setEnable .low (delay .rdHold s))

/-- `RCYC(reg)` (R138): the byte sampled, and the state after the cycle. -/
def readCycle (reg : BusRegister) (s : State) : Byte × State :=
  ((readDataLines (readCycleOpen reg s)).1, readCycleClose (readDataLines (readCycleOpen reg s)).2)

/-! ### The end of an operation, and reset -/

/-- The end of an operation: STATUS is written, SEQ returns to Idle (R28, R36). It stands where another machine would
take an exception: an error is this with its code, and nothing else changes (R240, R241, R248). -/
def endOperation (code : Byte) (s : State) : State := { s with status := code, seq := .idle }

/-- Power-on reset (R270): LCDC's state takes its reset values, a running operation is abandoned, no event is traced;
the peer is not reset (R272), and the instance's constants are not state of a run (R9). -/
def takeReset (s : State) : State :=
  { State.reset with
    cfg := s.cfg, peer := s.peer, inputs := s.inputs, hostOut := s.hostOut, trace := s.trace,
    freeCount := s.freeCount, launchMode := s.launchMode }

end Sys2Proof.Machine
end

