-- ==== Sys2Proof/Machine/BusWords.lean ====
section
/-! DEFINITION. The eleven bus words, each one bus cycle (30_encoding R104): a write word is the cycle in which LCDC
drives its DB byte (40 R137), a read word the cycle in which the peer drives the byte (R138). -/

namespace Sys2Proof.Machine

/-- The write cycle of an instruction word: `opcode | settings` to the instruction register (R104, R105). -/
def instructionCycle (op : LcdOpcode) (settings : Byte) (s : State) : State :=
  writeCycle .instruction (op.code ||| settings) s

def execBwClearDisplay (s : State) : Host.Outcome State Fault Refusal :=
  .next (instructionCycle .clearDisplay 0x00#8 s)

def execBwReturnHome (s : State) : Host.Outcome State Fault Refusal :=
  .next (instructionCycle .returnHome 0x00#8 s)

def execBwEntryModeSet (settings : Byte) (s : State) : Host.Outcome State Fault Refusal :=
  .next (instructionCycle .entryModeSet settings s)

def execBwDisplayControl (settings : Byte) (s : State) : Host.Outcome State Fault Refusal :=
  .next (instructionCycle .displayControl settings s)

def execBwCursorDisplayShift (settings : Byte) (s : State) : Host.Outcome State Fault Refusal :=
  .next (instructionCycle .cursorDisplayShift settings s)

def execBwFunctionSet (settings : Byte) (s : State) : Host.Outcome State Fault Refusal :=
  .next (instructionCycle .functionSet settings s)

def execBwSetCgramAddress (settings : Byte) (s : State) : Host.Outcome State Fault Refusal :=
  .next (instructionCycle .setCgramAddress settings s)

def execBwSetDdramAddress (settings : Byte) (s : State) : Host.Outcome State Fault Refusal :=
  .next (instructionCycle .setDdramAddress settings s)

/-- A status read: the busy flag and the address are the peer's to drive (R104), so the word's own are not used
(log 19). -/
def execBwStatusRead (_busy : Bool) (_address : Address) (s : State) : Host.Outcome State Fault Refusal :=
  .next (readCycle .instruction s).2

def execBwDataWrite (byte : Byte) (s : State) : Host.Outcome State Fault Refusal :=
  .next (writeCycle .data byte s)

/-- A data read: the byte is the peer's to drive (R104), so the word's own is not used (log 19). -/
def execBwDataRead (_byte : Byte) (s : State) : Host.Outcome State Fault Refusal :=
  .next (readCycle .data s).2

end Sys2Proof.Machine
end

