-- ==== Sys2Proof/Machine/Poller.lean ====
section
/-! DEFINITION. The busy poller and the two operations built on it alone (41_busy_poller R150 to R158). -/

namespace Sys2Proof.Machine

/-- The result of a poll (R150). -/
inductive PollResult
  | ready
  | timedOut
  deriving DecidableEq, Repr

/-- What `PollUntilReady` returns, the result and the last byte sampled (R150), with the state after it. -/
structure Polled where
  result : PollResult
  sampled : Byte
  state : State
  deriving DecidableEq, Repr

/-- `ATTEMPT <- 0` (R152). -/
def startPoll (s : State) : State := { s with attempt := 0#8 }

/-- `ATTEMPT <- ATTEMPT + 1` (R152). -/
def countAttempt (s : State) : State := { s with attempt := s.attempt + 1#8 }

/-- The exit of a poll that saw the busy bit clear (R152). -/
def recordReady (s : State) : State := { s with pollres := codeReady }

/-- The exit of a poll that used up its attempts: POLLRES, the sticky TMO bit, one TIMEOUT event (R152, R242). -/
def recordTimeout (s : State) : State :=
  emit .timeout { s with pollres := codeTimedOut, flags := withTmo s.flags }

/-- One attempt: a status read, counted (R151). -/
def pollAttempt (s : State) : Byte × State :=
  ((readCycle .instruction s).1, countAttempt (readCycle .instruction s).2)

/-- The loop of R152 with `more` attempts left after the coming one; the delay stands between attempts only. -/
def pollLoop : Nat → State → Polled
  | 0, s =>
    if busyBit (pollAttempt s).1 then ⟨.timedOut, (pollAttempt s).1, recordTimeout (pollAttempt s).2⟩
    else ⟨.ready, (pollAttempt s).1, recordReady (pollAttempt s).2⟩
  | more + 1, s =>
    if busyBit (pollAttempt s).1 then pollLoop more (delay .pollGap (pollAttempt s).2)
    else ⟨.ready, (pollAttempt s).1, recordReady (pollAttempt s).2⟩

/-- `PollUntilReady()` (R152): at most MAX_ATTEMPTS attempts. -/
def pollUntilReady (s : State) : Polled := pollLoop (s.cfg.maxAttempts - 1) (startPoll s)

/-- "read current address" (R156, R219): one poll, the address in its last sample; RDATA receives it. -/
def readAddress (s : State) : Address × State :=
  (addressOf (pollUntilReady s).sampled,
    { (pollUntilReady s).state with rdata := addressByte (addressOf (pollUntilReady s).sampled) })

/-- WAITBUSY (R155). -/
def execWaitbusy (_arg : Byte) (s : State) : Host.Outcome State Fault Refusal :=
  .next (endOperation codeSuccess (pollUntilReady s).state)

/-- RDAC (R156). -/
def execRdac (_arg : Byte) (s : State) : Host.Outcome State Fault Refusal :=
  .next (endOperation codeSuccess (readAddress s).2)

end Sys2Proof.Machine
end

