-- ==== Sys2Proof/Machine/DataTransfer.lean ====
section
/-! DEFINITION. Raw data write and read (43_data_transfer R190 to R196). -/

namespace Sys2Proof.Machine

/-- The poll and the data write of WRDATA (R192), as a composite calls them. -/
def writeData (b : Byte) (s : State) : State := writeCycle .data b (pollUntilReady s).state

/-- The poll and the data read of RDDATA (R193): all 8 bits go to RDATA. -/
def readData (s : State) : State :=
  { (readCycle .data (pollUntilReady s).state).2 with rdata := (readCycle .data (pollUntilReady s).state).1 }

/-- WRDATA (R192). -/
def execWrdata (arg : Byte) (s : State) : Host.Outcome State Fault Refusal :=
  .next (endOperation codeSuccess (writeData arg s))

/-- RDDATA (R193). -/
def execRddata (_arg : Byte) (s : State) : Host.Outcome State Fault Refusal :=
  .next (endOperation codeSuccess (readData s))

end Sys2Proof.Machine
end

