-- ==== Sys2Proof/Machine/LcdInstructions.lean ====
section
/-! DEFINITION. The issuer and the eight LCD instructions (42_instructions R165 to R180). -/

namespace Sys2Proof.Machine

/-- `IssueInstruction(b)` (R168): a poll whose result is not tested, then the write cycle. -/
def issueInstruction (b : Byte) (s : State) : State :=
  writeCycle .instruction b (pollUntilReady s).state

/-- The common shape of the six validating operations (R169). -/
def validatedInstruction (op : LcdOpcode) (arg : Byte) (s : State) : State :=
  match encodeSettings op arg with
  | some b => endOperation codeSuccess (issueInstruction b s)
  | none => endOperation codeInvalidArgument s

/-- A validating operation called inside a composite or INIT, whose settings are a constant below the opcode (R219);
the STATUS write is the caller's (R220). -/
def subInstruction (op : LcdOpcode) (settings : Byte) (s : State) : State :=
  match encodeSettings op settings with
  | some b => issueInstruction b s
  | none => s

/-- CLEAR (R170). -/
def execClear (_arg : Byte) (s : State) : Host.Outcome State Fault Refusal :=
  .next (endOperation codeSuccess (issueInstruction LcdOpcode.clearDisplay.code s))

/-- HOME (R171). -/
def execHome (_arg : Byte) (s : State) : Host.Outcome State Fault Refusal :=
  .next (endOperation codeSuccess (issueInstruction LcdOpcode.returnHome.code s))

/-- ENTRY (R172). -/
def execEntry (arg : Byte) (s : State) : Host.Outcome State Fault Refusal :=
  .next (validatedInstruction .entryModeSet arg s)

/-- DISPCTL (R173). -/
def execDispctl (arg : Byte) (s : State) : Host.Outcome State Fault Refusal :=
  .next (validatedInstruction .displayControl arg s)

/-- SHIFT (R174). -/
def execShift (arg : Byte) (s : State) : Host.Outcome State Fault Refusal :=
  .next (validatedInstruction .cursorDisplayShift arg s)

/-- FUNCSET (R175). -/
def execFuncset (arg : Byte) (s : State) : Host.Outcome State Fault Refusal :=
  .next (validatedInstruction .functionSet arg s)

/-- SETCG (R176). -/
def execSetcg (arg : Byte) (s : State) : Host.Outcome State Fault Refusal :=
  .next (validatedInstruction .setCgramAddress arg s)

/-- SETDD (R177). -/
def execSetdd (arg : Byte) (s : State) : Host.Outcome State Fault Refusal :=
  .next (validatedInstruction .setDdramAddress arg s)

end Sys2Proof.Machine
end

