-- ==== Sys2Proof/Machine/Initialisation.lean ====
section
/-! DEFINITION. The initialisation sequence (44_init R200 to R207). -/

namespace Sys2Proof.Machine

/-- The pin set-up of INIT: enable low, both ports output, instruction register and write mode (R200, R203). -/
def initPins (s : State) : State :=
  setControlLines .instruction .write (setDataDirection .output (setControlDirection .output (setEnable .low s)))

/-- The raw byte: function-set with the 8-bit data length alone (R202). -/
def rawFunctionSet : Byte := 0x30#8

/-- One unpolled function-set after its fixed delay (R201, R203 b). -/
def rawWrite (d : Delay) (s : State) : State := writeCycle .instruction rawFunctionSet (delay d s)

/-- The unpolled part of INIT (R200, R201). -/
def initRaw (s : State) : State := rawWrite .init3 (rawWrite .init2 (rawWrite .init1 (initPins s)))

/-- The polled part of INIT: FUNCSET 0x18, DISPCTL 0x00, CLEAR, ENTRY 0x02, in this order (R200). -/
def initPolled (s : State) : State :=
  subInstruction .entryModeSet 0x02#8
    (issueInstruction LcdOpcode.clearDisplay.code
      (subInstruction .displayControl 0x00#8
        (subInstruction .functionSet 0x18#8 s)))

/-- `FLAGS[1] <- 1` (R200). -/
def recordInitd (s : State) : State := { s with flags := withInitd s.flags }

/-- INIT (R200). -/
def execInit (_arg : Byte) (s : State) : Host.Outcome State Fault Refusal :=
  .next (endOperation codeSuccess (recordInitd (initPolled (initRaw s))))

end Sys2Proof.Machine
end

