-- ==== Sys2Proof/Machine/Navigator.lean ====
section
/-! DEFINITION. The address navigator: the line table, its remap tables (45_navigator R210 to R218; tables, as R287
asks, and not arithmetic) and the five composite operations (R219 to R226). -/

namespace Sys2Proof.Machine

/-- The four display lines (R66). -/
inductive DisplayLine
  | line1
  | line2
  | line3
  | line4
  deriving DecidableEq, Repr

/-- `beginAddress` of a line (R66). -/
def DisplayLine.first : DisplayLine → Address
  | .line1 => 0x00#7
  | .line2 => 0x40#7
  | .line3 => 0x14#7
  | .line4 => 0x54#7

/-- `endAddress` of a line (R66). -/
def DisplayLine.last : DisplayLine → Address
  | .line1 => 0x13#7
  | .line2 => 0x53#7
  | .line3 => 0x27#7
  | .line4 => 0x67#7

/-- The line below in display order 1, 2, 3, 4, then 1 again (R66, R211). -/
def DisplayLine.below : DisplayLine → DisplayLine
  | .line1 => .line2
  | .line2 => .line3
  | .line3 => .line4
  | .line4 => .line1

/-- The line above in display order. -/
def DisplayLine.above : DisplayLine → DisplayLine
  | .line1 => .line4
  | .line2 => .line1
  | .line3 => .line2
  | .line4 => .line3

/-- Whether an address is in a line: inclusive at both ends (R212). -/
def DisplayLine.contains (l : DisplayLine) (a : Address) : Bool := decide (l.first ≤ a) && decide (a ≤ l.last)

/-- `LineOf(a)` (R212). -/
def lineOf (a : Address) : Option DisplayLine :=
  [DisplayLine.line1, .line2, .line3, .line4].find? fun l => l.contains a

/-- `NextAddress(a)` (R213). -/
def nextAddress (a : Address) : Option Address :=
  if a = DisplayLine.line1.last then some DisplayLine.line2.first
  else if a = DisplayLine.line2.last then some DisplayLine.line3.first
  else if a = DisplayLine.line3.last then some DisplayLine.line4.first
  else if a = DisplayLine.line4.last then some DisplayLine.line1.first
  else none

/-- `PreviousAddress(a)` (R214), with the fourth row of 90_conflicts C3. -/
def previousAddress (a : Address) : Option Address :=
  if a = DisplayLine.line2.first then some DisplayLine.line1.last
  else if a = DisplayLine.line3.first then some DisplayLine.line2.last
  else if a = DisplayLine.line4.first then some DisplayLine.line3.last
  else if a = DisplayLine.line1.first then some DisplayLine.line4.last
  else none

/-- `EnterTarget(a)` (R215). -/
def enterTarget (a : Address) : Option Address := (lineOf a).map fun l => l.below.first

/-- `PostWriteFix(a)` (R216). -/
def postWriteFix (a : Address) : Option Address :=
  if a = DisplayLine.line3.first then some DisplayLine.line2.first
  else if a = DisplayLine.line2.first then some DisplayLine.line4.first
  else if a = DisplayLine.line4.first then some DisplayLine.line3.first
  else none

/-- A remap table by its name. -/
def remap : RemapTable → Address → Option Address
  | .nextAddress => nextAddress
  | .previousAddress => previousAddress
  | .enterTarget => enterTarget
  | .postWriteFix => postWriteFix

/-- The settings byte of `call SETDD t` (R219). -/
def setddSettings (t : Address) : Byte := addressByte t

/-- left-cursor-shift, the byte of `SHIFT 0x00` (R109, R219). -/
def leftCursorShift : Byte := 0x10#8

/-- right-cursor-shift, the byte of `SHIFT 0x04` (R109, R219). -/
def rightCursorShift : Byte := 0x14#8

/-- The two-way branch of a composite (R222 to R226): a remap that applies is sent as SETDD, otherwise the given
instruction byte is sent, if there is one. -/
def branchOn (t : RemapTable) (otherwise : Option Byte) (a : Address) (s : State) : State :=
  match remap t a with
  | some target => subInstruction .setDdramAddress (setddSettings target) s
  | none =>
    match otherwise with
    | some b => issueInstruction b s
    | none => s

/-- Read the address, then branch on it. -/
def navigate (t : RemapTable) (otherwise : Option Byte) (s : State) : State :=
  branchOn t otherwise (readAddress s).1 (readAddress s).2

/-- PUTCH (R222). -/
def execPutch (arg : Byte) (s : State) : Host.Outcome State Fault Refusal :=
  .next (endOperation codeSuccess (navigate .postWriteFix none (writeData arg s)))

/-- The body of BKSP (R223): Decrement; to the previous place; the blank; right; Increment. -/
def backspace (s : State) : State :=
  subInstruction .entryModeSet 0x02#8
    (subInstruction .cursorDisplayShift 0x04#8
      (writeData s.cfg.blank
        (navigate .previousAddress (some leftCursorShift)
          (subInstruction .entryModeSet 0x00#8 s))))

/-- BKSP (R223). -/
def execBksp (_arg : Byte) (s : State) : Host.Outcome State Fault Refusal :=
  .next (endOperation codeSuccess (backspace s))

/-- ENTER (R224). -/
def execEnter (_arg : Byte) (s : State) : Host.Outcome State Fault Refusal :=
  .next (endOperation codeSuccess (navigate .enterTarget none s))

/-- CURLEFT (R225). -/
def execCurleft (_arg : Byte) (s : State) : Host.Outcome State Fault Refusal :=
  .next (endOperation codeSuccess (navigate .previousAddress (some leftCursorShift) s))

/-- CURRIGHT (R226). -/
def execCurright (_arg : Byte) (s : State) : Host.Outcome State Fault Refusal :=
  .next (endOperation codeSuccess (navigate .nextAddress (some rightCursorShift) s))

end Sys2Proof.Machine
end

