-- ==== Sys2Proof/Machine/Dispatch.lean ====
section
/-! DEFINITION. The meaning of each instruction: one arm per constructor. -/

namespace Sys2Proof.Machine

def exec (i : Instr) (s : State) : Host.Outcome State Fault Refusal :=
  match i with
  | .clear arg => Sys2Proof.Machine.execClear arg s
  | .home arg => Sys2Proof.Machine.execHome arg s
  | .entry arg => Sys2Proof.Machine.execEntry arg s
  | .dispctl arg => Sys2Proof.Machine.execDispctl arg s
  | .shift arg => Sys2Proof.Machine.execShift arg s
  | .funcset arg => Sys2Proof.Machine.execFuncset arg s
  | .setcg arg => Sys2Proof.Machine.execSetcg arg s
  | .setdd arg => Sys2Proof.Machine.execSetdd arg s
  | .wrdata arg => Sys2Proof.Machine.execWrdata arg s
  | .rddata arg => Sys2Proof.Machine.execRddata arg s
  | .rdac arg => Sys2Proof.Machine.execRdac arg s
  | .waitbusy arg => Sys2Proof.Machine.execWaitbusy arg s
  | .init arg => Sys2Proof.Machine.execInit arg s
  | .putch arg => Sys2Proof.Machine.execPutch arg s
  | .bksp arg => Sys2Proof.Machine.execBksp arg s
  | .enter arg => Sys2Proof.Machine.execEnter arg s
  | .curleft arg => Sys2Proof.Machine.execCurleft arg s
  | .curright arg => Sys2Proof.Machine.execCurright arg s
  | .bwClearDisplay => Sys2Proof.Machine.execBwClearDisplay s
  | .bwReturnHome => Sys2Proof.Machine.execBwReturnHome s
  | .bwEntryModeSet settings => Sys2Proof.Machine.execBwEntryModeSet settings s
  | .bwDisplayControl settings => Sys2Proof.Machine.execBwDisplayControl settings s
  | .bwCursorDisplayShift settings => Sys2Proof.Machine.execBwCursorDisplayShift settings s
  | .bwFunctionSet settings => Sys2Proof.Machine.execBwFunctionSet settings s
  | .bwSetCgramAddress settings => Sys2Proof.Machine.execBwSetCgramAddress settings s
  | .bwSetDdramAddress settings => Sys2Proof.Machine.execBwSetDdramAddress settings s
  | .bwStatusRead busy address => Sys2Proof.Machine.execBwStatusRead busy address s
  | .bwDataWrite byte => Sys2Proof.Machine.execBwDataWrite byte s
  | .bwDataRead byte => Sys2Proof.Machine.execBwDataRead byte s

end Sys2Proof.Machine
end

