-- ==== Sys2Proof/Machine/Sequencer.lean ====
section
/-! DEFINITION. The sequencer: every operation as the list of micro-operations SEQ goes through (10_state R36), and one
tick of it. The meanings of `exec` run an operation to completion, the form R36 recommends; this is the same operation
one micro-operation at a time, which is where a reset can land (70 R270). -/

namespace Sys2Proof.Machine

/-- SEQ with these micro-operations to perform; Idle when none is left. -/
def seqOf (sampled : Byte) : List MicroOp → Seq
  | [] => .idle
  | op :: rest => .running sampled op rest

/-- The micro-operations of `WCYC(reg, b)` (R137). -/
def writeCycleOps (reg : BusRegister) (b : Byte) : List MicroOp :=
  [.setControlLines reg .write, .setDataLines b, .delay .settle, .setEnable .high, .delay .enHold, .setEnable .low]

/-- The micro-operations of `RCYC(reg)` (R138). -/
def readCycleOps (reg : BusRegister) : List MicroOp :=
  [.setDataDirection .input, .setControlLines reg .read, .setEnable .high, .delay .rdSetup, .readDataLines,
    .delay .rdHold, .setEnable .low, .setDataDirection .output]

/-- The micro-operations of one attempt of a poll and its test (R152). -/
def attemptOps : List MicroOp := readCycleOps .instruction ++ [.pollTest]

/-- The micro-operations of `PollUntilReady()` (R152). -/
def pollOps : List MicroOp := .pollStart :: attemptOps

/-- The micro-operations of `IssueInstruction(b)` (R168). -/
def issueOps (b : Byte) : List MicroOp := pollOps ++ writeCycleOps .instruction b

/-- The micro-operations of a validating operation called inside another (R169, R219). -/
def subInstructionOps (op : LcdOpcode) (settings : Byte) : List MicroOp :=
  match encodeSettings op settings with
  | some b => issueOps b
  | none => []

/-- The micro-operations of a validating operation, with the validation exit (R169). -/
def validatedOps (op : LcdOpcode) (arg : Byte) : List MicroOp :=
  match encodeSettings op arg with
  | some b => issueOps b ++ [.finish codeSuccess]
  | none => [.finish codeInvalidArgument]

/-- The micro-operations of the data write (R192). -/
def writeDataOps (b : Byte) : List MicroOp := pollOps ++ writeCycleOps .data b

/-- The micro-operations of the data read (R193). -/
def readDataOps : List MicroOp := pollOps ++ readCycleOps .data ++ [.latchData]

/-- The micro-operations of `call RDAC` (R156). -/
def readAddressOps : List MicroOp := pollOps ++ [.latchAddress]

/-- The micro-operations of the address read and the branch of a composite (R222 to R226). -/
def navigateOps (t : RemapTable) (otherwise : Option Byte) : List MicroOp := readAddressOps ++ [.branch t otherwise]

/-- The micro-operations of one unpolled function-set of INIT (R200). -/
def rawWriteOps (d : Delay) : List MicroOp := .delay d :: writeCycleOps .instruction rawFunctionSet

/-- The micro-operations of INIT (R200). -/
def initOps : List MicroOp :=
  [.setEnable .low, .setControlDirection .output, .setDataDirection .output, .setControlLines .instruction .write]
    ++ rawWriteOps .init1 ++ rawWriteOps .init2 ++ rawWriteOps .init3
    ++ subInstructionOps .functionSet 0x18#8 ++ subInstructionOps .displayControl 0x00#8
    ++ issueOps LcdOpcode.clearDisplay.code ++ subInstructionOps .entryModeSet 0x02#8
    ++ [.setInitd, .finish codeSuccess]

/-- The micro-operations of BKSP (R223). -/
def backspaceOps (blank : Byte) : List MicroOp :=
  subInstructionOps .entryModeSet 0x00#8 ++ navigateOps .previousAddress (some leftCursorShift)
    ++ writeDataOps blank ++ subInstructionOps .cursorDisplayShift 0x04#8
    ++ subInstructionOps .entryModeSet 0x02#8 ++ [.finish codeSuccess]

/-- The micro-operations of an operation, in the textual order of its rule. -/
def program (c : Config) : Instr → List MicroOp
  | .clear _ => issueOps LcdOpcode.clearDisplay.code ++ [.finish codeSuccess]
  | .home _ => issueOps LcdOpcode.returnHome.code ++ [.finish codeSuccess]
  | .entry arg => validatedOps .entryModeSet arg
  | .dispctl arg => validatedOps .displayControl arg
  | .shift arg => validatedOps .cursorDisplayShift arg
  | .funcset arg => validatedOps .functionSet arg
  | .setcg arg => validatedOps .setCgramAddress arg
  | .setdd arg => validatedOps .setDdramAddress arg
  | .wrdata arg => writeDataOps arg ++ [.finish codeSuccess]
  | .rddata _ => readDataOps ++ [.finish codeSuccess]
  | .rdac _ => readAddressOps ++ [.finish codeSuccess]
  | .waitbusy _ => pollOps ++ [.finish codeSuccess]
  | .init _ => initOps
  | .putch arg => writeDataOps arg ++ navigateOps .postWriteFix none ++ [.finish codeSuccess]
  | .bksp _ => backspaceOps c.blank
  | .enter _ => navigateOps .enterTarget none ++ [.finish codeSuccess]
  | .curleft _ => navigateOps .previousAddress (some leftCursorShift) ++ [.finish codeSuccess]
  | .curright _ => navigateOps .nextAddress (some rightCursorShift) ++ [.finish codeSuccess]
  | .bwClearDisplay => writeCycleOps .instruction LcdOpcode.clearDisplay.code
  | .bwReturnHome => writeCycleOps .instruction LcdOpcode.returnHome.code
  | .bwEntryModeSet settings => writeCycleOps .instruction (LcdOpcode.entryModeSet.code ||| settings)
  | .bwDisplayControl settings => writeCycleOps .instruction (LcdOpcode.displayControl.code ||| settings)
  | .bwCursorDisplayShift settings => writeCycleOps .instruction (LcdOpcode.cursorDisplayShift.code ||| settings)
  | .bwFunctionSet settings => writeCycleOps .instruction (LcdOpcode.functionSet.code ||| settings)
  | .bwSetCgramAddress settings => writeCycleOps .instruction (LcdOpcode.setCgramAddress.code ||| settings)
  | .bwSetDdramAddress settings => writeCycleOps .instruction (LcdOpcode.setDdramAddress.code ||| settings)
  | .bwStatusRead _ _ => readCycleOps .instruction
  | .bwDataWrite byte => writeCycleOps .data byte
  | .bwDataRead _ => readCycleOps .data

/-- SEQ leaves Idle: the operation is about to perform its first micro-operation. -/
def beginOperation (i : Instr) (s : State) : State := { s with seq := seqOf 0x00#8 (program s.cfg i) }

/-- The state `s` with these micro-operations still to perform. -/
def continueWith (sampled : Byte) (ops : List MicroOp) (s : State) : State := { s with seq := seqOf sampled ops }

/-- The test of a poll (R152): the exit on a clear busy bit, the exit on a used-up budget, the back edge. -/
def pollTest (sampled : Byte) (rest : List MicroOp) (s : State) : State :=
  if busyBit sampled then
    if s.attempt.toNat = s.cfg.maxAttempts then continueWith sampled rest (recordTimeout s)
    else continueWith sampled (.delay .pollGap :: (attemptOps ++ rest)) s
  else continueWith sampled rest (recordReady s)

/-- The micro-operations a branch goes on with, at the address RDATA holds (R222 to R226). -/
def branchOps (t : RemapTable) (otherwise : Option Byte) (a : Address) : List MicroOp :=
  match remap t a with
  | some target => subInstructionOps .setDdramAddress (setddSettings target)
  | none =>
    match otherwise with
    | some b => issueOps b
    | none => []

/-- Perform one micro-operation, with those that follow it. -/
def perform (sampled : Byte) (op : MicroOp) (rest : List MicroOp) (s : State) : State :=
  match op with
  | .setEnable l => continueWith sampled rest (setEnable l s)
  | .setControlDirection d => continueWith sampled rest (setControlDirection d s)
  | .setDataDirection d => continueWith sampled rest (setDataDirection d s)
  | .setControlLines rs rw => continueWith sampled rest (setControlLines rs rw s)
  | .setDataLines b => continueWith sampled rest (setDataLines b s)
  | .delay d => continueWith sampled rest (delay d s)
  | .readDataLines => continueWith (readDataLines s).1 rest (readDataLines s).2
  | .pollStart => continueWith sampled rest (startPoll s)
  | .pollTest => pollTest sampled rest (countAttempt s)
  | .latchAddress => continueWith sampled rest { s with rdata := addressByte (addressOf sampled) }
  | .latchData => continueWith sampled rest { s with rdata := sampled }
  | .branch t otherwise => continueWith sampled (branchOps t otherwise (addressOf s.rdata) ++ rest) s
  | .setInitd => continueWith sampled rest (recordInitd s)
  | .finish code => endOperation code s

/-- One tick: the micro-operation SEQ names is performed (R36); an idle sequencer does nothing. -/
def tick (s : State) : State :=
  match s.seq with
  | .idle => s
  | .running sampled op rest => perform sampled op rest s

/-- `n` ticks. -/
def ticks : Nat → State → State
  | 0, s => s
  | n + 1, s => ticks n (tick s)

end Sys2Proof.Machine
end

