-- ==== Sys2Proof/Machine/Launch.lean ====
section
/-! DEFINITION. What the host can do: launch an operation through CMD (10_state R27), read a register (R26, R32), write
a read-only register; and which launches the spec tells a model to refuse (70 R273, R284). -/

namespace Sys2Proof.Machine

/-- The five host registers by number (R26); number 5 and above do not exist (R61). An 8-bit register is read with its
upper half zero; bits 7 to 2 of FLAGS read as zero (R31). -/
def hostRegister (register : Nat) (s : State) : Option (BitVec 16) :=
  match register with
  | 0 => some s.cmd
  | 1 => some (s.status.setWidth 16)
  | 2 => some (s.pollres.setWidth 16)
  | 3 => some (s.rdata.setWidth 16)
  | 4 => some ((visibleFlags s.flags).setWidth 16)
  | _ => none

/-- A host read (R32): the value, and no side effect. -/
def hostRead (register : Nat) (s : State) : Host.Outcome State Fault Refusal :=
  match hostRegister register s with
  | some v => .next { s with hostOut := v }
  | none => .fault (.noSuchHostRegister register)

/-- The opcode an instruction validates its arg against (R167). -/
def validatedOpcode : Instr → Option (LcdOpcode × Byte)
  | .entry arg => some (.entryModeSet, arg)
  | .dispctl arg => some (.displayControl, arg)
  | .shift arg => some (.cursorDisplayShift, arg)
  | .funcset arg => some (.functionSet, arg)
  | .setcg arg => some (.setCgramAddress, arg)
  | .setdd arg => some (.setDdramAddress, arg)
  | _ => none

/-- Whether an instruction fails its validation: no bus traffic (R169). -/
def failsValidation (i : Instr) : Bool :=
  match validatedOpcode i with
  | some (op, arg) => (encodeSettings op arg).isNone
  | none => false

/-- Whether an instruction is INIT, the one operation that may be launched first (R273). -/
def isInit : Instr → Bool
  | .init _ => true
  | _ => false

/-- Whether an instruction writes a function-set with the data-length flag clear (R284); the four of INIT have it set
(R200, R202). -/
def writesFourBitBus : Instr → Bool
  | .funcset arg => decide (arg < 0x20#8) && !arg[4]
  | .bwFunctionSet settings => !settings[4]
  | _ => false

/-- The launches the spec tells a model to refuse: an operation that would touch the bus before INIT (R273), and a
function-set with the data-length flag clear (R284). -/
def specRefusal (i : Instr) (s : State) : Option Refusal :=
  if s.initd = false ∧ isInit i = false ∧ failsValidation i = false then some .launchBeforeInit
  else if writesFourBitBus i then some .fourBitDataLength
  else none

/-- The refusal a launch meets in the launch mode the machine is in (log 6, log 7). -/
def launchRefusal (i : Instr) (s : State) : Option Refusal :=
  match s.launchMode with
  | .hardware => none
  | .checked => specRefusal i s

/-- Run an instruction, unless its launch is refused. -/
def launch (i : Instr) (s : State) : Host.Outcome State Fault Refusal :=
  match launchRefusal i s with
  | some r => .refused r
  | none => exec i s

/-- A reserved op (R103, R243): STATUS InvalidArgument, no bus cycle, nothing else. -/
def reservedOperation (s : State) : State := endOperation codeInvalidArgument s

/-- A write of CMD while idle: the word is latched and its operation runs (R27). -/
def writeCmd (w : CommandWord) (s : State) : Host.Outcome State Fault Refusal :=
  match decodeCommand w with
  | .ok i => launch i { s with cmd := w }
  | .error _ => .next (reservedOperation { s with cmd := w })

/-- An operation of which a reset leaves only the first micro-operations done: the pin trace is that far a prefix of
the operation's, and LCDC is at its reset values (R270; log 20). -/
def cutShort (i : Instr) (microOps : Nat) (s : State) : Host.Outcome State Fault Refusal :=
  match launchRefusal i s with
  | some r => .refused r
  | none => .next (takeReset (ticks microOps (beginOperation i s)))

/-- A write of CMD whose operation a reset cuts short (R27, R270); a reserved op has no micro-operation. -/
def writeCmdCutShort (w : CommandWord) (microOps : Nat) (s : State) : Host.Outcome State Fault Refusal :=
  match decodeCommand w with
  | .ok i => cutShort i microOps { s with cmd := w }
  | .error _ => .next (takeReset { s with cmd := w })

/-- A host write (R26): CMD starts an operation, registers 1 to 4 ignore it, there is no other. -/
def hostWrite (register : Nat) (value : CommandWord) (s : State) : Host.Outcome State Fault Refusal :=
  match register with
  | 0 => writeCmd value s
  | 1 | 2 | 3 | 4 => .next s
  | _ => .fault (.noSuchHostRegister register)

/-- One bus word alone (log 9). -/
def runBusWord (w : BusWord) (s : State) : Host.Outcome State Fault Refusal :=
  match decodeBus w with
  | .ok i => launch i s
  | .error _ => .refused (.notABusWord w)

/-- What an idle LCDC does with the next thing the outside world does; `s` is the state with that taken. -/
def takeInput (i : Input) (s : State) : Host.Outcome State Fault Refusal :=
  match i with
  | .write register value => hostWrite register value s
  | .writeCutShort value microOps => writeCmdCutShort value microOps s
  | .read register => hostRead register s
  | .reset => .next (takeReset s)
  | .busWord w => runBusWord w s

end Sys2Proof.Machine
end

