-- ==== Sys2Proof/Machine/Step.lean ====
section
/-! DEFINITION. One step of the machine, and how a word comes to be the next it runs. -/

namespace Sys2Proof.Machine

/-- The step of an idle LCDC: the next thing the outside world does, or nothing while it waits (R45). -/
def idleStep (s : State) : Host.Outcome State Fault Refusal :=
  match s.inputs with
  | [] => .next s
  | i :: rest => takeInput i { s with inputs := rest }

/-- The step of an LCDC with an operation running: a reset that has arrived abandons it (R270); otherwise the sequencer
performs the micro-operation SEQ names, and the host is blocked (R15, R27). -/
def busyStep (s : State) : Host.Outcome State Fault Refusal :=
  match s.inputs with
  | .reset :: rest => .next (takeReset { s with inputs := rest })
  | _ => .next (tick s)

/-- One step. From Idle an operation runs to completion (R36). -/
def step (s : State) : Host.Outcome State Fault Refusal :=
  match s.seq with
  | .idle => idleStep s
  | .running _ _ _ => busyStep s

/-- `s` idle, with a word as the next thing that comes in: a command word as the host's write of CMD, a bus word as one
bus cycle (log 9, log 12). -/
def State.withFetchWord (s : State) (nbits w : Nat) : State :=
  match tableWord nbits w with
  | .hc16 word => { s with seq := .idle, inputs := .write 0 word :: s.inputs }
  | .bus10 word => { s with seq := .idle, inputs := .busWord word :: s.inputs }

end Sys2Proof.Machine
end

