-- ==== Sys2Proof/Machine/Trace.lean ====
section
/-! DEFINITION. The two alphabets of the trace (20_memory R70) and the map between them (40_bus_transport R137, R138),
the pin-level checker of R140, and the time a trace takes (70 R294). -/

namespace Sys2Proof.Machine

/-- A transaction-level event (R70): a whole write cycle, a whole read cycle, a delay outside cycles, a timeout. -/
inductive Txn
  | write (reg : BusRegister) (b : Byte)
  | read (reg : BusRegister) (b : Byte)
  | wait (d : Delay)
  | timeout
  deriving DecidableEq, Repr

/-- The pin-level events of a transaction-level one: six for a write cycle (R137), eight for a read cycle (R138). -/
def Txn.events : Txn → List Event
  | .write reg b => [.ctl reg .write, .data b, .wait .settle, .en .high, .wait .enHold, .en .low]
  | .read reg b =>
    [.ddir .input, .ctl reg .read, .en .high, .wait .rdSetup, .sample b, .wait .rdHold, .en .low, .ddir .output]
  | .wait d => [.wait d]
  | .timeout => [.timeout]

/-- The pin-level trace of a transaction-level one. -/
def pinEvents (txns : List Txn) : List Event := txns.flatMap Txn.events

/-- The four set-up events of INIT, which have no transaction-level form (R200, R205). -/
def setupEvents : List Event := [.en .low, .cdir .output, .ddir .output, .ctl .instruction .write]

/-- The whole cycle, if any, that a pin-level trace begins with, and how many events it has. -/
def cycleAt (evs : List Event) : Option (Txn × Nat) :=
  match evs with
  | .ctl reg .write :: .data b :: .wait .settle :: .en .high :: .wait .enHold :: .en .low :: _ =>
    some (.write reg b, 6)
  | .ddir .input :: .ctl reg .read :: .en .high :: .wait .rdSetup :: .sample b :: .wait .rdHold :: .en .low
      :: .ddir .output :: _ => some (.read reg b, 8)
  | _ => none

/-- The transaction-level form of an event outside a cycle: a delay or a timeout stays, a set-up event has none. -/
def looseTxn : Event → Option Txn
  | .wait d => some (.wait d)
  | .timeout => some .timeout
  | _ => none

/-- `transactions`, with `skip` events still to pass over: those of a cycle already taken. -/
def transactionsFrom : Nat → List Event → List Txn
  | _, [] => []
  | skip + 1, _ :: rest => transactionsFrom skip rest
  | 0, ev :: rest =>
    match cycleAt (ev :: rest) with
    | some (txn, length) => txn :: transactionsFrom (length - 1) rest
    | none => (looseTxn ev).toList ++ transactionsFrom 0 rest

/-- The transaction-level trace of a pin-level one (R70): each whole write cycle becomes `W(reg, b)`, each whole read
cycle `R(reg) = b`; delays outside cycles and timeouts stay. DESIGN CHOICE (log 27): of a cycle that a reset cuts short
(R270), which R70 does not speak of, the delays stay as delays and the other events have no transaction-level form.
DESIGN CHOICE (log 28): a whole cycle becomes `W` or `R` by its events alone, also on lines that LCDC does not drive
(before INIT), where R74 says that what the peer sees is undefined; there `W` and `R` name the pin events and say nothing
of the peer. -/
def transactions (evs : List Event) : List Txn := transactionsFrom 0 evs

/-- The bus word a transaction carries (R104). -/
def Txn.word : Txn → Option BusWord
  | .write reg b => some (busWord reg .write b)
  | .read reg b => some (busWord reg .read b)
  | .wait _ | .timeout => none

/-- Where a pin-level trace stands in a bus cycle. -/
inductive CyclePhase
  /-- No cycle is open; enable is low. -/
  | between
  /-- Set-up of INIT: the control lines have become outputs, its CTL is to come (R200). -/
  | settingUp
  /-- Write cycle: CTL(reg, Write) has been, DATA(b) is to come. -/
  | addressed
  /-- Write cycle: b is on the data lines, EN(High) is to come. -/
  | loaded
  /-- Write cycle: enable is high. -/
  | strobing
  /-- Read cycle: the data lines are inputs, CTL(reg, Read) is to come. -/
  | opened
  /-- Read cycle: EN(High) is to come. -/
  | selected
  /-- Read cycle: enable is high, the sample is to come. -/
  | sampling
  /-- Read cycle: enable is high, the sample has been. -/
  | sampled
  /-- Read cycle: enable is low again, DDIR(Output) is to come. -/
  | closing
  deriving DecidableEq, Repr

/-- What the pin-level checker remembers of a trace. -/
structure PinView where
  dataDir : Direction
  phase : CyclePhase
  deriving DecidableEq, Repr

/-- The checker of R140, one event; none where the event breaks it. Between CTL(reg, Write) and EN(Low) there is one
DATA(b), driven, and then neither DATA, CTL nor a change of direction: the lines hold b, RS and RW. Between EN(High) and
EN(Low) of a read there is exactly one SAMPLE, and the data lines stay inputs. A delay may fall anywhere; a set-up event
of INIT and a timeout only between cycles (R141). -/
def PinView.after? (v : PinView) (ev : Event) : Option PinView :=
  match v.phase, ev with
  | _, .wait _ => some v
  | .between, .timeout | .between, .en .low => some v
  | .between, .cdir _ => some { v with phase := .settingUp }
  | .settingUp, .ddir d => some { v with dataDir := d }
  | .settingUp, .ctl _ _ => some { v with phase := .between }
  | .between, .ctl _ .write => some { v with phase := .addressed }
  | .addressed, .data _ => if v.dataDir = .output then some { v with phase := .loaded } else none
  | .loaded, .en .high => some { v with phase := .strobing }
  | .strobing, .en .low => some { v with phase := .between }
  | .between, .ddir .input => some { dataDir := .input, phase := .opened }
  | .opened, .ctl _ .read => some { v with phase := .selected }
  | .selected, .en .high => some { v with phase := .sampling }
  | .sampling, .sample _ => some { v with phase := .sampled }
  | .sampled, .en .low => some { v with phase := .closing }
  | .closing, .ddir .output => some { dataDir := .output, phase := .between }
  | _, _ => none

/-- The checker of R140 over a trace: the view it ends in, none where an event breaks it. -/
def PinView.run : PinView → List Event → Option PinView
  | v, [] => some v
  | v, ev :: rest => (v.after? ev).bind fun w => w.run rest

/-- A trace of whole cycles only passes the checker, from data lines in direction `before` to data lines in direction
`after`. -/
def wholeCycles (before after : Direction) (evs : List Event) : Prop :=
  PinView.run ⟨before, .between⟩ evs = some ⟨after, .between⟩

/-- A trace that may end inside a cycle passes the checker as far as it goes (R270). -/
def cyclesSoFar (before : Direction) (evs : List Event) : Prop :=
  (PinView.run ⟨before, .between⟩ evs).isSome = true

/-- How long an event takes: a delay its duration, a pin write no time (R294). -/
def Event.nanoseconds : Event → Nat
  | .wait d => d.nanoseconds
  | _ => 0

/-- How long a trace takes (R294). -/
def elapsed (evs : List Event) : Nat := (evs.map Event.nanoseconds).sum

end Sys2Proof.Machine
end

