-- ==== Sys2Proof/Safety.lean ====
section
/-! DEFINITION. The terms claims are made in: what a poll does to the trace, what an operation does to LCDC whatever the
peer answers, the invariant of the machine, and the conditions under which a claim may speak of the display
(70 R281 to R285). -/

namespace Sys2Proof.Machine

/-! ### Polls -/

/-- Whether a poll that sampled these bytes ended TimedOut: its last sample still had the busy bit set (R153). -/
def lastBusy (samples : List Byte) : Bool :=
  match samples.getLast? with
  | some b => busyBit b
  | none => false

/-- The last byte a poll sampled. -/
def lastSample (samples : List Byte) : Byte := samples.getLastD 0x00#8

/-- The status reads of a poll, with the delay between two attempts and none after the last (R152). -/
def statusReads : List Byte → List Txn
  | [] => []
  | [b] => [.read .instruction b]
  | b :: rest => .read .instruction b :: .wait .pollGap :: statusReads rest

/-- The transaction-level trace of a poll that sampled these bytes (R153, R179). -/
def pollTxns (samples : List Byte) : List Txn :=
  statusReads samples ++ if lastBusy samples then [.timeout] else []

/-- POLLRES after a poll that sampled these bytes (R152). -/
def pollCode (samples : List Byte) : Byte := if lastBusy samples then codeTimedOut else codeReady

/-- The bytes a poll of at most `budget` attempts can sample (R153): at least one and at most `budget`, every one but
the last busy, and the last one busy only if the budget is used up. -/
def PollShape (budget : Nat) (samples : List Byte) : Prop :=
  1 ≤ samples.length ∧ samples.length ≤ budget ∧ (∀ b ∈ samples.dropLast, busyBit b = true) ∧
    (lastBusy samples = true → samples.length = budget)

/-! ### Operations -/

/-- RS and RW after a trace: those of its last cycle (R137, R138). -/
def linesAfter (rs : BusRegister) (rw : Transfer) : List Txn → BusRegister × Transfer
  | [] => (rs, rw)
  | .write reg _ :: rest => linesAfter reg .write rest
  | .read reg _ :: rest => linesAfter reg .read rest
  | .wait _ :: rest | .timeout :: rest => linesAfter rs rw rest

/-- DB_OUT after a trace: the byte of its last write cycle (R137, R138). -/
def dbOutAfter (b : Byte) : List Txn → Byte
  | [] => b
  | .write _ b' :: rest => dbOutAfter b' rest
  | .read _ _ :: rest | .wait _ :: rest | .timeout :: rest => dbOutAfter b rest

/-- What nothing but a reset or the host's own access changes: CMD, the instance's constants, what is still to come
from outside, the host's last read, the launch mode. -/
def SameSurroundings (s t : State) : Prop :=
  t.cmd = s.cmd ∧ t.cfg = s.cfg ∧ t.inputs = s.inputs ∧ t.hostOut = s.hostOut ∧ t.launchMode = s.launchMode

/-- What an operation that polls does to LCDC, whatever the peer answers. `polls` are the bytes its polls sampled, in
order, and `last` those of its last poll; `txns` is its transaction-level trace. The trace is extended by exactly these
transactions (R137, R138, R141); POLLRES and ATTEMPT are the last poll's (R29, R35); TMO is set iff a poll timed out
(R31); RS, RW, DB_OUT are as the last cycles left them, E is Low, DB_DIR Output (R139), CTL_DIR untouched (R23); STATUS
is Success and SEQ Idle (R28, R36). RDATA is not spoken of. -/
def Effect (s t : State) (polls : List (List Byte)) (last : List Byte) (txns : List Txn) : Prop :=
  (∀ samples ∈ polls, PollShape s.cfg.maxAttempts samples) ∧ polls.getLast? = some last ∧
    t.trace = s.trace ++ pinEvents txns ∧
    t.pollres = pollCode last ∧ t.attempt.toNat = last.length ∧
    t.flags = (if polls.any lastBusy then withTmo s.flags else s.flags) ∧
    (t.rs, t.rw) = linesAfter s.rs s.rw txns ∧ t.dbOut = dbOutAfter s.dbOut txns ∧
    t.e = .low ∧ t.dbDir = .output ∧ t.ctlDir = s.ctlDir ∧
    t.status = codeSuccess ∧ t.seq = .idle ∧ SameSurroundings s t

/-! ### The invariant -/

/-- LCDC's own state is at the values of R43 (R270). -/
def AtResetValues (s : State) : Prop :=
  s.dbOut = 0x00#8 ∧ s.dbDir = .input ∧ s.ctlDir = .input ∧ s.rs = .instruction ∧ s.rw = .write ∧ s.e = .low ∧
    s.cmd = 0x0000#16 ∧ s.status = 0x00#8 ∧ s.pollres = 0x00#8 ∧ s.rdata = 0x00#8 ∧ s.flags = 0x00#8 ∧
    s.attempt = 0#8 ∧ s.seq = .idle

/-- The peer on the bus has its memories in canonical form. -/
def Peer.wf : Peer → Bool
  | .oracle _ => true
  | .reference p => p.wf

/-- What every step keeps: SEQ is Idle; E is Low (R139); once INIT has run both ports are outputs (R22, R74, R278);
the registers hold legal values (R28, R29, R31, R244) and ATTEMPT does not pass MAX_ATTEMPTS (R35); the peer's memories
keep their canonical form. -/
def MachineInvariant (s : State) : Prop :=
  s.seq = .idle ∧ s.e = .low ∧
    (s.initd = true → s.ctlDir = .output ∧ s.dbDir = .output) ∧
    (s.status = codeSuccess ∨ s.status = codeInvalidArgument) ∧
    (s.pollres = 0x00#8 ∨ s.pollres = codeReady ∨ s.pollres = codeTimedOut) ∧
    s.flags &&& 0xFC#8 = 0x00#8 ∧ s.attempt.toNat ≤ s.cfg.maxAttempts ∧ s.peer.wf = true

/-! ### The display -/

/-- The reference peer `p` is on the bus, LCDC drives the control lines, and no poll can time out: the peer is busy for
fewer status reads than the budget has attempts (R92). -/
def Attached (s : State) (p : RefPeer) : Prop :=
  s.peer = .reference p ∧ s.ctlDir = .output ∧ p.busycnt < s.cfg.maxAttempts ∧ p.kBusy < s.cfg.maxAttempts

/-- The reference peer after a poll that found it ready (R82). -/
def RefPeer.settled (p : RefPeer) : RefPeer := { p with bf := false, busycnt := 0 }

/-- What the navigator assumes of the peer and does not check (R228, U10): DDRAM selected, increment, no shift on
write, the 8-bit bus, two lines. -/
def NavigatorReady (p : RefPeer) : Prop :=
  p.ramsel = .ddram ∧ p.id = true ∧ p.s = false ∧ p.dl = true ∧ p.n = true

/-- The addresses of one line, left to right (R66, R75). -/
def DisplayLine.addresses (l : DisplayLine) : List Address :=
  (List.range 20).map fun column => l.first + BitVec.ofNat 7 column

/-- The 80 visible addresses in display order (R66, R227). -/
def displayOrder : List Address :=
  DisplayLine.line1.addresses ++ DisplayLine.line2.addresses ++ DisplayLine.line3.addresses
    ++ DisplayLine.line4.addresses

/-- The `k`-th visible address in display order, counting round (R227). -/
def displayAddress (k : Nat) : Address := displayOrder.getD (k % 80) 0x00#7

/-- An operation whose launch is inside the spec: INIT, or INIT has run, or it touches no pin (R273); and it does not
select the 4-bit bus (R284). -/
def LaunchInSpec (i : Instr) (s : State) : Prop := specRefusal i s = none

/-- The condition under which a claim may rest on the reference peer: no poll has timed out (R281, U5). -/
def DisplayClaimable (s : State) : Prop := s.tmo = false

end Sys2Proof.Machine
end

