-- ==== Sys2Proof/Certificates/Slice0/Obligations.lean ====
section
/-! DEFINITION. The statements for the provers, from the numbered rules of spec/. -/

open Sys2Proof Sys2Proof.Machine

/-! ### Encoding -/

/-- Sanity: words written out from the encodings of R100, R101, R104 decode to what they stand for. -/
def Obligations.SpecWordsDecode : Prop :=
  decode (.hc16 0b0000001000000011#16) = .ok (.entry 0x03#8) ∧
  decode (.hc16 0b0000011101000000#16) = .ok (.setdd 0x40#8) ∧
  decode (.hc16 0b0000100001000001#16) = .ok (.wrdata 0x41#8) ∧
  decode (.hc16 0b0000101000000000#16) = .ok (.rdac 0x00#8) ∧
  decode (.hc16 0b0000110000000000#16) = .ok (.init 0x00#8) ∧
  decode (.hc16 0b0001000001000001#16) = .ok (.putch 0x41#8) ∧
  decode (.bus10 0b0000111000#10) = .ok (.bwFunctionSet 0x18#8) ∧
  decode (.bus10 0b0110010100#10) = .ok (.bwStatusRead true 0x14#7) ∧
  decode (.bus10 0b1001000001#10) = .ok (.bwDataWrite 0x41#8)

/-- No bit of an encoding is dropped: decoding an encoded well-formed instruction gives it back, with every operand. -/
def Obligations.DecodeOfEncodeIsTheInstruction : Prop :=
  ∀ i : Instr, i.wellFormed = true → decode (encode i) = .ok i

/-- Each word has one meaning: the instruction a word decodes to is well-formed and encodes to that word. -/
def Obligations.EncodeOfDecodeIsTheWord : Prop :=
  ∀ (w : CodeWord) (i : Instr), decode w = .ok i → i.wellFormed = true ∧ encode i = w

/-- R103: exactly the op values 0x0D to 0x0F and 0x15 to 0xFF are reserved, and a command word with one, written to
CMD, performs no bus cycle and changes nothing but CMD and STATUS. -/
def Obligations.ReservedOpSetsStatusOnly : Prop :=
  (∀ w : CommandWord, decode (.hc16 w) = .error (.reservedOp (opField w)) ↔
    ((0x0D#8 ≤ opField w ∧ opField w ≤ 0x0F#8) ∨ 0x15#8 ≤ opField w)) ∧
  (∀ w : CommandWord, ¬ ((0x0D#8 ≤ opField w ∧ opField w ≤ 0x0F#8) ∨ 0x15#8 ≤ opField w) →
    ∃ i, decode (.hc16 w) = .ok i) ∧
  ∀ (s : State) (w : CommandWord) (rest : List Input), s.seq = .idle → s.inputs = .write 0 w :: rest →
    ((0x0D#8 ≤ opField w ∧ opField w ≤ 0x0F#8) ∨ 0x15#8 ≤ opField w) →
    step s = .next { s with inputs := rest, cmd := w, status := 0x01#8 }

/-- R166, R117: the encoder answers InvalidSetting iff `settings >= opcode`, otherwise `opcode | settings`, which is
their sum. -/
def Obligations.EncoderRejectsSettingsAtOrAboveOpcode : Prop :=
  ∀ (op : LcdOpcode) (settings : Byte),
    (op.code.toNat ≤ settings.toNat → encodeSettings op settings = none) ∧
    (settings.toNat < op.code.toNat → encodeSettings op settings = some (op.code ||| settings) ∧
      (op.code ||| settings).toNat = op.code.toNat + settings.toNat)

/-- R116: every byte but 0x00 decodes to exactly one of the eight instructions with settings below its opcode, and 0x00
to none. -/
def Obligations.InstructionByteNamesOneInstruction : Prop :=
  decodeLcdByte 0x00#8 = none ∧
  ∀ b : Byte, b ≠ 0x00#8 →
    ∃ op settings, decodeLcdByte b = some (op, settings) ∧ settings.toNat < op.code.toNat ∧
      b = op.code ||| settings ∧
      ∀ op' settings', settings'.toNat < op'.code.toNat → b = op'.code ||| settings' → op' = op ∧ settings' = settings

/-! ### Steps, the host, reset -/

/-- A command word written to CMD while LCDC is idle is latched, and its operation runs (R27); a bus word runs its
cycle. While an operation runs, a step with no reset arriving performs the micro-operation SEQ names (R36), and the host
is blocked: its accesses stay where they are, and CMD and what it last read too (R15, R27, log 11). -/
def Obligations.StepRunsTheDecodedInstruction : Prop :=
  (∀ (s : State) (rest : List Input) (i : Instr), s.seq = .idle → s.launchMode = .hardware →
    (∀ w, s.inputs = .write 0 w :: rest → decode (.hc16 w) = .ok i →
      step s = exec i { s with inputs := rest, cmd := w }) ∧
    (∀ w, s.inputs = .busWord w :: rest → decode (.bus10 w) = .ok i → step s = exec i { s with inputs := rest })) ∧
  ∀ (s : State) (sampled : Byte) (op : MicroOp) (ops : List MicroOp), s.seq = .running sampled op ops →
    (∀ rest, s.inputs ≠ .reset :: rest) →
    step s = .next (perform sampled op ops s) ∧ tick s = perform sampled op ops s ∧
      SameSurroundings s (perform sampled op ops s)

/-- With no input an idle LCDC waits (R45); a host write of registers 1 to 4 is ignored (R26); a host read of registers
0 to 4 returns the register and changes nothing of LCDC (R32); a register number of 5 or above does not exist (R61). -/
def Obligations.HostAccessesWhileIdle : Prop :=
  ∀ (s : State) (rest : List Input) (n : Nat), s.seq = .idle →
    (s.inputs = [] → step s = .next s) ∧
    (∀ v, s.inputs = .write n v :: rest → 1 ≤ n → n ≤ 4 → step s = .next { s with inputs := rest }) ∧
    (∀ v, s.inputs = .write n v :: rest → 5 ≤ n → step s = .fault (.noSuchHostRegister n)) ∧
    (s.inputs = .read n :: rest → 5 ≤ n → step s = .fault (.noSuchHostRegister n)) ∧
    (s.inputs = .read 0 :: rest → step s = .next { s with inputs := rest, hostOut := s.cmd }) ∧
    (s.inputs = .read 1 :: rest → step s = .next { s with inputs := rest, hostOut := s.status.setWidth 16 }) ∧
    (s.inputs = .read 2 :: rest → step s = .next { s with inputs := rest, hostOut := s.pollres.setWidth 16 }) ∧
    (s.inputs = .read 3 :: rest → step s = .next { s with inputs := rest, hostOut := s.rdata.setWidth 16 }) ∧
    (s.inputs = .read 4 :: rest →
      step s = .next { s with inputs := rest, hostOut := (s.flags &&& 0x03#8).setWidth 16 })

/-- In the checked launch mode (log 6, log 7): what R273 and R284 tell a model to refuse is refused, and every other
command runs. -/
def Obligations.CheckedLaunchRefusesWhatTheSpecRefuses : Prop :=
  ∀ (s : State) (w : CommandWord) (rest : List Input) (i : Instr), s.seq = .idle → s.launchMode = .checked →
    s.inputs = .write 0 w :: rest → decode (.hc16 w) = .ok i →
    (s.initd = false → (∀ a, i ≠ .init a) → failsValidation i = false → step s = .refused .launchBeforeInit) ∧
    (∀ arg, s.initd = true → i = .funcset arg → arg.toNat < 0x20 → arg[4] = false →
      step s = .refused .fourBitDataLength) ∧
    ((s.initd = true ∨ (∃ a, i = .init a) ∨ failsValidation i = true) →
      (∀ arg, i = .funcset arg → arg.toNat < 0x20 → arg[4] = true) →
      step s = exec i { s with inputs := rest, cmd := w })

/-- R43, R270: the values LCDC's state has after reset. -/
def Obligations.ResetValues : Prop :=
  State.reset.dbOut = 0x00#8 ∧ State.reset.dbDir = .input ∧ State.reset.ctlDir = .input ∧
  State.reset.rs = .instruction ∧ State.reset.rw = .write ∧ State.reset.e = .low ∧ State.reset.cmd = 0x0000#16 ∧
  State.reset.status = 0x00#8 ∧ State.reset.pollres = 0x00#8 ∧ State.reset.rdata = 0x00#8 ∧
  State.reset.flags = 0x00#8 ∧ State.reset.attempt = 0#8 ∧ State.reset.seq = .idle

/-- R270, R272: a reset that arrives, also while an operation runs, puts LCDC at its reset values with no further pin
event, and leaves the peer as it is; an operation cut short by a reset (log 20) has traced a prefix of its events. -/
def Obligations.ResetAbandonsARunningOperation : Prop :=
  (∀ (s : State) (rest : List Input), s.inputs = .reset :: rest →
    ∃ t, step s = .next t ∧ AtResetValues t ∧ t.trace = s.trace ∧ t.peer = s.peer ∧ t.cfg = s.cfg ∧ t.inputs = rest) ∧
  ∀ (s : State) (w : CommandWord) (n : Nat) (rest : List Input) (i : Instr), s.seq = .idle → s.launchMode = .hardware →
    s.inputs = .writeCutShort w n :: rest → decode (.hc16 w) = .ok i →
    ∃ t u, step s = .next t ∧ exec i { s with inputs := rest, cmd := w } = .next u ∧ AtResetValues t ∧
      s.trace <+: t.trace ∧ t.trace <+: u.trace ∧ t.cfg = s.cfg ∧ t.inputs = rest ∧
      t.peer = (ticks n (beginOperation i { s with inputs := rest, cmd := w })).peer

/-! ### The bus -/

/-- R137: the pin-level trace of a write cycle, its transaction, and the state it leaves; on driven lines the peer takes
`W(reg, b)`. -/
def Obligations.WriteCycleOnThePins : Prop :=
  ∀ (reg : BusRegister) (b : Byte) (s : State),
    writeCycle reg b s =
      { s with
        rs := reg, rw := .write, dbOut := b, e := .low,
        trace := s.trace ++
          [.ctl reg .write, .data b, .wait .settle, .en .high, .wait .enHold, .en .low],
        peer := (writeCycle reg b s).peer, freeCount := (writeCycle reg b s).freeCount } ∧
    transactions [.ctl reg .write, .data b, .wait .settle, .en .high, .wait .enHold, .en .low] = [.write reg b] ∧
    (s.ctlDir = .output → s.dbDir = .output → ∀ p, s.peer = .reference p → p.late = .performed →
      (writeCycle reg b s).peer = peerAfterWrite reg b p)

/-- R138: the pin-level trace of a read cycle and the state it leaves; on driven lines the byte is the peer's. -/
def Obligations.ReadCycleOnThePins : Prop :=
  ∀ (reg : BusRegister) (s : State),
    (readCycle reg s).2 =
      { s with
        rs := reg, rw := .read, e := .low, dbDir := .output,
        trace := s.trace ++
          [.ddir .input, .ctl reg .read, .en .high, .wait .rdSetup, .sample (readCycle reg s).1, .wait .rdHold,
            .en .low, .ddir .output],
        peer := (readCycle reg s).2.peer, freeCount := (readCycle reg s).2.freeCount } ∧
    (s.ctlDir = .output → ∀ b answers, s.peer = .oracle (b :: answers) →
      (readCycle reg s).1 = b ∧ (readCycle reg s).2.peer = .oracle answers)

/-- R70: taking the transactions of a pin-level trace undoes writing them out as cycles; the set-up events of INIT have
no transaction-level form (R205). R294: how long the cycles of a trace take. -/
def Obligations.TransactionsOfPinEvents : Prop :=
  ∀ txns : List Txn,
    transactions (pinEvents txns) = txns ∧ transactions (setupEvents ++ pinEvents txns) = txns ∧
    (∀ reg b, elapsed (pinEvents (.write reg b :: txns)) =
      Delay.settle.nanoseconds + Delay.enHold.nanoseconds + elapsed (pinEvents txns)) ∧
    (∀ reg b, elapsed (pinEvents (.read reg b :: txns)) =
      Delay.rdSetup.nanoseconds + Delay.rdHold.nanoseconds + elapsed (pinEvents txns))

/-- R140: every pin-level trace an instruction produces passes the checker and consists of whole cycles; a bus word
alone is asked for R137's driven data lines, a polled operation and INIT see to them. An operation that a reset cuts
short (R270) passes as far as it goes. -/
def Obligations.PinTracesPassTheChecker : Prop :=
  (∀ (i : Instr) (s t : State), (∀ w, encode i = .bus10 w → s.dbDir = .output) → exec i s = .next t →
    ∃ evs, t.trace = s.trace ++ evs ∧ wholeCycles s.dbDir t.dbDir evs) ∧
  ∀ (s t : State) (w : CommandWord) (n : Nat) (rest : List Input), s.seq = .idle →
    s.inputs = .writeCutShort w n :: rest → step s = .next t →
    ∃ evs, t.trace = s.trace ++ evs ∧ cyclesSoFar s.dbDir evs

/-- R16, R157: no instruction produces more events than BKSP at its longest or INIT at its longest; with the counts of
R230, at most 54 x MAX_ATTEMPTS + 49. -/
def Obligations.EventsPerInstructionAreBounded : Prop :=
  ∀ (i : Instr) (s t : State), exec i s = .next t →
    t.trace.length ≤ s.trace.length + (54 * s.cfg.maxAttempts + 49)

/-- R295: the delays of INIT decrease and each is longer than every steady-state delay. -/
def Obligations.DelayOrder : Prop :=
  Delay.init1.nanoseconds > Delay.init2.nanoseconds ∧ Delay.init2.nanoseconds > Delay.init3.nanoseconds ∧
  (∀ d i : Delay, (d = .pollGap ∨ d = .settle ∨ d = .enHold ∨ d = .rdSetup ∨ d = .rdHold) →
    (i = .init1 ∨ i = .init2 ∨ i = .init3) → d.nanoseconds < i.nanoseconds)

/-! ### The poller -/

/-- R153: with a peer whose status reads return busy bytes and then a ready one within the budget, the poll reads them
all, delays between them, and returns Ready with the last; with MAX_ATTEMPTS busy bytes it returns TimedOut with the
last, sets TMO, and a TIMEOUT event ends its trace. -/
def Obligations.PollReturnsAtFirstReadyOrBudget : Prop :=
  ∀ (s : State) (busy rest : List Byte) (b : Byte), s.ctlDir = .output → (∀ x ∈ busy, busyBit x = true) →
    s.peer = .oracle (busy ++ b :: rest) →
    (busyBit b = false → busy.length < s.cfg.maxAttempts →
      pollUntilReady s =
        ⟨.ready, b,
          { s with
            attempt := BitVec.ofNat 8 (busy.length + 1), pollres := 0x02#8, dbDir := .output, rs := .instruction,
            rw := .read, e := .low, peer := .oracle rest,
            trace := s.trace ++ pinEvents (statusReads (busy ++ [b])) }⟩) ∧
    (busyBit b = true → busy.length + 1 = s.cfg.maxAttempts →
      pollUntilReady s =
        ⟨.timedOut, b,
          { s with
            attempt := BitVec.ofNat 8 s.cfg.maxAttempts, pollres := 0x04#8, flags := s.flags ||| 0x01#8,
            dbDir := .output, rs := .instruction, rw := .read, e := .low, peer := .oracle rest,
            trace := s.trace ++ pinEvents (statusReads (busy ++ [b])) ++ [.timeout] }⟩)

/-- R152, R157: whatever the peer answers, a poll makes 1 to MAX_ATTEMPTS status reads, all but the last busy, and ends
TimedOut only after MAX_ATTEMPTS of them; it changes nothing of LCDC but ATTEMPT, POLLRES, TMO, the lines and the
trace. -/
def Obligations.PollOfAnyPeer : Prop :=
  ∀ s : State, ∃ samples, PollShape s.cfg.maxAttempts samples ∧
    (pollUntilReady s).sampled = lastSample samples ∧
    ((pollUntilReady s).result = .timedOut ↔ lastBusy samples = true) ∧
    (pollUntilReady s).state =
      { s with
        attempt := BitVec.ofNat 8 samples.length, pollres := pollCode samples,
        flags := if lastBusy samples then withTmo s.flags else s.flags,
        dbDir := .output, rs := .instruction, rw := .read, e := .low,
        trace := s.trace ++ pinEvents (pollTxns samples),
        peer := (pollUntilReady s).state.peer, freeCount := (pollUntilReady s).state.freeCount }

/-! ### What each operation does to LCDC, whatever the peer answers: result, trace and frame -/

/-- WAITBUSY (R155): one poll, nothing else; RDATA is not written. RDAC (R156): one poll, and RDATA is the address in
its last sample, bit 7 zero, also after a timeout. -/
def Obligations.WaitbusyAndRdacPoll : Prop :=
  ∀ (arg : Byte) (s : State),
    (∃ t p, exec (.waitbusy arg) s = .next t ∧ Effect s t [p] p (pollTxns p) ∧ t.rdata = s.rdata) ∧
    (∃ t p, exec (.rdac arg) s = .next t ∧ Effect s t [p] p (pollTxns p) ∧ t.rdata = lastSample p &&& 0x7F#8)

/-- CLEAR and HOME (R170, R171): a poll, then the write of exactly 0x01 or 0x02, whatever arg is. -/
def Obligations.ClearAndHomeIssue : Prop :=
  ∀ (arg : Byte) (s : State),
    (∃ t p, exec (.clear arg) s = .next t ∧ Effect s t [p] p (pollTxns p ++ [Txn.write .instruction 0x01#8]) ∧
      t.rdata = s.rdata) ∧
    (∃ t p, exec (.home arg) s = .next t ∧ Effect s t [p] p (pollTxns p ++ [Txn.write .instruction 0x02#8]) ∧
      t.rdata = s.rdata)

/-- R169: the six validating operations. Settings below the opcode: a poll, then exactly one write, of `opcode | arg`,
and Success also after a timeout. Settings at or above it: STATUS is InvalidArgument and nothing else changes. -/
def Obligations.SettingsAreValidatedThenIssued : Prop :=
  ∀ (i : Instr) (op : LcdOpcode) (arg : Byte) (s : State),
    (i, op) ∈ [(Instr.entry arg, LcdOpcode.entryModeSet), (.dispctl arg, .displayControl),
      (.shift arg, .cursorDisplayShift), (.funcset arg, .functionSet), (.setcg arg, .setCgramAddress),
      (.setdd arg, .setDdramAddress)] →
    (arg.toNat < op.code.toNat →
      ∃ t p, exec i s = .next t ∧
        Effect s t [p] p (pollTxns p ++ [Txn.write .instruction (op.code ||| arg)]) ∧ t.rdata = s.rdata) ∧
    (op.code.toNat ≤ arg.toNat → exec i s = .next { s with status := 0x01#8, seq := .idle })

/-- R168, R169, R192, R193: with settings below its opcode, each LCD instruction of the host is a poll and then its bus
word, WRDATA is a poll and then its bus word, and RDDATA is a poll and then the data read, whose byte RDATA receives;
beyond these only STATUS is written. With the statements about the bus words this gives what each does to the reference
peer. WAITBUSY and RDAC are the poll alone (R155, R156), and RDATA the address in its last sample. -/
def Obligations.HostInstructionIsAPollAndItsBusWord : Prop :=
  (∀ (arg : Byte) (i word : Instr) (s : State),
    (i, word) ∈ [(Instr.clear arg, Instr.bwClearDisplay), (.home arg, .bwReturnHome),
      (.entry arg, .bwEntryModeSet arg), (.dispctl arg, .bwDisplayControl arg),
      (.shift arg, .bwCursorDisplayShift arg), (.funcset arg, .bwFunctionSet arg), (.setcg arg, .bwSetCgramAddress arg),
      (.setdd arg, .bwSetDdramAddress arg), (.wrdata arg, .bwDataWrite arg)] →
    word.wellFormed = true →
    ∃ u, exec word (pollUntilReady s).state = .next u ∧ exec i s = .next { u with status := 0x00#8, seq := .idle }) ∧
  ∀ (arg b : Byte) (s : State),
    (∃ u d, exec (.bwDataRead b) (pollUntilReady s).state = .next u ∧
      u.trace = (pollUntilReady s).state.trace ++ Txn.events (.read .data d) ∧
      exec (.rddata arg) s = .next { u with rdata := d, status := 0x00#8, seq := .idle }) ∧
    exec (.waitbusy arg) s = .next { (pollUntilReady s).state with status := 0x00#8, seq := .idle } ∧
    exec (.rdac arg) s = .next
      { (pollUntilReady s).state with
        rdata := (pollUntilReady s).sampled &&& 0x7F#8, status := 0x00#8, seq := .idle }

/-- R241: the six validating operations with settings at or above their opcode end with STATUS InvalidArgument and
change nothing else; the offending word stays in CMD. -/
def Obligations.InvalidSettingsChangeOnlyStatus : Prop :=
  ∀ (s : State) (rest : List Input) (op arg : Byte) (threshold : Nat),
    (op, threshold) ∈ [(0x02#8, 0x04), (0x03#8, 0x08), (0x04#8, 0x10), (0x05#8, 0x20), (0x06#8, 0x40), (0x07#8, 0x80)] →
    threshold ≤ arg.toNat → s.seq = .idle → s.inputs = .write 0 (commandWord op arg) :: rest →
    step s = .next { s with inputs := rest, cmd := commandWord op arg, status := 0x01#8 }

/-- WRDATA (R192, R195): a poll, then exactly one data write of arg. RDDATA (R193, R195): a poll, then exactly one data
read, whose byte RDATA receives whole. -/
def Obligations.RawDataTransfers : Prop :=
  ∀ (arg : Byte) (s : State),
    (∃ t p, exec (.wrdata arg) s = .next t ∧ Effect s t [p] p (pollTxns p ++ [Txn.write .data arg]) ∧
      t.rdata = s.rdata) ∧
    (∃ t p d, exec (.rddata arg) s = .next t ∧ Effect s t [p] p (pollTxns p ++ [Txn.read .data d]) ∧ t.rdata = d)

/-- INIT (R200, R205, R206): the set-up events, three unpolled writes of 0x30 each after its delay, then four polls each
followed by its write, in this order; both ports output, INITD set, TMO as it was or set; RDATA not written. -/
def Obligations.InitSequence : Prop :=
  ∀ (arg : Byte) (s : State), ∃ (t : State) (p1 p2 p3 p4 : List Byte), exec (.init arg) s = .next t ∧
    (∀ p ∈ [p1, p2, p3, p4], PollShape s.cfg.maxAttempts p) ∧
    t.trace = s.trace ++ setupEvents ++ pinEvents
      ([Txn.wait .init1, .write .instruction 0x30#8, .wait .init2, .write .instruction 0x30#8, .wait .init3,
          .write .instruction 0x30#8]
        ++ pollTxns p1 ++ [Txn.write .instruction 0x38#8] ++ pollTxns p2 ++ [Txn.write .instruction 0x08#8]
        ++ pollTxns p3 ++ [Txn.write .instruction 0x01#8] ++ pollTxns p4 ++ [Txn.write .instruction 0x06#8]) ∧
    t.e = .low ∧ t.ctlDir = .output ∧ t.dbDir = .output ∧ t.rs = .instruction ∧ t.rw = .write ∧ t.dbOut = 0x06#8 ∧
    t.flags = (if [p1, p2, p3, p4].any lastBusy then withTmo s.flags else s.flags) ||| 0x02#8 ∧
    t.status = 0x00#8 ∧ t.pollres = pollCode p4 ∧ t.attempt.toNat = p4.length ∧ t.seq = .idle ∧
    t.rdata = s.rdata ∧ SameSurroundings s t

/-- PUTCH (R222): the data write, the address read, and a corrective SETDD iff the table of R216 has the address read. -/
def Obligations.PutchSequence : Prop :=
  ∀ (arg : Byte) (s : State), ∃ t p q r, exec (.putch arg) s = .next t ∧ t.rdata = lastSample q &&& 0x7F#8 ∧
    (∀ target, (addressOf (lastSample q), target) ∈ [(0x14#7, 0xC0#8), (0x40#7, 0xD4#8), (0x54#7, 0x94#8)] →
      Effect s t [p, q, r] r
        (pollTxns p ++ [Txn.write .data arg] ++ pollTxns q ++ pollTxns r ++ [Txn.write .instruction target])) ∧
    (addressOf (lastSample q) ∉ [0x14#7, 0x40#7, 0x54#7] →
      Effect s t [p, q] q (pollTxns p ++ [Txn.write .data arg] ++ pollTxns q))

/-- BKSP (R223): Decrement; the address read; SETDD to the previous line's end at a line begin, else the left shift; the
blank; the right shift; Increment. Six polls and five writes, always. -/
def Obligations.BkspSequence : Prop :=
  ∀ (arg : Byte) (s : State), ∃ (t : State) (p1 p2 p3 p4 p5 p6 : List Byte) (moved : Byte),
    exec (.bksp arg) s = .next t ∧
    Effect s t [p1, p2, p3, p4, p5, p6] p6
      (pollTxns p1 ++ [Txn.write .instruction 0x04#8] ++ pollTxns p2 ++ pollTxns p3 ++ [Txn.write .instruction moved]
        ++ pollTxns p4 ++ [Txn.write .data s.cfg.blank] ++ pollTxns p5 ++ [Txn.write .instruction 0x14#8]
        ++ pollTxns p6 ++ [Txn.write .instruction 0x06#8]) ∧
    t.rdata = lastSample p2 &&& 0x7F#8 ∧
    (∀ a m, (a, m) ∈ [(0x40#7, 0x93#8), (0x14#7, 0xD3#8), (0x54#7, 0xA7#8), (0x00#7, 0xE7#8)] →
      addressOf (lastSample p2) = a → moved = m) ∧
    (addressOf (lastSample p2) ∉ [0x40#7, 0x14#7, 0x54#7, 0x00#7] → moved = 0x10#8)

/-- ENTER (R224): the address read, then SETDD to the begin of the next line in display order; at an address in no line
nothing is written. -/
def Obligations.EnterSequence : Prop :=
  ∀ (arg : Byte) (s : State), ∃ t p q, exec (.enter arg) s = .next t ∧ t.rdata = lastSample p &&& 0x7F#8 ∧
    (∀ l target, (l, target) ∈ [(DisplayLine.line1, 0xC0#8), (.line2, 0x94#8), (.line3, 0xD4#8), (.line4, 0x80#8)] →
      l.first ≤ addressOf (lastSample p) → addressOf (lastSample p) ≤ l.last →
      Effect s t [p, q] q (pollTxns p ++ pollTxns q ++ [Txn.write .instruction target])) ∧
    ((∀ l : DisplayLine, ¬ (l.first ≤ addressOf (lastSample p) ∧ addressOf (lastSample p) ≤ l.last)) →
      Effect s t [p] p (pollTxns p))

/-- CURLEFT and CURRIGHT (R225, R226): the address read, then one write: the SETDD of the table of R214 or R213 where it
has the address, else the left or right shift. -/
def Obligations.CursorSequences : Prop :=
  ∀ (arg : Byte) (s : State),
    (∃ t p q moved, exec (.curleft arg) s = .next t ∧ t.rdata = lastSample p &&& 0x7F#8 ∧
      Effect s t [p, q] q (pollTxns p ++ pollTxns q ++ [Txn.write .instruction moved]) ∧
      (∀ a m, (a, m) ∈ [(0x40#7, 0x93#8), (0x14#7, 0xD3#8), (0x54#7, 0xA7#8), (0x00#7, 0xE7#8)] →
        addressOf (lastSample p) = a → moved = m) ∧
      (addressOf (lastSample p) ∉ [0x40#7, 0x14#7, 0x54#7, 0x00#7] → moved = 0x10#8)) ∧
    (∃ t p q moved, exec (.curright arg) s = .next t ∧ t.rdata = lastSample p &&& 0x7F#8 ∧
      Effect s t [p, q] q (pollTxns p ++ pollTxns q ++ [Txn.write .instruction moved]) ∧
      (∀ a m, (a, m) ∈ [(0x13#7, 0xC0#8), (0x53#7, 0x94#8), (0x27#7, 0xD4#8), (0x67#7, 0x80#8)] →
        addressOf (lastSample p) = a → moved = m) ∧
      (addressOf (lastSample p) ∉ [0x13#7, 0x53#7, 0x27#7, 0x67#7] → moved = 0x14#8))

/-- The eleven bus words (R104), each one whole cycle: the write words send their byte, the read words sample one; no
host register changes. -/
def Obligations.BusWordsAreOneCycle : Prop :=
  (∀ (i : Instr) (reg : BusRegister) (b : Byte) (s : State), encode i = .bus10 (busWord reg .write b) →
    ∃ t, exec i s = .next t ∧
      t = { s with
            rs := reg, rw := .write, e := .low, dbOut := b, trace := s.trace ++ Txn.events (.write reg b),
            peer := t.peer, freeCount := t.freeCount }) ∧
  (∀ (i : Instr) (reg : BusRegister) (b : Byte) (s : State), encode i = .bus10 (busWord reg .read b) →
    ∃ t d, exec i s = .next t ∧
      t = { s with
            rs := reg, rw := .read, e := .low, dbDir := .output, trace := s.trace ++ Txn.events (.read reg d),
            peer := t.peer, freeCount := t.freeCount })

/-- R122: INIT and each composite has the effect of its expansion, run with no other operation in between. -/
def Obligations.CompositesEqualTheirExpansions : Prop :=
  ∀ (arg : Byte) (s : State),
    (∃ t1 t2 t3 t4 t5, t1 = initRaw s ∧ exec (.funcset 0x18#8) t1 = .next t2 ∧ exec (.dispctl 0x00#8) t2 = .next t3 ∧
      exec (.clear 0x00#8) t3 = .next t4 ∧ exec (.entry 0x02#8) t4 = .next t5 ∧
      exec (.init arg) s = .next { t5 with flags := t5.flags ||| 0x02#8 }) ∧
    (∃ t1 t2, exec (.wrdata arg) s = .next t1 ∧ exec (.rdac 0x00#8) t1 = .next t2 ∧
      match postWriteFix (addressOf t2.rdata) with
      | some a => exec (.putch arg) s = exec (.setdd (a.setWidth 8)) t2
      | none => exec (.putch arg) s = .next t2) ∧
    (∃ t1 t2 t3 t4 t5, exec (.entry 0x00#8) s = .next t1 ∧ exec (.rdac 0x00#8) t1 = .next t2 ∧
      exec (match previousAddress (addressOf t2.rdata) with
        | some a => .setdd (a.setWidth 8)
        | none => .shift 0x00#8) t2 = .next t3 ∧
      exec (.wrdata s.cfg.blank) t3 = .next t4 ∧ exec (.shift 0x04#8) t4 = .next t5 ∧
      exec (.bksp arg) s = exec (.entry 0x02#8) t5) ∧
    (∃ t1, exec (.rdac 0x00#8) s = .next t1 ∧
      (match enterTarget (addressOf t1.rdata) with
        | some a => exec (.enter arg) s = exec (.setdd (a.setWidth 8)) t1
        | none => exec (.enter arg) s = .next t1) ∧
      (exec (.curleft arg) s =
        exec (match previousAddress (addressOf t1.rdata) with
          | some a => .setdd (a.setWidth 8)
          | none => .shift 0x00#8) t1) ∧
      exec (.curright arg) s =
        exec (match nextAddress (addressOf t1.rdata) with
          | some a => .setdd (a.setWidth 8)
          | none => .shift 0x04#8) t1)

/-! ### The navigator's tables -/

/-- R213, R214, R216: the three remap tables at every address. -/
def Obligations.RemapTables : Prop :=
  ∀ a : Address,
    nextAddress a = (if a = 0x13#7 then some 0x40#7 else if a = 0x53#7 then some 0x14#7
      else if a = 0x27#7 then some 0x54#7 else if a = 0x67#7 then some 0x00#7 else none) ∧
    previousAddress a = (if a = 0x40#7 then some 0x13#7 else if a = 0x14#7 then some 0x53#7
      else if a = 0x54#7 then some 0x27#7 else if a = 0x00#7 then some 0x67#7 else none) ∧
    postWriteFix a = (if a = 0x14#7 then some 0x40#7 else if a = 0x40#7 then some 0x54#7
      else if a = 0x54#7 then some 0x14#7 else none)

/-- R212, R215: the line of every address, and where ENTER goes from it. -/
def Obligations.LinesAndEnterTargets : Prop :=
  ∀ a : Address,
    lineOf a = (if a ≤ 0x13#7 then some .line1 else if a ≤ 0x27#7 then some .line3 else if a ≤ 0x3F#7 then none
      else if a ≤ 0x53#7 then some .line2 else if a ≤ 0x67#7 then some .line4 else none) ∧
    enterTarget a = (if a ≤ 0x13#7 then some 0x40#7 else if a ≤ 0x27#7 then some 0x54#7 else if a ≤ 0x3F#7 then none
      else if a ≤ 0x53#7 then some 0x14#7 else if a ≤ 0x67#7 then some 0x00#7 else none)

/-- R217: at the four boundary pairs the two tables are inverse, both ways. -/
def Obligations.BoundaryRemapsAreInverse : Prop :=
  (∀ a ∈ [0x13#7, 0x53#7, 0x27#7, 0x67#7], ((nextAddress a).bind previousAddress) = some a) ∧
  (∀ b ∈ [0x40#7, 0x14#7, 0x54#7, 0x00#7], ((previousAddress b).bind nextAddress) = some b)

/-- R218: after the reference peer's increment from a line's end, the correction is where the next line begins; from
0x67 the peer is there already. -/
def Obligations.PostWriteFixFollowsTheIncrement : Prop :=
  (∀ a ∈ [0x13#7, 0x53#7, 0x27#7], postWriteFix (addressStep .ddram true a) = nextAddress a) ∧
  some (addressStep .ddram true 0x67#7) = nextAddress 0x67#7 ∧ postWriteFix (addressStep .ddram true 0x67#7) = none

/-! ### The reference peer -/

/-- R83: the steps of the address counter, with R232's inverse at every visible address in DDRAM and at every address
in CGRAM (log 26). R285, log 22: the reference peer takes them in two-line mode, in CGRAM, and, if it is one that steps
by the table in one-line mode too, always. -/
def Obligations.AddressSteps : Prop :=
  (∀ a : Address,
    addressStep .ddram true a = (if a = 0x27#7 then 0x40#7 else if a = 0x67#7 then 0x00#7
      else BitVec.ofNat 7 ((a.toNat + 1) % 128)) ∧
    addressStep .ddram false a = (if a = 0x40#7 then 0x27#7 else if a = 0x00#7 then 0x67#7
      else BitVec.ofNat 7 ((a.toNat + 127) % 128)) ∧
    (∀ up, (addressStep .cgram up a).toNat =
      64 * (a.toNat / 64) + (a.toNat + if up then 1 else 63) % 64) ∧
    (lineOf a ≠ none → addressStep .ddram true (addressStep .ddram false a) = a ∧
      addressStep .ddram false (addressStep .ddram true a) = a) ∧
    addressStep .cgram true (addressStep .cgram false a) = a ∧
    addressStep .cgram false (addressStep .cgram true a) = a) ∧
  ∀ (p : RefPeer) (up : Bool), p.n = true ∨ p.ramsel = .cgram ∨ p.oneLine = .byTable →
    p.stepped up = addressStep p.ramsel up p.ac

/-- R82, R85: on driven lines a status read of the reference peer returns its busy bit and address counter and counts one
busy read down; a data read returns the cell, steps the address and makes it busy.
A step in one-line mode is as log 22 says. -/
def Obligations.ReferencePeerReads : Prop :=
  ∀ (s : State) (p : RefPeer) (busy : Bool) (a : Address) (b : Byte), s.peer = .reference p → s.ctlDir = .output →
    (∃ t, exec (.bwStatusRead busy a) s = .next t ∧
      t.trace = s.trace ++ Txn.events (.read .instruction (statusByte (decide (0 < p.busycnt)) p.ac)) ∧
      t.peer = .reference { p with bf := decide (0 < p.busycnt), busycnt := p.busycnt - 1 }) ∧
    (p.late = .performed → ∃ t, exec (.bwDataRead b) s = .next t ∧
      t.trace = s.trace ++ Txn.events (.read .data
        (match p.ramsel with
          | .ddram => Memory.read p.ddram p.ac.toNat
          | .cgram => Memory.read p.cgram (p.ac.toNat % 64))) ∧
      t.peer = .reference { p with ac := p.stepped p.id, busycnt := p.kBusy })

/-- R84: on driven lines a data write to the reference peer stores the byte in the cell the address counter points at
and in no other, steps the address, shifts the display the other way if S is set in DDRAM, and makes the peer busy.
A step in one-line mode is as log 22 says. -/
def Obligations.ReferencePeerDataWrite : Prop :=
  ∀ (s : State) (p : RefPeer) (b : Byte), s.peer = .reference p → s.ctlDir = .output → s.dbDir = .output →
    p.late = .performed → p.wf = true →
    ∃ t q, exec (.bwDataWrite b) s = .next t ∧ t.peer = .reference q ∧ q.wf = true ∧
      q.ac = p.stepped p.id ∧ q.busycnt = p.kBusy ∧
      q.sh = (if p.s ∧ p.ramsel = .ddram then (if p.id then p.sh - 1 else p.sh + 1) else p.sh) ∧
      (∀ x, Memory.read q.ddram x = if p.ramsel = .ddram ∧ x = p.ac.toNat then b else Memory.read p.ddram x) ∧
      (∀ x, Memory.read q.cgram x = if p.ramsel = .cgram ∧ x = p.ac.toNat % 64 then b else Memory.read p.cgram x) ∧
      q = { p with ac := q.ac, busycnt := q.busycnt, sh := q.sh, ddram := q.ddram, cgram := q.cgram }

/-- R87, R88, R89, R91: on driven lines what clear-display, return-home, entry-mode, display-control, function-set with
the 8-bit length, set-CGRAM-address and set-DDRAM-address do to the reference peer, and nothing else. -/
def Obligations.ReferencePeerInstructions : Prop :=
  ∀ (s : State) (p : RefPeer), s.peer = .reference p → s.ctlDir = .output → s.dbDir = .output → p.late = .performed →
    (∃ t, exec .bwClearDisplay s = .next t ∧ t.peer = .reference
      { p with ddram := [], ac := 0x00#7, ramsel := .ddram, id := true, sh := 0, busycnt := p.kBusy }) ∧
    (∃ t, exec .bwReturnHome s = .next t ∧ t.peer = .reference
      { p with ac := 0x00#7, ramsel := .ddram, sh := 0, busycnt := p.kBusy }) ∧
    (∀ x y : Bool, ∃ t, exec (.bwEntryModeSet (0#6 ++ BitVec.ofBool x ++ BitVec.ofBool y)) s = .next t ∧
      t.peer = .reference { p with id := x, s := y, busycnt := p.kBusy }) ∧
    (∀ x y z : Bool,
      ∃ t, exec (.bwDisplayControl (0#5 ++ BitVec.ofBool x ++ BitVec.ofBool y ++ BitVec.ofBool z)) s = .next t ∧
      t.peer = .reference { p with d := x, c := y, b := z, busycnt := p.kBusy }) ∧
    (∀ (y z : Bool) (low : BitVec 2),
      ∃ t, exec (.bwFunctionSet (0#3 ++ 1#1 ++ BitVec.ofBool y ++ BitVec.ofBool z ++ low)) s = .next t ∧
      t.peer = .reference { p with dl := true, n := y, f := z, busycnt := p.kBusy }) ∧
    (∀ a : BitVec 6, ∃ t, exec (.bwSetCgramAddress (0#2 ++ a)) s = .next t ∧
      t.peer = .reference { p with ramsel := .cgram, ac := 0#1 ++ a, busycnt := p.kBusy }) ∧
    (∀ a : BitVec 7, ∃ t, exec (.bwSetDdramAddress (0#1 ++ a)) s = .next t ∧
      t.peer = .reference { p with ramsel := .ddram, ac := a, busycnt := p.kBusy })

/-- R90: on driven lines a cursor move steps the address counter of the reference peer and changes nothing else; a
display shift moves the display and leaves the address counter; the two low bits do not matter.
A step in one-line mode is as log 22 says. -/
def Obligations.ReferencePeerShift : Prop :=
  ∀ (s : State) (p : RefPeer) (right : Bool) (low : BitVec 2), s.peer = .reference p → s.ctlDir = .output →
    s.dbDir = .output → p.late = .performed →
    (∃ t, exec (.bwCursorDisplayShift (0#4 ++ 0#1 ++ BitVec.ofBool right ++ low)) s = .next t ∧
      t.peer = .reference { p with ac := p.stepped right, busycnt := p.kBusy }) ∧
    (∃ t, exec (.bwCursorDisplayShift (0#4 ++ 1#1 ++ BitVec.ofBool right ++ low)) s = .next t ∧
      t.peer = .reference { p with sh := if right then p.sh + 1 else p.sh - 1, busycnt := p.kBusy })

/-- The model's choice (log 7): from a function-set with the data-length flag clear on, any byte can answer; LCDC's own
side of it is as R175 says. -/
def Obligations.FourBitBusLeavesTheReferencePeer : Prop :=
  ∀ (s : State) (p : RefPeer) (arg : Byte), Attached s p → arg.toNat < 0x20 → arg[4] = false →
    ∃ t, exec (.funcset arg) s = .next t ∧ t.peer = .oracle [] ∧ t.status = 0x00#8 ∧ t.dbOut = 0x20#8 ||| arg

/-- R281, U5 (log 8): after a poll that timed out, the peer performs the cycle of an LCD instruction, of WRDATA or of
RDDATA, or ignores it; LCDC sends it in both cases, and a performed read gives RDATA the peer's cell. The peer of R92
performs it. -/
def Obligations.LateCycleIsPerformedOrIgnored : Prop :=
  ∀ (s : State) (p q : RefPeer) (arg : Byte), s.peer = .reference p → s.ctlDir = .output →
    s.cfg.maxAttempts ≤ p.busycnt → q = { p with bf := true, busycnt := p.busycnt - s.cfg.maxAttempts } →
    (∀ (i : Instr) (reg : BusRegister) (b : Byte),
      (i, reg, b) ∈ [(Instr.clear arg, BusRegister.instruction, 0x01#8), (.home arg, .instruction, 0x02#8),
        (.entry arg, .instruction, 0x04#8 ||| arg), (.dispctl arg, .instruction, 0x08#8 ||| arg),
        (.shift arg, .instruction, 0x10#8 ||| arg), (.funcset arg, .instruction, 0x20#8 ||| arg),
        (.setcg arg, .instruction, 0x40#8 ||| arg), (.setdd arg, .instruction, 0x80#8 ||| arg),
        (.wrdata arg, .data, arg)] →
      failsValidation i = false →
      ∃ t, exec i s = .next t ∧ t.status = 0x00#8 ∧ t.pollres = 0x04#8 ∧ t.tmo = true ∧ t.dbOut = b ∧ t.rs = reg ∧
        t.rw = .write ∧ (t.peer = .reference q ∨ t.peer = peerAfterWrite reg b q) ∧
        (p.late = .performed → t.peer = peerAfterWrite reg b q)) ∧
    ∃ t, exec (.rddata arg) s = .next t ∧ t.status = 0x00#8 ∧ t.pollres = 0x04#8 ∧ t.tmo = true ∧ t.rs = .data ∧
      t.rw = .read ∧ (t.peer = .reference q ∨ t.rdata = q.cell ∧ t.peer = .reference q.afterDataRead) ∧
      (p.late = .performed → t.rdata = q.cell ∧ t.peer = .reference q.afterDataRead)

/-! ### The peer's memories -/

/-- Two memories in canonical form that read the same everywhere are the same data. -/
def Obligations.CanonicalMemoriesAreEqualData : Prop :=
  ∀ (size : Nat) (m m' : Memory), Memory.wf size m = true → Memory.wf size m' = true →
    (∀ x, Memory.read m x = Memory.read m' x) → m = m'

/-- The frame on the peer's memories: on driven lines an instruction that makes neither a data write nor a
clear-display leaves every byte of DDRAM and CGRAM as it was, whatever polls time out. -/
def Obligations.NonStoringInstructionsKeepEveryByte : Prop :=
  ∀ (s t : State) (p : RefPeer) (i : Instr), s.peer = .reference p → s.ctlDir = .output →
    (match i with
      | .clear _ | .init _ | .wrdata _ | .putch _ | .bksp _ | .bwClearDisplay | .bwDataWrite _ => False
      | .funcset arg | .bwFunctionSet arg => arg[4] = true
      | _ => i.wellFormed = true) →
    s.dbDir = .output → exec i s = .next t →
    ∃ q, t.peer = .reference q ∧ (∀ x, Memory.read q.ddram x = Memory.read p.ddram x) ∧
      ∀ x, Memory.read q.cgram x = Memory.read p.cgram x

/-- The frame of WRDATA and PUTCH on the peer's memories: with the reference peer attached and canonical, the one byte
stored is in the cell its address counter points at; every other byte of both RAMs is as it was. -/
def Obligations.CharacterWritesStoreOneByte : Prop :=
  ∀ (s t : State) (p : RefPeer) (i : Instr) (b : Byte), Attached s p → p.wf = true → i = .wrdata b ∨ i = .putch b →
    exec i s = .next t →
    ∃ q, t.peer = .reference q ∧
      (∀ x, Memory.read q.ddram x = if p.ramsel = .ddram ∧ x = p.ac.toNat then b else Memory.read p.ddram x) ∧
      ∀ x, Memory.read q.cgram x = if p.ramsel = .cgram ∧ x = p.ac.toNat % 64 then b else Memory.read p.cgram x

/-- R87, R170: with the reference peer attached, CLEAR leaves every DDRAM cell reading 0x20 and every CGRAM cell as it
was, DDRAM selected at address 0, increment mode, no display shift; nothing else of the peer changes but that it has
been polled and is busy. -/
def Obligations.ClearBlanksTheDisplay : Prop :=
  ∀ (s : State) (p : RefPeer) (arg : Byte), Attached s p →
    ∃ t q, exec (.clear arg) s = .next t ∧ t.peer = .reference q ∧
      (∀ x, Memory.read q.ddram x = 0x20#8) ∧ (∀ x, Memory.read q.cgram x = Memory.read p.cgram x) ∧
      q = { p with
            bf := false, ac := 0x00#7, ramsel := .ddram, id := true, sh := 0, ddram := q.ddram, busycnt := p.kBusy }

/-- R192, R193, R65: a byte written at a DDRAM or CGRAM address that was set reads back from it. -/
def Obligations.WrittenByteReadsBack : Prop :=
  ∀ (s : State) (p : RefPeer) (a b : Byte) (set : Instr), Attached s p → p.wf = true →
    ((set = .setdd a ∧ a.toNat < 0x80) ∨ (set = .setcg a ∧ a.toNat < 0x40)) →
    ∃ t1 t2 t3 t4, exec set s = .next t1 ∧ exec (.wrdata b) t1 = .next t2 ∧ exec set t2 = .next t3 ∧
      exec (.rddata 0x00#8) t3 = .next t4 ∧ t4.rdata = b ∧ t4.status = 0x00#8

/-! ### The display -/

/-- R204: from any state of the reference peer, INIT leaves it in 8-bit two-line mode, display off, DDRAM blank and
selected, address 0, increment without shift, CGRAM as it was, and LCDC as R204 lists. -/
def Obligations.InitBringsThePeerUp : Prop :=
  ∀ (s : State) (p : RefPeer) (arg : Byte), s.peer = .reference p → p.late = .performed → s.e = .low →
    p.kBusy < s.cfg.maxAttempts →
    ∃ t, exec (.init arg) s = .next t ∧
      t.peer = .reference
        { p with
          bf := false, ac := 0x00#7, ramsel := .ddram, id := true, s := false, d := false, c := false, b := false,
          dl := true, n := true, f := false, sh := 0, ddram := [], busycnt := p.kBusy } ∧
      t.e = .low ∧ t.ctlDir = .output ∧ t.dbDir = .output ∧ t.rs = .instruction ∧ t.rw = .write ∧ t.dbOut = 0x06#8 ∧
      t.flags = s.flags ||| 0x02#8 ∧ t.status = 0x00#8 ∧ t.pollres = 0x02#8

/-- R222, R227: with the navigator's assumptions met, PUTCH at the k-th place of display order stores its character there
and leaves the cursor at the next place, round from the last to the first, by a corrective SETDD at the 20th, 40th and
60th place alone; nothing else of the peer changes but that it has been polled. -/
def Obligations.PutchWalksTheDisplayOrder : Prop :=
  ∀ (s : State) (p : RefPeer) (c : Byte) (k : Nat), Attached s p → NavigatorReady p → p.ac = displayAddress k →
    ∃ t, exec (.putch c) s = .next t ∧
      t.peer = .reference
        { p with
          ddram := Memory.write p.ddram (displayAddress k).toNat c, ac := displayAddress (k + 1), bf := false,
          busycnt := if k % 80 = 19 ∨ k % 80 = 39 ∨ k % 80 = 59 then p.kBusy else 0 }

/-- R223, R231, R232: BKSP at the place after the k-th of display order, the peer in two-line mode (R228, U10), blanks
the k-th and leaves the cursor on it, in increment mode without shift, whatever the entry mode was. At any address of
either RAM (R282, R283), the peer stepping by R83's table: the blank goes where the SETDD of the table of R214 or the
left shift leads, in DDRAM after a SETDD, and the cursor ends a step down and a step up from there, which is there but
at the addresses in no line (log 26). -/
def Obligations.BkspStepsBackAndBlanks : Prop :=
  ∀ (s : State) (p : RefPeer) (arg : Byte), Attached s p →
    (∀ k, p.ramsel = .ddram → p.n = true → p.ac = displayAddress (k + 1) →
      ∃ t q, exec (.bksp arg) s = .next t ∧ t.peer = .reference q ∧ q.ac = displayAddress k ∧ q.ramsel = .ddram ∧
        q.id = true ∧ q.s = false ∧ q.sh = p.sh ∧ q.ddram = Memory.write p.ddram (displayAddress k).toNat s.cfg.blank ∧
        q.cgram = p.cgram) ∧
    (p.n = true ∨ p.oneLine = .byTable →
      ∀ (ram : RamSelect) (a : Address),
        (ram, a) = (match previousAddress p.ac with
          | some begin => (RamSelect.ddram, begin)
          | none => (p.ramsel, addressStep p.ramsel false p.ac)) →
        ∃ t q, exec (.bksp arg) s = .next t ∧ t.peer = .reference q ∧ q.ramsel = ram ∧
          q.ac = addressStep ram true (addressStep ram false a) ∧ q.id = true ∧ q.s = false ∧ q.sh = p.sh ∧
          q.ddram = (if ram = .ddram then Memory.write p.ddram a.toNat s.cfg.blank else p.ddram) ∧
          q.cgram = if ram = .cgram then Memory.write p.cgram (a.toNat % 64) s.cfg.blank else p.cgram)

/-- R225, R226, R227: with the peer in two-line mode and DDRAM selected (R228, U10), CURRIGHT takes the cursor from the
k-th place of display order to the next, CURLEFT from the next to the k-th, round both ways; no RAM changes. -/
def Obligations.CursorMovesAlongTheDisplayOrder : Prop :=
  ∀ (s : State) (p : RefPeer) (arg : Byte) (k : Nat), Attached s p → p.ramsel = .ddram → p.n = true →
    (p.ac = displayAddress k →
      ∃ t, exec (.curright arg) s = .next t ∧
        t.peer = .reference { p with ac := displayAddress (k + 1), bf := false, busycnt := p.kBusy }) ∧
    (p.ac = displayAddress (k + 1) →
      ∃ t, exec (.curleft arg) s = .next t ∧
        t.peer = .reference { p with ac := displayAddress k, bf := false, busycnt := p.kBusy })

/-- R215, R224: with the peer in two-line mode and DDRAM selected (R228, U10), ENTER anywhere on a line takes the cursor
to the begin of the line below in display order; at an address in no line it stays. -/
def Obligations.EnterGoesToTheLineBelow : Prop :=
  ∀ (s : State) (p : RefPeer) (arg : Byte), Attached s p → p.ramsel = .ddram → p.n = true →
    (∀ l : DisplayLine, p.ac ∈ l.addresses →
      ∃ t, exec (.enter arg) s = .next t ∧
        t.peer = .reference { p with ac := l.below.first, bf := false, busycnt := p.kBusy }) ∧
    ((∀ l : DisplayLine, p.ac ∉ l.addresses) →
      ∃ t, exec (.enter arg) s = .next t ∧ t.peer = .reference { p with bf := false, busycnt := 0 })

/-! ### The whole machine -/

/-- The invariant holds right after reset. -/
def Obligations.InvariantAtReset : Prop := MachineInvariant State.reset

/-- Every step keeps the invariant: SEQ Idle, E Low, the ports output once INIT has run, the registers at legal values,
the peer's memories canonical. -/
def Obligations.EveryStepKeepsTheInvariant : Prop :=
  ∀ s t : State, MachineInvariant s → step s = .next t → MachineInvariant t

/-- R16, R240, R246: every instruction completes from every state, with no fault and no refusal. -/
def Obligations.EveryInstructionCompletes : Prop :=
  ∀ (i : Instr) (s : State), ∃ t, exec i s = .next t

/-- R31: TMO and INITD, once set, stay set through every step that takes no reset. -/
def Obligations.FlagsAreSticky : Prop :=
  ∀ s t : State, (∀ rest, s.inputs ≠ .reset :: rest) → (∀ w n rest, s.inputs ≠ .writeCutShort w n :: rest) →
    step s = .next t → (s.tmo = true → t.tmo = true) ∧ (s.initd = true → t.initd = true)

/-- R23, R26, R30: only INIT writes CTL_DIR and INITD; only RDDATA, RDAC and the composites write RDATA; no instruction
writes CMD. -/
def Obligations.OnlyTheNamedOperationsWrite : Prop :=
  ∀ (i : Instr) (s t : State), exec i s = .next t →
    ((∀ a, i ≠ .init a) → t.ctlDir = s.ctlDir ∧ t.initd = s.initd) ∧
    ((match i with
        | .rddata _ | .rdac _ | .putch _ | .bksp _ | .enter _ | .curleft _ | .curright _ => False
        | _ => True) → t.rdata = s.rdata) ∧
    t.cmd = s.cmd ∧ SameSurroundings s t

/-- R71: LCDC's behaviour depends on the peer only through the bytes sampled: from two states that differ only in the
peer and the free values, an instruction whose reads sample the same bytes ends in states that differ only in them. -/
def Obligations.OnlySamplesReachLcdc : Prop :=
  ∀ (i : Instr) (s s' t t' : State) (evs evs' : List Event),
    s' = { s with peer := s'.peer, freeCount := s'.freeCount } → exec i s = .next t → exec i s' = .next t' →
    t.trace = s.trace ++ evs → t'.trace = s'.trace ++ evs' →
    (evs.filterMap fun ev => match ev with | .sample b => some b | _ => none)
      = (evs'.filterMap fun ev => match ev with | .sample b => some b | _ => none) →
    t' = { t with peer := t'.peer, freeCount := t'.freeCount }

/-- R36: performing an operation one micro-operation at a time, from Idle to Idle, ends in the state its meaning gives,
and passes through no Idle state on the way. -/
def Obligations.SequencerRunsEveryOperationToItsMeaning : Prop :=
  ∀ (i : Instr) (s : State), s.seq = .idle →
    ∃ n t, exec i s = .next t ∧ ticks n (beginOperation i s) = t ∧ t.seq = .idle ∧
      ∀ m < n, (ticks m (beginOperation i s)).seq ≠ .idle
end

