-- ==== Sys2Proof/Laws/State.lean ====
section
/-! SUPPORT. What each update of the state does to each of its fields; no later proof unfolds an update. -/

namespace Sys2Proof.Machine

/-! ### emit -/

@[simp] theorem emit_dbOut (ev : Event) (s : State) : (emit ev s).dbOut = s.dbOut := rfl
@[simp] theorem emit_dbDir (ev : Event) (s : State) : (emit ev s).dbDir = s.dbDir := rfl
@[simp] theorem emit_ctlDir (ev : Event) (s : State) : (emit ev s).ctlDir = s.ctlDir := rfl
@[simp] theorem emit_rs (ev : Event) (s : State) : (emit ev s).rs = s.rs := rfl
@[simp] theorem emit_rw (ev : Event) (s : State) : (emit ev s).rw = s.rw := rfl
@[simp] theorem emit_e (ev : Event) (s : State) : (emit ev s).e = s.e := rfl
@[simp] theorem emit_cmd (ev : Event) (s : State) : (emit ev s).cmd = s.cmd := rfl
@[simp] theorem emit_status (ev : Event) (s : State) : (emit ev s).status = s.status := rfl
@[simp] theorem emit_pollres (ev : Event) (s : State) : (emit ev s).pollres = s.pollres := rfl
@[simp] theorem emit_rdata (ev : Event) (s : State) : (emit ev s).rdata = s.rdata := rfl
@[simp] theorem emit_flags (ev : Event) (s : State) : (emit ev s).flags = s.flags := rfl
@[simp] theorem emit_attempt (ev : Event) (s : State) : (emit ev s).attempt = s.attempt := rfl
@[simp] theorem emit_seq (ev : Event) (s : State) : (emit ev s).seq = s.seq := rfl
@[simp] theorem emit_cfg (ev : Event) (s : State) : (emit ev s).cfg = s.cfg := rfl
@[simp] theorem emit_peer (ev : Event) (s : State) : (emit ev s).peer = s.peer := rfl
@[simp] theorem emit_inputs (ev : Event) (s : State) : (emit ev s).inputs = s.inputs := rfl
@[simp] theorem emit_hostOut (ev : Event) (s : State) : (emit ev s).hostOut = s.hostOut := rfl
@[simp] theorem emit_trace (ev : Event) (s : State) : (emit ev s).trace = s.trace ++ [ev] := rfl
@[simp] theorem emit_freeCount (ev : Event) (s : State) : (emit ev s).freeCount = s.freeCount := rfl
@[simp] theorem emit_launchMode (ev : Event) (s : State) : (emit ev s).launchMode = s.launchMode := rfl

/-! ### delay -/

@[simp] theorem delay_dbOut (d : Delay) (s : State) : (delay d s).dbOut = s.dbOut := rfl
@[simp] theorem delay_dbDir (d : Delay) (s : State) : (delay d s).dbDir = s.dbDir := rfl
@[simp] theorem delay_ctlDir (d : Delay) (s : State) : (delay d s).ctlDir = s.ctlDir := rfl
@[simp] theorem delay_rs (d : Delay) (s : State) : (delay d s).rs = s.rs := rfl
@[simp] theorem delay_rw (d : Delay) (s : State) : (delay d s).rw = s.rw := rfl
@[simp] theorem delay_e (d : Delay) (s : State) : (delay d s).e = s.e := rfl
@[simp] theorem delay_cmd (d : Delay) (s : State) : (delay d s).cmd = s.cmd := rfl
@[simp] theorem delay_status (d : Delay) (s : State) : (delay d s).status = s.status := rfl
@[simp] theorem delay_pollres (d : Delay) (s : State) : (delay d s).pollres = s.pollres := rfl
@[simp] theorem delay_rdata (d : Delay) (s : State) : (delay d s).rdata = s.rdata := rfl
@[simp] theorem delay_flags (d : Delay) (s : State) : (delay d s).flags = s.flags := rfl
@[simp] theorem delay_attempt (d : Delay) (s : State) : (delay d s).attempt = s.attempt := rfl
@[simp] theorem delay_seq (d : Delay) (s : State) : (delay d s).seq = s.seq := rfl
@[simp] theorem delay_cfg (d : Delay) (s : State) : (delay d s).cfg = s.cfg := rfl
@[simp] theorem delay_peer (d : Delay) (s : State) : (delay d s).peer = s.peer := rfl
@[simp] theorem delay_inputs (d : Delay) (s : State) : (delay d s).inputs = s.inputs := rfl
@[simp] theorem delay_hostOut (d : Delay) (s : State) : (delay d s).hostOut = s.hostOut := rfl
@[simp] theorem delay_trace (d : Delay) (s : State) : (delay d s).trace = s.trace ++ [.wait d] := rfl
@[simp] theorem delay_freeCount (d : Delay) (s : State) : (delay d s).freeCount = s.freeCount := rfl
@[simp] theorem delay_launchMode (d : Delay) (s : State) : (delay d s).launchMode = s.launchMode := rfl

/-! ### countFree -/

@[simp] theorem countFree_dbOut (s : State) : (countFree s).dbOut = s.dbOut := rfl
@[simp] theorem countFree_dbDir (s : State) : (countFree s).dbDir = s.dbDir := rfl
@[simp] theorem countFree_ctlDir (s : State) : (countFree s).ctlDir = s.ctlDir := rfl
@[simp] theorem countFree_rs (s : State) : (countFree s).rs = s.rs := rfl
@[simp] theorem countFree_rw (s : State) : (countFree s).rw = s.rw := rfl
@[simp] theorem countFree_e (s : State) : (countFree s).e = s.e := rfl
@[simp] theorem countFree_cmd (s : State) : (countFree s).cmd = s.cmd := rfl
@[simp] theorem countFree_status (s : State) : (countFree s).status = s.status := rfl
@[simp] theorem countFree_pollres (s : State) : (countFree s).pollres = s.pollres := rfl
@[simp] theorem countFree_rdata (s : State) : (countFree s).rdata = s.rdata := rfl
@[simp] theorem countFree_flags (s : State) : (countFree s).flags = s.flags := rfl
@[simp] theorem countFree_attempt (s : State) : (countFree s).attempt = s.attempt := rfl
@[simp] theorem countFree_seq (s : State) : (countFree s).seq = s.seq := rfl
@[simp] theorem countFree_cfg (s : State) : (countFree s).cfg = s.cfg := rfl
@[simp] theorem countFree_peer (s : State) : (countFree s).peer = s.peer := rfl
@[simp] theorem countFree_inputs (s : State) : (countFree s).inputs = s.inputs := rfl
@[simp] theorem countFree_hostOut (s : State) : (countFree s).hostOut = s.hostOut := rfl
@[simp] theorem countFree_trace (s : State) : (countFree s).trace = s.trace := rfl
@[simp] theorem countFree_freeCount (s : State) : (countFree s).freeCount = s.freeCount + 1 := rfl
@[simp] theorem countFree_launchMode (s : State) : (countFree s).launchMode = s.launchMode := rfl

/-! ### setDataLines -/

@[simp] theorem setDataLines_dbOut (b : Byte) (s : State) : (setDataLines b s).dbOut = b := rfl
@[simp] theorem setDataLines_dbDir (b : Byte) (s : State) : (setDataLines b s).dbDir = s.dbDir := rfl
@[simp] theorem setDataLines_ctlDir (b : Byte) (s : State) : (setDataLines b s).ctlDir = s.ctlDir := rfl
@[simp] theorem setDataLines_rs (b : Byte) (s : State) : (setDataLines b s).rs = s.rs := rfl
@[simp] theorem setDataLines_rw (b : Byte) (s : State) : (setDataLines b s).rw = s.rw := rfl
@[simp] theorem setDataLines_e (b : Byte) (s : State) : (setDataLines b s).e = s.e := rfl
@[simp] theorem setDataLines_cmd (b : Byte) (s : State) : (setDataLines b s).cmd = s.cmd := rfl
@[simp] theorem setDataLines_status (b : Byte) (s : State) : (setDataLines b s).status = s.status := rfl
@[simp] theorem setDataLines_pollres (b : Byte) (s : State) : (setDataLines b s).pollres = s.pollres := rfl
@[simp] theorem setDataLines_rdata (b : Byte) (s : State) : (setDataLines b s).rdata = s.rdata := rfl
@[simp] theorem setDataLines_flags (b : Byte) (s : State) : (setDataLines b s).flags = s.flags := rfl
@[simp] theorem setDataLines_attempt (b : Byte) (s : State) : (setDataLines b s).attempt = s.attempt := rfl
@[simp] theorem setDataLines_seq (b : Byte) (s : State) : (setDataLines b s).seq = s.seq := rfl
@[simp] theorem setDataLines_cfg (b : Byte) (s : State) : (setDataLines b s).cfg = s.cfg := rfl
@[simp] theorem setDataLines_peer (b : Byte) (s : State) : (setDataLines b s).peer = s.peer := rfl
@[simp] theorem setDataLines_inputs (b : Byte) (s : State) : (setDataLines b s).inputs = s.inputs := rfl
@[simp] theorem setDataLines_hostOut (b : Byte) (s : State) : (setDataLines b s).hostOut = s.hostOut := rfl
@[simp] theorem setDataLines_trace (b : Byte) (s : State) : (setDataLines b s).trace = s.trace ++ [.data b] := rfl
@[simp] theorem setDataLines_freeCount (b : Byte) (s : State) : (setDataLines b s).freeCount = s.freeCount := rfl
@[simp] theorem setDataLines_launchMode (b : Byte) (s : State) : (setDataLines b s).launchMode = s.launchMode := rfl

/-! ### setControlLines -/

@[simp] theorem setControlLines_dbOut (rs : BusRegister) (rw : Transfer) (s : State) : (setControlLines rs rw s).dbOut = s.dbOut := rfl
@[simp] theorem setControlLines_dbDir (rs : BusRegister) (rw : Transfer) (s : State) : (setControlLines rs rw s).dbDir = s.dbDir := rfl
@[simp] theorem setControlLines_ctlDir (rs : BusRegister) (rw : Transfer) (s : State) : (setControlLines rs rw s).ctlDir = s.ctlDir := rfl
@[simp] theorem setControlLines_rs (rs : BusRegister) (rw : Transfer) (s : State) : (setControlLines rs rw s).rs = rs := rfl
@[simp] theorem setControlLines_rw (rs : BusRegister) (rw : Transfer) (s : State) : (setControlLines rs rw s).rw = rw := rfl
@[simp] theorem setControlLines_e (rs : BusRegister) (rw : Transfer) (s : State) : (setControlLines rs rw s).e = s.e := rfl
@[simp] theorem setControlLines_cmd (rs : BusRegister) (rw : Transfer) (s : State) : (setControlLines rs rw s).cmd = s.cmd := rfl
@[simp] theorem setControlLines_status (rs : BusRegister) (rw : Transfer) (s : State) : (setControlLines rs rw s).status = s.status := rfl
@[simp] theorem setControlLines_pollres (rs : BusRegister) (rw : Transfer) (s : State) : (setControlLines rs rw s).pollres = s.pollres := rfl
@[simp] theorem setControlLines_rdata (rs : BusRegister) (rw : Transfer) (s : State) : (setControlLines rs rw s).rdata = s.rdata := rfl
@[simp] theorem setControlLines_flags (rs : BusRegister) (rw : Transfer) (s : State) : (setControlLines rs rw s).flags = s.flags := rfl
@[simp] theorem setControlLines_attempt (rs : BusRegister) (rw : Transfer) (s : State) : (setControlLines rs rw s).attempt = s.attempt := rfl
@[simp] theorem setControlLines_seq (rs : BusRegister) (rw : Transfer) (s : State) : (setControlLines rs rw s).seq = s.seq := rfl
@[simp] theorem setControlLines_cfg (rs : BusRegister) (rw : Transfer) (s : State) : (setControlLines rs rw s).cfg = s.cfg := rfl
@[simp] theorem setControlLines_peer (rs : BusRegister) (rw : Transfer) (s : State) : (setControlLines rs rw s).peer = s.peer := rfl
@[simp] theorem setControlLines_inputs (rs : BusRegister) (rw : Transfer) (s : State) : (setControlLines rs rw s).inputs = s.inputs := rfl
@[simp] theorem setControlLines_hostOut (rs : BusRegister) (rw : Transfer) (s : State) : (setControlLines rs rw s).hostOut = s.hostOut := rfl
@[simp] theorem setControlLines_trace (rs : BusRegister) (rw : Transfer) (s : State) : (setControlLines rs rw s).trace = s.trace ++ [.ctl rs rw] := rfl
@[simp] theorem setControlLines_freeCount (rs : BusRegister) (rw : Transfer) (s : State) : (setControlLines rs rw s).freeCount = s.freeCount := rfl
@[simp] theorem setControlLines_launchMode (rs : BusRegister) (rw : Transfer) (s : State) : (setControlLines rs rw s).launchMode = s.launchMode := rfl

/-! ### setDataDirection -/

@[simp] theorem setDataDirection_dbOut (d : Direction) (s : State) : (setDataDirection d s).dbOut = s.dbOut := rfl
@[simp] theorem setDataDirection_dbDir (d : Direction) (s : State) : (setDataDirection d s).dbDir = d := rfl
@[simp] theorem setDataDirection_ctlDir (d : Direction) (s : State) : (setDataDirection d s).ctlDir = s.ctlDir := rfl
@[simp] theorem setDataDirection_rs (d : Direction) (s : State) : (setDataDirection d s).rs = s.rs := rfl
@[simp] theorem setDataDirection_rw (d : Direction) (s : State) : (setDataDirection d s).rw = s.rw := rfl
@[simp] theorem setDataDirection_e (d : Direction) (s : State) : (setDataDirection d s).e = s.e := rfl
@[simp] theorem setDataDirection_cmd (d : Direction) (s : State) : (setDataDirection d s).cmd = s.cmd := rfl
@[simp] theorem setDataDirection_status (d : Direction) (s : State) : (setDataDirection d s).status = s.status := rfl
@[simp] theorem setDataDirection_pollres (d : Direction) (s : State) : (setDataDirection d s).pollres = s.pollres := rfl
@[simp] theorem setDataDirection_rdata (d : Direction) (s : State) : (setDataDirection d s).rdata = s.rdata := rfl
@[simp] theorem setDataDirection_flags (d : Direction) (s : State) : (setDataDirection d s).flags = s.flags := rfl
@[simp] theorem setDataDirection_attempt (d : Direction) (s : State) : (setDataDirection d s).attempt = s.attempt := rfl
@[simp] theorem setDataDirection_seq (d : Direction) (s : State) : (setDataDirection d s).seq = s.seq := rfl
@[simp] theorem setDataDirection_cfg (d : Direction) (s : State) : (setDataDirection d s).cfg = s.cfg := rfl
@[simp] theorem setDataDirection_peer (d : Direction) (s : State) : (setDataDirection d s).peer = s.peer := rfl
@[simp] theorem setDataDirection_inputs (d : Direction) (s : State) : (setDataDirection d s).inputs = s.inputs := rfl
@[simp] theorem setDataDirection_hostOut (d : Direction) (s : State) : (setDataDirection d s).hostOut = s.hostOut := rfl
@[simp] theorem setDataDirection_trace (d : Direction) (s : State) : (setDataDirection d s).trace = s.trace ++ [.ddir d] := rfl
@[simp] theorem setDataDirection_freeCount (d : Direction) (s : State) : (setDataDirection d s).freeCount = s.freeCount := rfl
@[simp] theorem setDataDirection_launchMode (d : Direction) (s : State) : (setDataDirection d s).launchMode = s.launchMode := rfl

/-! ### setControlDirection -/

@[simp] theorem setControlDirection_dbOut (d : Direction) (s : State) : (setControlDirection d s).dbOut = s.dbOut := rfl
@[simp] theorem setControlDirection_dbDir (d : Direction) (s : State) : (setControlDirection d s).dbDir = s.dbDir := rfl
@[simp] theorem setControlDirection_ctlDir (d : Direction) (s : State) : (setControlDirection d s).ctlDir = d := rfl
@[simp] theorem setControlDirection_rs (d : Direction) (s : State) : (setControlDirection d s).rs = s.rs := rfl
@[simp] theorem setControlDirection_rw (d : Direction) (s : State) : (setControlDirection d s).rw = s.rw := rfl
@[simp] theorem setControlDirection_e (d : Direction) (s : State) : (setControlDirection d s).e = s.e := rfl
@[simp] theorem setControlDirection_cmd (d : Direction) (s : State) : (setControlDirection d s).cmd = s.cmd := rfl
@[simp] theorem setControlDirection_status (d : Direction) (s : State) : (setControlDirection d s).status = s.status := rfl
@[simp] theorem setControlDirection_pollres (d : Direction) (s : State) : (setControlDirection d s).pollres = s.pollres := rfl
@[simp] theorem setControlDirection_rdata (d : Direction) (s : State) : (setControlDirection d s).rdata = s.rdata := rfl
@[simp] theorem setControlDirection_flags (d : Direction) (s : State) : (setControlDirection d s).flags = s.flags := rfl
@[simp] theorem setControlDirection_attempt (d : Direction) (s : State) : (setControlDirection d s).attempt = s.attempt := rfl
@[simp] theorem setControlDirection_seq (d : Direction) (s : State) : (setControlDirection d s).seq = s.seq := rfl
@[simp] theorem setControlDirection_cfg (d : Direction) (s : State) : (setControlDirection d s).cfg = s.cfg := rfl
@[simp] theorem setControlDirection_peer (d : Direction) (s : State) : (setControlDirection d s).peer = s.peer := rfl
@[simp] theorem setControlDirection_inputs (d : Direction) (s : State) : (setControlDirection d s).inputs = s.inputs := rfl
@[simp] theorem setControlDirection_hostOut (d : Direction) (s : State) : (setControlDirection d s).hostOut = s.hostOut := rfl
@[simp] theorem setControlDirection_trace (d : Direction) (s : State) : (setControlDirection d s).trace = s.trace ++ [.cdir d] := rfl
@[simp] theorem setControlDirection_freeCount (d : Direction) (s : State) : (setControlDirection d s).freeCount = s.freeCount := rfl
@[simp] theorem setControlDirection_launchMode (d : Direction) (s : State) : (setControlDirection d s).launchMode = s.launchMode := rfl

/-! ### startPoll -/

@[simp] theorem startPoll_dbOut (s : State) : (startPoll s).dbOut = s.dbOut := rfl
@[simp] theorem startPoll_dbDir (s : State) : (startPoll s).dbDir = s.dbDir := rfl
@[simp] theorem startPoll_ctlDir (s : State) : (startPoll s).ctlDir = s.ctlDir := rfl
@[simp] theorem startPoll_rs (s : State) : (startPoll s).rs = s.rs := rfl
@[simp] theorem startPoll_rw (s : State) : (startPoll s).rw = s.rw := rfl
@[simp] theorem startPoll_e (s : State) : (startPoll s).e = s.e := rfl
@[simp] theorem startPoll_cmd (s : State) : (startPoll s).cmd = s.cmd := rfl
@[simp] theorem startPoll_status (s : State) : (startPoll s).status = s.status := rfl
@[simp] theorem startPoll_pollres (s : State) : (startPoll s).pollres = s.pollres := rfl
@[simp] theorem startPoll_rdata (s : State) : (startPoll s).rdata = s.rdata := rfl
@[simp] theorem startPoll_flags (s : State) : (startPoll s).flags = s.flags := rfl
@[simp] theorem startPoll_attempt (s : State) : (startPoll s).attempt = 0#8 := rfl
@[simp] theorem startPoll_seq (s : State) : (startPoll s).seq = s.seq := rfl
@[simp] theorem startPoll_cfg (s : State) : (startPoll s).cfg = s.cfg := rfl
@[simp] theorem startPoll_peer (s : State) : (startPoll s).peer = s.peer := rfl
@[simp] theorem startPoll_inputs (s : State) : (startPoll s).inputs = s.inputs := rfl
@[simp] theorem startPoll_hostOut (s : State) : (startPoll s).hostOut = s.hostOut := rfl
@[simp] theorem startPoll_trace (s : State) : (startPoll s).trace = s.trace := rfl
@[simp] theorem startPoll_freeCount (s : State) : (startPoll s).freeCount = s.freeCount := rfl
@[simp] theorem startPoll_launchMode (s : State) : (startPoll s).launchMode = s.launchMode := rfl

/-! ### countAttempt -/

@[simp] theorem countAttempt_dbOut (s : State) : (countAttempt s).dbOut = s.dbOut := rfl
@[simp] theorem countAttempt_dbDir (s : State) : (countAttempt s).dbDir = s.dbDir := rfl
@[simp] theorem countAttempt_ctlDir (s : State) : (countAttempt s).ctlDir = s.ctlDir := rfl
@[simp] theorem countAttempt_rs (s : State) : (countAttempt s).rs = s.rs := rfl
@[simp] theorem countAttempt_rw (s : State) : (countAttempt s).rw = s.rw := rfl
@[simp] theorem countAttempt_e (s : State) : (countAttempt s).e = s.e := rfl
@[simp] theorem countAttempt_cmd (s : State) : (countAttempt s).cmd = s.cmd := rfl
@[simp] theorem countAttempt_status (s : State) : (countAttempt s).status = s.status := rfl
@[simp] theorem countAttempt_pollres (s : State) : (countAttempt s).pollres = s.pollres := rfl
@[simp] theorem countAttempt_rdata (s : State) : (countAttempt s).rdata = s.rdata := rfl
@[simp] theorem countAttempt_flags (s : State) : (countAttempt s).flags = s.flags := rfl
@[simp] theorem countAttempt_attempt (s : State) : (countAttempt s).attempt = s.attempt + 1#8 := rfl
@[simp] theorem countAttempt_seq (s : State) : (countAttempt s).seq = s.seq := rfl
@[simp] theorem countAttempt_cfg (s : State) : (countAttempt s).cfg = s.cfg := rfl
@[simp] theorem countAttempt_peer (s : State) : (countAttempt s).peer = s.peer := rfl
@[simp] theorem countAttempt_inputs (s : State) : (countAttempt s).inputs = s.inputs := rfl
@[simp] theorem countAttempt_hostOut (s : State) : (countAttempt s).hostOut = s.hostOut := rfl
@[simp] theorem countAttempt_trace (s : State) : (countAttempt s).trace = s.trace := rfl
@[simp] theorem countAttempt_freeCount (s : State) : (countAttempt s).freeCount = s.freeCount := rfl
@[simp] theorem countAttempt_launchMode (s : State) : (countAttempt s).launchMode = s.launchMode := rfl

/-! ### recordReady -/

@[simp] theorem recordReady_dbOut (s : State) : (recordReady s).dbOut = s.dbOut := rfl
@[simp] theorem recordReady_dbDir (s : State) : (recordReady s).dbDir = s.dbDir := rfl
@[simp] theorem recordReady_ctlDir (s : State) : (recordReady s).ctlDir = s.ctlDir := rfl
@[simp] theorem recordReady_rs (s : State) : (recordReady s).rs = s.rs := rfl
@[simp] theorem recordReady_rw (s : State) : (recordReady s).rw = s.rw := rfl
@[simp] theorem recordReady_e (s : State) : (recordReady s).e = s.e := rfl
@[simp] theorem recordReady_cmd (s : State) : (recordReady s).cmd = s.cmd := rfl
@[simp] theorem recordReady_status (s : State) : (recordReady s).status = s.status := rfl
@[simp] theorem recordReady_pollres (s : State) : (recordReady s).pollres = codeReady := rfl
@[simp] theorem recordReady_rdata (s : State) : (recordReady s).rdata = s.rdata := rfl
@[simp] theorem recordReady_flags (s : State) : (recordReady s).flags = s.flags := rfl
@[simp] theorem recordReady_attempt (s : State) : (recordReady s).attempt = s.attempt := rfl
@[simp] theorem recordReady_seq (s : State) : (recordReady s).seq = s.seq := rfl
@[simp] theorem recordReady_cfg (s : State) : (recordReady s).cfg = s.cfg := rfl
@[simp] theorem recordReady_peer (s : State) : (recordReady s).peer = s.peer := rfl
@[simp] theorem recordReady_inputs (s : State) : (recordReady s).inputs = s.inputs := rfl
@[simp] theorem recordReady_hostOut (s : State) : (recordReady s).hostOut = s.hostOut := rfl
@[simp] theorem recordReady_trace (s : State) : (recordReady s).trace = s.trace := rfl
@[simp] theorem recordReady_freeCount (s : State) : (recordReady s).freeCount = s.freeCount := rfl
@[simp] theorem recordReady_launchMode (s : State) : (recordReady s).launchMode = s.launchMode := rfl

/-! ### recordTimeout -/

@[simp] theorem recordTimeout_dbOut (s : State) : (recordTimeout s).dbOut = s.dbOut := rfl
@[simp] theorem recordTimeout_dbDir (s : State) : (recordTimeout s).dbDir = s.dbDir := rfl
@[simp] theorem recordTimeout_ctlDir (s : State) : (recordTimeout s).ctlDir = s.ctlDir := rfl
@[simp] theorem recordTimeout_rs (s : State) : (recordTimeout s).rs = s.rs := rfl
@[simp] theorem recordTimeout_rw (s : State) : (recordTimeout s).rw = s.rw := rfl
@[simp] theorem recordTimeout_e (s : State) : (recordTimeout s).e = s.e := rfl
@[simp] theorem recordTimeout_cmd (s : State) : (recordTimeout s).cmd = s.cmd := rfl
@[simp] theorem recordTimeout_status (s : State) : (recordTimeout s).status = s.status := rfl
@[simp] theorem recordTimeout_pollres (s : State) : (recordTimeout s).pollres = codeTimedOut := rfl
@[simp] theorem recordTimeout_rdata (s : State) : (recordTimeout s).rdata = s.rdata := rfl
@[simp] theorem recordTimeout_flags (s : State) : (recordTimeout s).flags = withTmo s.flags := rfl
@[simp] theorem recordTimeout_attempt (s : State) : (recordTimeout s).attempt = s.attempt := rfl
@[simp] theorem recordTimeout_seq (s : State) : (recordTimeout s).seq = s.seq := rfl
@[simp] theorem recordTimeout_cfg (s : State) : (recordTimeout s).cfg = s.cfg := rfl
@[simp] theorem recordTimeout_peer (s : State) : (recordTimeout s).peer = s.peer := rfl
@[simp] theorem recordTimeout_inputs (s : State) : (recordTimeout s).inputs = s.inputs := rfl
@[simp] theorem recordTimeout_hostOut (s : State) : (recordTimeout s).hostOut = s.hostOut := rfl
@[simp] theorem recordTimeout_trace (s : State) : (recordTimeout s).trace = s.trace ++ [.timeout] := rfl
@[simp] theorem recordTimeout_freeCount (s : State) : (recordTimeout s).freeCount = s.freeCount := rfl
@[simp] theorem recordTimeout_launchMode (s : State) : (recordTimeout s).launchMode = s.launchMode := rfl

/-! ### recordInitd -/

@[simp] theorem recordInitd_dbOut (s : State) : (recordInitd s).dbOut = s.dbOut := rfl
@[simp] theorem recordInitd_dbDir (s : State) : (recordInitd s).dbDir = s.dbDir := rfl
@[simp] theorem recordInitd_ctlDir (s : State) : (recordInitd s).ctlDir = s.ctlDir := rfl
@[simp] theorem recordInitd_rs (s : State) : (recordInitd s).rs = s.rs := rfl
@[simp] theorem recordInitd_rw (s : State) : (recordInitd s).rw = s.rw := rfl
@[simp] theorem recordInitd_e (s : State) : (recordInitd s).e = s.e := rfl
@[simp] theorem recordInitd_cmd (s : State) : (recordInitd s).cmd = s.cmd := rfl
@[simp] theorem recordInitd_status (s : State) : (recordInitd s).status = s.status := rfl
@[simp] theorem recordInitd_pollres (s : State) : (recordInitd s).pollres = s.pollres := rfl
@[simp] theorem recordInitd_rdata (s : State) : (recordInitd s).rdata = s.rdata := rfl
@[simp] theorem recordInitd_flags (s : State) : (recordInitd s).flags = withInitd s.flags := rfl
@[simp] theorem recordInitd_attempt (s : State) : (recordInitd s).attempt = s.attempt := rfl
@[simp] theorem recordInitd_seq (s : State) : (recordInitd s).seq = s.seq := rfl
@[simp] theorem recordInitd_cfg (s : State) : (recordInitd s).cfg = s.cfg := rfl
@[simp] theorem recordInitd_peer (s : State) : (recordInitd s).peer = s.peer := rfl
@[simp] theorem recordInitd_inputs (s : State) : (recordInitd s).inputs = s.inputs := rfl
@[simp] theorem recordInitd_hostOut (s : State) : (recordInitd s).hostOut = s.hostOut := rfl
@[simp] theorem recordInitd_trace (s : State) : (recordInitd s).trace = s.trace := rfl
@[simp] theorem recordInitd_freeCount (s : State) : (recordInitd s).freeCount = s.freeCount := rfl
@[simp] theorem recordInitd_launchMode (s : State) : (recordInitd s).launchMode = s.launchMode := rfl

/-! ### endOperation -/

@[simp] theorem endOperation_dbOut (code : Byte) (s : State) : (endOperation code s).dbOut = s.dbOut := rfl
@[simp] theorem endOperation_dbDir (code : Byte) (s : State) : (endOperation code s).dbDir = s.dbDir := rfl
@[simp] theorem endOperation_ctlDir (code : Byte) (s : State) : (endOperation code s).ctlDir = s.ctlDir := rfl
@[simp] theorem endOperation_rs (code : Byte) (s : State) : (endOperation code s).rs = s.rs := rfl
@[simp] theorem endOperation_rw (code : Byte) (s : State) : (endOperation code s).rw = s.rw := rfl
@[simp] theorem endOperation_e (code : Byte) (s : State) : (endOperation code s).e = s.e := rfl
@[simp] theorem endOperation_cmd (code : Byte) (s : State) : (endOperation code s).cmd = s.cmd := rfl
@[simp] theorem endOperation_status (code : Byte) (s : State) : (endOperation code s).status = code := rfl
@[simp] theorem endOperation_pollres (code : Byte) (s : State) : (endOperation code s).pollres = s.pollres := rfl
@[simp] theorem endOperation_rdata (code : Byte) (s : State) : (endOperation code s).rdata = s.rdata := rfl
@[simp] theorem endOperation_flags (code : Byte) (s : State) : (endOperation code s).flags = s.flags := rfl
@[simp] theorem endOperation_attempt (code : Byte) (s : State) : (endOperation code s).attempt = s.attempt := rfl
@[simp] theorem endOperation_seq (code : Byte) (s : State) : (endOperation code s).seq = .idle := rfl
@[simp] theorem endOperation_cfg (code : Byte) (s : State) : (endOperation code s).cfg = s.cfg := rfl
@[simp] theorem endOperation_peer (code : Byte) (s : State) : (endOperation code s).peer = s.peer := rfl
@[simp] theorem endOperation_inputs (code : Byte) (s : State) : (endOperation code s).inputs = s.inputs := rfl
@[simp] theorem endOperation_hostOut (code : Byte) (s : State) : (endOperation code s).hostOut = s.hostOut := rfl
@[simp] theorem endOperation_trace (code : Byte) (s : State) : (endOperation code s).trace = s.trace := rfl
@[simp] theorem endOperation_freeCount (code : Byte) (s : State) : (endOperation code s).freeCount = s.freeCount := rfl
@[simp] theorem endOperation_launchMode (code : Byte) (s : State) : (endOperation code s).launchMode = s.launchMode := rfl

end Sys2Proof.Machine
end

