-- ==== Sys2Proof/Laws/Cycles.lean ====
section
/-! SUPPORT. What each operation of Machine/Ops.lean can do, said once: the peer may change and free values may be
taken, everything else is given by an equation. -/

namespace Sys2Proof.Machine

/-! ### The peer and the free values -/

/-- `t` is `s` but for the peer and the free values taken. -/
def PeerOnly (s t : State) : Prop := t = { s with peer := t.peer, freeCount := t.freeCount }

theorem PeerOnly.rfl (s : State) : PeerOnly s s := by unfold PeerOnly; cases s; simp

theorem PeerOnly.mk (s : State) (p : Peer) (n : Nat) : PeerOnly s { s with peer := p, freeCount := n } := by
  unfold PeerOnly; simp

theorem PeerOnly.trans {s t u : State} (h : PeerOnly s t) (k : PeerOnly t u) : PeerOnly s u := by
  unfold PeerOnly at *
  rw [k, h]

theorem takeFreeByte_peerOnly (s : State) : PeerOnly s (takeFreeByte s).2 := PeerOnly.mk s _ _

theorem peerWrite_peerOnly (reg : BusRegister) (b : Byte) (s : State) : PeerOnly s (peerWrite reg b s) := by
  unfold peerWrite
  split
  · exact PeerOnly.rfl s
  · split
    · split
      · exact PeerOnly.mk s _ _
      · exact PeerOnly.mk s _ _
    · exact PeerOnly.mk s _ _

theorem peerRead_peerOnly (reg : BusRegister) (s : State) : PeerOnly s (peerRead reg s).2 := by
  unfold peerRead
  split
  · exact takeFreeByte_peerOnly s
  · exact PeerOnly.mk s _ _
  · split
    · exact PeerOnly.mk s _ _
    · unfold referenceDataRead
      split
      · split
        · exact PeerOnly.mk s _ _
        · exact takeFreeByte_peerOnly s
      · exact PeerOnly.mk s _ _

theorem undrivenCycle_peerOnly (s : State) : PeerOnly s (undrivenCycle s) := by
  unfold undrivenCycle
  split
  · exact PeerOnly.rfl s
  · exact PeerOnly.mk s _ _

theorem enableFalls_peerOnly (s : State) : PeerOnly s (enableFalls s) := by
  unfold enableFalls
  split
  · exact undrivenCycle_peerOnly s
  · split
    · exact PeerOnly.rfl s
    · split
      · exact peerWrite_peerOnly _ _ s
      · exact (takeFreeByte_peerOnly s).trans (peerWrite_peerOnly _ _ _)

theorem dataLinesIn_peerOnly (s : State) : PeerOnly s (dataLinesIn s).2 := by
  unfold dataLinesIn
  split
  · exact peerRead_peerOnly _ s
  · exact takeFreeByte_peerOnly s

/-! ### Enable -/

theorem setEnable_high (s : State) : setEnable .high s = emit (.en .high) { s with e := .high } := by
  unfold setEnable
  cases s.e <;> rfl

theorem setEnable_low_of_high {s : State} (h : s.e = .high) :
    setEnable .low s = enableFalls (emit (.en .low) { s with e := .low }) := by
  unfold setEnable
  rw [h]

theorem setEnable_low_of_low {s : State} (h : s.e = .low) : setEnable .low s = emit (.en .low) { s with e := .low } := by
  unfold setEnable
  rw [h]

/-- Lowering enable: E and the trace, and what the peer makes of it. -/
theorem setEnable_low (s : State) : PeerOnly (emit (.en .low) { s with e := .low }) (setEnable .low s) := by
  cases h : s.e with
  | low => rw [setEnable_low_of_low h]; exact PeerOnly.rfl _
  | high => rw [setEnable_low_of_high h]; exact enableFalls_peerOnly _

/-! ### The write cycle (R137) -/

/-- The state in which the falling edge of a write cycle finds the lines. -/
def writeLatched (reg : BusRegister) (b : Byte) (s : State) : State :=
  { s with rs := reg, rw := .write, dbOut := b, e := .low, trace := s.trace ++ Txn.events (.write reg b) }

theorem writeCycle_eq (reg : BusRegister) (b : Byte) (s : State) :
    writeCycle reg b s = enableFalls (writeLatched reg b s) := by
  unfold writeCycle pulseEnable
  rw [setEnable_high, setEnable_low_of_high (by rfl)]
  simp [writeLatched, emit, delay, setDataLines, setControlLines, Txn.events]

/-- What a write cycle does to LCDC, whatever is on the bus. -/
theorem writeCycle_peerOnly (reg : BusRegister) (b : Byte) (s : State) :
    PeerOnly (writeLatched reg b s) (writeCycle reg b s) := by
  rw [writeCycle_eq]
  exact enableFalls_peerOnly _

/-- On driven lines the peer takes `W(reg, b)`. -/
theorem writeCycle_driven (reg : BusRegister) (b : Byte) {s : State} (hc : s.ctlDir = .output) (hd : s.dbDir = .output) :
    writeCycle reg b s = peerWrite reg b (writeLatched reg b s) := by
  rw [writeCycle_eq]
  simp [enableFalls, writeLatched, hc, hd]

/-! ### The read cycle (R138) -/

/-- The state in which the sample of a read cycle finds the lines. -/
def readSampling (reg : BusRegister) (s : State) : State :=
  { s with
    dbDir := .input, rs := reg, rw := .read, e := .high,
    trace := s.trace ++ [.ddir .input, .ctl reg .read, .en .high, .wait .rdSetup] }

theorem readCycleOpen_eq (reg : BusRegister) (s : State) : readCycleOpen reg s = readSampling reg s := by
  unfold readCycleOpen
  rw [setEnable_high]
  simp [readSampling, emit, delay, setDataDirection, setControlLines]

/-- The state after a read cycle that sampled `b`, but for the peer and the free values. -/
def readDone (reg : BusRegister) (b : Byte) (s : State) : State :=
  { s with
    dbDir := .output, rs := reg, rw := .read, e := .low, trace := s.trace ++ Txn.events (.read reg b) }

/-- What a read cycle does to LCDC, whatever is on the bus. -/
theorem readCycle_peerOnly (reg : BusRegister) (s : State) :
    PeerOnly (readDone reg (readCycle reg s).1 s) (readCycle reg s).2 := by
  unfold readCycle
  rw [readCycleOpen_eq]
  have h1 : PeerOnly (readSampling reg s) (dataLinesIn (readSampling reg s)).2 := dataLinesIn_peerOnly _
  generalize hb : (dataLinesIn (readSampling reg s)).1 = b
  generalize hu : (dataLinesIn (readSampling reg s)).2 = u at h1
  simp only [readDataLines, hb, hu, readCycleClose]
  have h2 := setEnable_low (delay .rdHold (emit (.sample b) u))
  generalize setEnable .low (delay .rdHold (emit (.sample b) u)) = w at h2
  unfold PeerOnly at *
  rw [h2, h1]
  simp [readDone, readSampling, emit, delay, setDataDirection, Txn.events]

/-- On driven control lines the byte sampled is the one the peer drives, and nothing else happens to the peer. -/
theorem readCycle_driven (reg : BusRegister) {s : State} (hc : s.ctlDir = .output) :
    readCycle reg s =
      ((peerRead reg (readSampling reg s)).1,
        readDone reg (peerRead reg (readSampling reg s)).1
          { s with peer := (peerRead reg (readSampling reg s)).2.peer,
                   freeCount := (peerRead reg (readSampling reg s)).2.freeCount }) := by
  unfold readCycle
  rw [readCycleOpen_eq]
  have h1 : PeerOnly (readSampling reg s) (peerRead reg (readSampling reg s)).2 := peerRead_peerOnly _ _
  have h0 : dataLinesIn (readSampling reg s) = peerRead reg (readSampling reg s) := by
    simp [dataLinesIn, readSampling, hc]
  simp only [readDataLines, h0, readCycleClose]
  generalize (peerRead reg (readSampling reg s)).1 = b
  generalize (peerRead reg (readSampling reg s)).2 = u at h1
  unfold PeerOnly at h1
  rw [h1, setEnable_low_of_high (by rfl)]
  simp [enableFalls, readDone, readSampling, emit, delay, setDataDirection, Txn.events, hc]

end Sys2Proof.Machine
end

