-- ==== Sys2Proof/Laws/Poll.lean ====
section
/-! SUPPORT. What a poll does (41_busy_poller R152, R153): whatever the peer answers, with an oracle that answers given
bytes, and with the reference peer. -/

namespace Sys2Proof.Machine

/-! ### The vocabulary of polls -/

@[simp] theorem pinEvents_nil : pinEvents [] = [] := rfl

@[simp] theorem pinEvents_cons (t : Txn) (ts : List Txn) : pinEvents (t :: ts) = t.events ++ pinEvents ts := rfl

@[simp] theorem pinEvents_append (xs ys : List Txn) : pinEvents (xs ++ ys) = pinEvents xs ++ pinEvents ys := by
  simp [pinEvents]

@[simp] theorem lastBusy_singleton (b : Byte) : lastBusy [b] = busyBit b := rfl

@[simp] theorem lastSample_singleton (b : Byte) : lastSample [b] = b := rfl

theorem lastBusy_cons (b : Byte) {samples : List Byte} (h : samples ≠ []) :
    lastBusy (b :: samples) = lastBusy samples := by
  obtain ⟨x, xs, rfl⟩ := List.exists_cons_of_ne_nil h
  simp [lastBusy, List.getLast?_cons_cons]

theorem lastSample_cons (b : Byte) {samples : List Byte} (h : samples ≠ []) :
    lastSample (b :: samples) = lastSample samples := by
  obtain ⟨x, xs, rfl⟩ := List.exists_cons_of_ne_nil h
  simp [lastSample]

theorem lastBusy_eq {samples : List Byte} (h : samples ≠ []) : lastBusy samples = busyBit (lastSample samples) := by
  induction samples with
  | nil => exact absurd rfl h
  | cons b rest ih =>
    cases rest with
    | nil => rfl
    | cons c rest => rw [lastBusy_cons b (by simp), lastSample_cons b (by simp), ih (by simp)]

theorem pollTxns_cons (b : Byte) {samples : List Byte} (h : samples ≠ []) :
    pollTxns (b :: samples) = .read .instruction b :: .wait .pollGap :: pollTxns samples := by
  obtain ⟨x, xs, rfl⟩ := List.exists_cons_of_ne_nil h
  simp [pollTxns, statusReads, lastBusy_cons]

theorem pollCode_cons (b : Byte) {samples : List Byte} (h : samples ≠ []) :
    pollCode (b :: samples) = pollCode samples := by
  simp [pollCode, lastBusy_cons b h]

theorem PollShape.ne_nil {n : Nat} {samples : List Byte} (h : PollShape n samples) : samples ≠ [] := by
  intro hn
  subst hn
  exact absurd h.1 (by decide)

theorem PollShape.cons {n : Nat} {b : Byte} {samples : List Byte} (hb : busyBit b = true) (h : PollShape n samples) :
    PollShape (n + 1) (b :: samples) := by
  have hne := h.ne_nil
  obtain ⟨h1, h2, h3, h4⟩ := h
  refine ⟨by simp, by simpa using h2, ?_, ?_⟩
  · obtain ⟨x, xs, rfl⟩ := List.exists_cons_of_ne_nil hne
    intro y hy
    rcases List.mem_cons.1 hy with rfl | hy
    · exact hb
    · exact h3 y hy
  · rw [lastBusy_cons b hne]
    intro hl
    simp [h4 hl]

theorem PollShape.ready {n : Nat} {b : Byte} (hb : busyBit b = false) : PollShape (n + 1) [b] :=
  ⟨by simp, by simp, by simp, by simp [hb]⟩

theorem PollShape.used_up {b : Byte} : PollShape 1 [b] := ⟨by simp, by simp, by simp, by simp⟩

/-! ### Any peer -/

/-- The state after a poll that sampled these bytes, but for the peer and the free values. -/
def pollDone (samples : List Byte) (s : State) : State :=
  { s with
    attempt := s.attempt + BitVec.ofNat 8 samples.length, pollres := pollCode samples,
    flags := if lastBusy samples then withTmo s.flags else s.flags,
    dbDir := .output, rs := .instruction, rw := .read, e := .low,
    trace := s.trace ++ pinEvents (pollTxns samples) }

/-- The result of a poll that sampled these bytes (R153). -/
def pollVerdict (samples : List Byte) : PollResult := if lastBusy samples then .timedOut else .ready

/-- What an attempt does to LCDC. -/
theorem pollAttempt_peerOnly (s : State) :
    PeerOnly (countAttempt (readDone .instruction (pollAttempt s).1 s)) (pollAttempt s).2 := by
  have h := readCycle_peerOnly .instruction s
  unfold pollAttempt PeerOnly at *
  generalize (readCycle .instruction s).1 = b at h ⊢
  generalize (readCycle .instruction s).2 = t at h ⊢
  dsimp only
  rw [h]
  simp [countAttempt, readDone]

theorem pollLoop_spec (more : Nat) (s : State) :
    ∃ samples, PollShape (more + 1) samples ∧ (pollLoop more s).sampled = lastSample samples ∧
      (pollLoop more s).result = pollVerdict samples ∧ PeerOnly (pollDone samples s) (pollLoop more s).state := by
  induction more generalizing s with
  | zero =>
    have h := pollAttempt_peerOnly s
    unfold pollLoop
    generalize (pollAttempt s).1 = b at h ⊢
    generalize (pollAttempt s).2 = t at h ⊢
    refine ⟨[b], .used_up, ?_⟩
    unfold PeerOnly at h ⊢
    cases hb : busyBit b
    · refine ⟨rfl, by simp [pollVerdict, hb], ?_⟩
      rw [if_neg (by simp)]
      dsimp only
      rw [h]
      simp [recordReady, pollDone, countAttempt, readDone, pollCode, hb, pollTxns, statusReads]
    · refine ⟨rfl, by simp [pollVerdict, hb], ?_⟩
      rw [if_pos rfl]
      dsimp only
      rw [h]
      simp [recordTimeout, emit, pollDone, countAttempt, readDone, pollCode, hb, pollTxns, statusReads, Txn.events]
  | succ more ih =>
    have h := pollAttempt_peerOnly s
    unfold pollLoop
    generalize (pollAttempt s).1 = b at h ⊢
    generalize (pollAttempt s).2 = t at h ⊢
    unfold PeerOnly at h ⊢
    cases hb : busyBit b
    · refine ⟨[b], .ready hb, rfl, by simp [pollVerdict, hb], ?_⟩
      rw [if_neg (by simp)]
      dsimp only
      rw [h]
      simp [recordReady, pollDone, countAttempt, readDone, pollCode, hb, pollTxns, statusReads]
    · obtain ⟨samples, hs, h1, h2, h3⟩ := ih (delay .pollGap t)
      have hne := hs.ne_nil
      refine ⟨b :: samples, hs.cons hb, ?_, ?_, ?_⟩
      · rw [if_pos rfl, h1, lastSample_cons b hne]
      · rw [if_pos rfl, h2, pollVerdict, pollVerdict, lastBusy_cons b hne]
      · rw [if_pos rfl]
        unfold PeerOnly at h3
        rw [h3, h]
        simp [pollDone, delay, emit, countAttempt, readDone, pollCode_cons b hne, lastBusy_cons b hne,
          pollTxns_cons b hne, Txn.events, BitVec.ofNat_add, BitVec.add_assoc, BitVec.add_comm]

/-- What `PollUntilReady` does to LCDC, whatever the peer answers (R152, R153). -/
theorem pollUntilReady_spec (s : State) :
    ∃ samples, PollShape s.cfg.maxAttempts samples ∧ (pollUntilReady s).sampled = lastSample samples ∧
      (pollUntilReady s).result = pollVerdict samples ∧
      PeerOnly (pollDone samples (startPoll s)) (pollUntilReady s).state := by
  have h : s.cfg.maxAttempts - 1 + 1 = s.cfg.maxAttempts := by simp [Config.maxAttempts]
  have := pollLoop_spec (s.cfg.maxAttempts - 1) (startPoll s)
  rw [h] at this
  exact this

theorem pollDone_start_attempt {n : Nat} {samples : List Byte} (s : State) (h : PollShape n samples) (hn : n ≤ 255) :
    (pollDone samples (startPoll s)).attempt.toNat = samples.length := by
  have := h.2.1
  simp [pollDone, startPoll, Nat.mod_eq_of_lt (show samples.length < 256 by omega)]

theorem Config.maxAttempts_le (c : Config) : c.maxAttempts ≤ 255 := by
  have := c.budget.isLt
  simp only [Config.maxAttempts]
  omega

theorem Config.maxAttempts_pos (c : Config) : 1 ≤ c.maxAttempts := by simp [Config.maxAttempts]

/-! ### An oracle that answers given bytes -/

theorem pollAttempt_oracle {s : State} {b : Byte} {rest : List Byte} (hp : s.peer = .oracle (b :: rest))
    (hc : s.ctlDir = .output) :
    pollAttempt s = (b, countAttempt (readDone .instruction b { s with peer := .oracle rest })) := by
  unfold pollAttempt
  rw [readCycle_driven _ hc]
  simp [peerRead, readSampling, hp]

/-- A poll of an oracle whose next answers are these. -/
theorem pollLoop_oracle {more : Nat} {samples : List Byte} (hs : PollShape (more + 1) samples) {s : State}
    {rest : List Byte} (hp : s.peer = .oracle (samples ++ rest)) (hc : s.ctlDir = .output) :
    pollLoop more s =
      ⟨pollVerdict samples, lastSample samples, pollDone samples { s with peer := .oracle rest }⟩ := by
  induction more generalizing s samples with
  | zero =>
    obtain ⟨h1, h2, -, -⟩ := hs
    obtain ⟨b, rfl⟩ : ∃ b, samples = [b] := List.length_eq_one_iff.1 (by omega)
    unfold pollLoop
    rw [pollAttempt_oracle hp hc]
    cases hb : busyBit b <;>
      simp [hb, pollVerdict, pollDone, recordReady, recordTimeout, emit, countAttempt, readDone, pollCode, pollTxns,
        statusReads, Txn.events]
  | succ more ih =>
    obtain ⟨b, tail, rfl⟩ := List.exists_cons_of_ne_nil hs.ne_nil
    unfold pollLoop
    rw [pollAttempt_oracle hp hc]
    cases tail with
    | nil =>
      have hb : busyBit b = false := by
        cases hb : busyBit b with
        | false => rfl
        | true => exact absurd (hs.2.2.2 (by simpa using hb)) (by simp)
      simp [hb, pollVerdict, pollDone, recordReady, countAttempt, readDone, pollCode, pollTxns, statusReads]
    | cons c tail =>
      have hb : busyBit b = true := hs.2.2.1 b (by simp)
      have hs' : PollShape (more + 1) (c :: tail) := by
        refine ⟨by simp, by simpa using hs.2.1, fun x hx => hs.2.2.1 x ?_, fun h => ?_⟩
        · simp only [List.dropLast_cons_cons, List.mem_cons]
          exact Or.inr hx
        · have := hs.2.2.2 (by rw [lastBusy_cons b (by simp)]; exact h)
          simpa using this
      rw [if_pos hb, ih hs' (by simp [readDone]) (by simp [readDone, hc])]
      have hne : c :: tail ≠ [] := by simp
      simp [pollVerdict, pollDone, delay, emit, countAttempt, readDone, pollCode_cons b hne, lastBusy_cons b hne,
        lastSample_cons b hne, pollTxns_cons b hne, Txn.events, BitVec.ofNat_add, BitVec.add_assoc, BitVec.add_comm]

/-- A poll of an oracle whose next answers are these (R153). -/
theorem pollUntilReady_oracle {s : State} {samples rest : List Byte} (hs : PollShape s.cfg.maxAttempts samples)
    (hp : s.peer = .oracle (samples ++ rest)) (hc : s.ctlDir = .output) :
    pollUntilReady s =
      ⟨pollVerdict samples, lastSample samples, pollDone samples (startPoll { s with peer := .oracle rest })⟩ := by
  have h : s.cfg.maxAttempts - 1 + 1 = s.cfg.maxAttempts := by simp [Config.maxAttempts]
  rw [← h] at hs
  unfold pollUntilReady
  rw [pollLoop_oracle hs (s := startPoll s) hp hc]
  rfl

/-! ### The reference peer -/

/-- What a poll samples of a reference peer that will be ready in time: it is busy `busycnt` times, then ready (R82). -/
def readySamples (p : RefPeer) : List Byte :=
  List.replicate p.busycnt (statusByte true p.ac) ++ [statusByte false p.ac]

theorem busyBit_statusByte (busy : Bool) (a : Address) : busyBit (statusByte busy a) = busy := by
  show (BitVec.ofBool busy ++ a : BitVec (1 + 7))[7] = busy
  rw [BitVec.getElem_append]
  simp

theorem addressOf_statusByte (busy : Bool) (a : Address) : addressOf (statusByte busy a) = a := by
  show BitVec.extractLsb' 0 7 (BitVec.ofBool busy ++ a : BitVec (1 + 7)) = a
  ext i hi
  rw [BitVec.getElem_extractLsb', BitVec.getLsbD_append]
  simp [hi]

theorem lastBusy_readySamples (p : RefPeer) : lastBusy (readySamples p) = false := by
  simp [lastBusy, readySamples, busyBit_statusByte]

theorem lastSample_readySamples (p : RefPeer) : lastSample (readySamples p) = statusByte false p.ac := by
  simp [lastSample, readySamples, List.getLastD_eq_getLast?]

theorem readySamples_length (p : RefPeer) : (readySamples p).length = p.busycnt + 1 := by simp [readySamples]

theorem pollAttempt_reference {s : State} {p : RefPeer} (hp : s.peer = .reference p) (hc : s.ctlDir = .output) :
    pollAttempt s =
      (p.statusAnswer, countAttempt (readDone .instruction p.statusAnswer
        { s with peer := .reference p.afterStatusRead })) := by
  unfold pollAttempt
  rw [readCycle_driven _ hc]
  simp [peerRead, readSampling, hp]

theorem pollLoop_reference {more : Nat} {p : RefPeer} (hbusy : p.busycnt < more + 1) {s : State}
    (hp : s.peer = .reference p) (hc : s.ctlDir = .output) :
    pollLoop more s =
      ⟨.ready, statusByte false p.ac, pollDone (readySamples p) { s with peer := .reference p.settled }⟩ := by
  induction more generalizing s p with
  | zero =>
    have h0 : p.busycnt = 0 := by omega
    unfold pollLoop
    rw [pollAttempt_reference hp hc]
    simp [RefPeer.statusAnswer, h0, busyBit_statusByte, readySamples, pollDone, recordReady, countAttempt, readDone,
      pollCode, pollTxns, statusReads, RefPeer.settled, RefPeer.afterStatusRead]
  | succ more ih =>
    unfold pollLoop
    rw [pollAttempt_reference hp hc]
    cases h0 : p.busycnt with
    | zero =>
      simp [RefPeer.statusAnswer, h0, busyBit_statusByte, readySamples, pollDone, recordReady, countAttempt, readDone,
        pollCode, pollTxns, statusReads, RefPeer.settled, RefPeer.afterStatusRead]
    | succ n =>
      have hne : readySamples p.afterStatusRead ≠ [] := by simp [readySamples]
      have hcons : readySamples p = statusByte true p.ac :: readySamples p.afterStatusRead := by
        simp [readySamples, h0, RefPeer.afterStatusRead, List.replicate_succ]
      have hset : p.afterStatusRead.settled = p.settled := by simp [RefPeer.settled, RefPeer.afterStatusRead]
      have hans : p.statusAnswer = statusByte true p.ac := by simp [RefPeer.statusAnswer, h0]
      have hac : p.afterStatusRead.ac = p.ac := by rfl
      rw [if_pos (by simp [hans, busyBit_statusByte]),
        ih (p := p.afterStatusRead) (by simp [RefPeer.afterStatusRead, h0]; omega) (by simp [readDone])
          (by simp [readDone, hc])]
      simp [hcons, hset, hans, hac, pollDone, delay, emit, countAttempt, readDone, pollCode_cons _ hne,
        lastBusy_cons _ hne, pollTxns_cons _ hne, Txn.events, BitVec.ofNat_add, BitVec.add_assoc, BitVec.add_comm]

/-- A poll of a reference peer that is ready in time (R82, R92, R153). -/
theorem pollUntilReady_reference {s : State} {p : RefPeer} (hbusy : p.busycnt < s.cfg.maxAttempts)
    (hp : s.peer = .reference p) (hc : s.ctlDir = .output) :
    pollUntilReady s =
      ⟨.ready, statusByte false p.ac,
        pollDone (readySamples p) (startPoll { s with peer := .reference p.settled })⟩ := by
  have h : s.cfg.maxAttempts - 1 + 1 = s.cfg.maxAttempts := by simp [Config.maxAttempts]
  unfold pollUntilReady
  rw [pollLoop_reference (p := p) (by omega) (s := startPoll s) hp hc]
  rfl

/-- What a poll that times out samples of a reference peer: its busy byte, `attempts` times (R82). -/
def busySamples (attempts : Nat) (p : RefPeer) : List Byte := List.replicate attempts (statusByte true p.ac)

/-- The reference peer after `attempts` status reads that found it busy (R82). -/
def RefPeer.stillBusy (attempts : Nat) (p : RefPeer) : RefPeer :=
  { p with bf := true, busycnt := p.busycnt - attempts }

theorem lastBusy_busySamples (n : Nat) (p : RefPeer) : lastBusy (busySamples (n + 1) p) = true := by
  simp [lastBusy, busySamples, List.getLast?_replicate, busyBit_statusByte]

theorem pollLoop_busy_reference {more : Nat} {p : RefPeer} (hbusy : more + 1 ≤ p.busycnt) {s : State}
    (hp : s.peer = .reference p) (hc : s.ctlDir = .output) :
    pollLoop more s =
      ⟨.timedOut, statusByte true p.ac,
        pollDone (busySamples (more + 1) p) { s with peer := .reference (p.stillBusy (more + 1)) }⟩ := by
  have hans : p.statusAnswer = statusByte true p.ac := by
    simp [RefPeer.statusAnswer, show 0 < p.busycnt by omega]
  have hread : p.afterStatusRead = p.stillBusy 1 := by
    simp [RefPeer.afterStatusRead, RefPeer.stillBusy, show 0 < p.busycnt by omega]
  induction more generalizing s p with
  | zero =>
    unfold pollLoop
    rw [pollAttempt_reference hp hc]
    simp [hans, hread, busyBit_statusByte, busySamples, pollDone, recordTimeout, emit, countAttempt, readDone, pollCode,
      pollTxns, statusReads, Txn.events]
  | succ more ih =>
    unfold pollLoop
    rw [pollAttempt_reference hp hc, if_pos (by simp [hans, busyBit_statusByte])]
    have hb : more + 1 ≤ (p.stillBusy 1).busycnt := by
      simp only [RefPeer.stillBusy]
      omega
    have hpos : 0 < (p.stillBusy 1).busycnt := by omega
    rw [hread, ih hb (by simp [readDone]) (by simp [readDone, hc]) (by simp [RefPeer.statusAnswer, hpos])
      (by simp [RefPeer.afterStatusRead, RefPeer.stillBusy, show 0 < p.busycnt - 1 by simpa [RefPeer.stillBusy] using hpos])]
    have hsame : busySamples (more + 1) (p.stillBusy 1) = busySamples (more + 1) p := rfl
    have hcons : busySamples (more + 1 + 1) p = statusByte true p.ac :: busySamples (more + 1) p := rfl
    have hleft : (p.stillBusy 1).stillBusy (more + 1) = p.stillBusy (more + 1 + 1) := by
      simp only [RefPeer.stillBusy, RefPeer.mk.injEq, true_and, and_true]
      omega
    have hac : (p.stillBusy 1).ac = p.ac := rfl
    have hne : busySamples (more + 1) p ≠ [] := by simp [busySamples]
    simp [hsame, hcons, hleft, hac, hans, pollDone, delay, emit, countAttempt, readDone, pollCode_cons _ hne,
      lastBusy_cons _ hne, pollTxns_cons _ hne, Txn.events, BitVec.ofNat_add, BitVec.add_assoc, BitVec.add_comm]

/-- A poll of a reference peer that stays busy through the whole budget (R92, R153). -/
theorem pollUntilReady_busy_reference {s : State} {p : RefPeer} (hbusy : s.cfg.maxAttempts ≤ p.busycnt)
    (hp : s.peer = .reference p) (hc : s.ctlDir = .output) :
    pollUntilReady s =
      ⟨.timedOut, statusByte true p.ac,
        pollDone (busySamples s.cfg.maxAttempts p)
          (startPoll { s with peer := .reference (p.stillBusy s.cfg.maxAttempts) })⟩ := by
  have h : s.cfg.maxAttempts - 1 + 1 = s.cfg.maxAttempts := by simp [Config.maxAttempts]
  unfold pollUntilReady
  rw [pollLoop_busy_reference (p := p) (by omega) (s := startPoll s) hp hc, h]
  rfl

end Sys2Proof.Machine
end

