-- ==== Sys2Proof/Laws/Operations.lean ====
section
/-! SUPPORT. What the shared operations of the meanings do to LCDC, whatever the peer answers, and what they do with the
reference peer attached. -/

namespace Sys2Proof.Machine

/-! ### Carrying `PeerOnly` through an operation -/

theorem PeerOnly.writeLatched {s t : State} (h : PeerOnly s t) (reg : BusRegister) (b : Byte) :
    PeerOnly (writeLatched reg b s) (writeLatched reg b t) := by
  unfold PeerOnly at *
  rw [h]
  simp [Machine.writeLatched]

theorem PeerOnly.readDone {s t : State} (h : PeerOnly s t) (reg : BusRegister) (b : Byte) :
    PeerOnly (readDone reg b s) (readDone reg b t) := by
  unfold PeerOnly at *
  rw [h]
  simp [Machine.readDone]

theorem PeerOnly.cfg {s t : State} (h : PeerOnly s t) : t.cfg = s.cfg := by
  unfold PeerOnly at h
  rw [h]

theorem PeerOnly.ctlDir {s t : State} (h : PeerOnly s t) : t.ctlDir = s.ctlDir := by
  unfold PeerOnly at h
  rw [h]

/-- The state after a poll that sampled these bytes, from before its start, but for the peer and the free values. -/
def afterPoll (samples : List Byte) (s : State) : State := pollDone samples (startPoll s)

theorem PeerOnly.afterPoll {s t : State} (h : PeerOnly s t) (samples : List Byte) :
    PeerOnly (afterPoll samples s) (afterPoll samples t) := by
  unfold PeerOnly at *
  rw [h]
  simp [Machine.afterPoll, pollDone, startPoll]

/-! ### Any peer -/

theorem poll_afterPoll (s : State) :
    ∃ samples, PollShape s.cfg.maxAttempts samples ∧ (pollUntilReady s).sampled = lastSample samples ∧
      PeerOnly (afterPoll samples s) (pollUntilReady s).state := by
  obtain ⟨samples, h1, h2, -, h3⟩ := pollUntilReady_spec s
  exact ⟨samples, h1, h2, h3⟩

/-- A poll and a write cycle: `IssueInstruction` (R168) and the data write of WRDATA (R192). -/
theorem poll_write_spec (reg : BusRegister) (b : Byte) (s : State) :
    ∃ samples, PollShape s.cfg.maxAttempts samples ∧
      PeerOnly (writeLatched reg b (afterPoll samples s)) (writeCycle reg b (pollUntilReady s).state) := by
  obtain ⟨samples, h1, -, h3⟩ := poll_afterPoll s
  exact ⟨samples, h1, (h3.writeLatched reg b).trans (writeCycle_peerOnly reg b _)⟩

theorem issueInstruction_spec (b : Byte) (s : State) :
    ∃ samples, PollShape s.cfg.maxAttempts samples ∧
      PeerOnly (writeLatched .instruction b (afterPoll samples s)) (issueInstruction b s) :=
  poll_write_spec .instruction b s

theorem writeData_spec (b : Byte) (s : State) :
    ∃ samples, PollShape s.cfg.maxAttempts samples ∧
      PeerOnly (writeLatched .data b (afterPoll samples s)) (writeData b s) :=
  poll_write_spec .data b s

theorem readData_spec (s : State) :
    ∃ samples d, PollShape s.cfg.maxAttempts samples ∧
      PeerOnly { readDone .data d (afterPoll samples s) with rdata := d } (readData s) := by
  obtain ⟨samples, h1, -, h3⟩ := poll_afterPoll s
  refine ⟨samples, (readCycle .data (pollUntilReady s).state).1, h1, ?_⟩
  have h := (h3.readDone .data (readCycle .data (pollUntilReady s).state).1).trans (readCycle_peerOnly .data _)
  unfold readData
  unfold PeerOnly at *
  dsimp only
  rw [h]

theorem readAddress_spec (s : State) :
    ∃ samples, PollShape s.cfg.maxAttempts samples ∧ (readAddress s).1 = addressOf (lastSample samples) ∧
      PeerOnly { afterPoll samples s with rdata := addressByte (addressOf (lastSample samples)) } (readAddress s).2 := by
  obtain ⟨samples, h1, h2, h3⟩ := poll_afterPoll s
  refine ⟨samples, h1, by rw [readAddress, h2], ?_⟩
  unfold readAddress
  unfold PeerOnly at *
  dsimp only
  rw [h2, h3]

/-- The settings used inside INIT and the composites are below their opcode, so every sub-instruction issues (R219). -/
theorem subInstruction_issues {op : LcdOpcode} {settings : Byte} (h : settings.toNat < op.code.toNat) (s : State) :
    subInstruction op settings s = issueInstruction (op.code ||| settings) s := by
  unfold subInstruction encodeSettings
  rw [if_neg (by rw [BitVec.le_def]; omega)]

/-- A remap target is a 7-bit address, so `call SETDD t` issues 0x80 | t (R219). -/
theorem subInstruction_setdd (t : Address) (s : State) :
    subInstruction .setDdramAddress (setddSettings t) s = issueInstruction (0x80#8 ||| setddSettings t) s := by
  apply subInstruction_issues
  have := t.isLt
  simp [setddSettings, addressByte, LcdOpcode.code]
  omega

/-- The byte `branchOn` issues, if it issues one. -/
def branchByte (t : RemapTable) (otherwise : Option Byte) (a : Address) : Option Byte :=
  match remap t a with
  | some target => some (0x80#8 ||| setddSettings target)
  | none => otherwise

theorem branchOn_eq (t : RemapTable) (otherwise : Option Byte) (a : Address) (s : State) :
    branchOn t otherwise a s =
      match branchByte t otherwise a with
      | some b => issueInstruction b s
      | none => s := by
  unfold branchOn branchByte
  cases remap t a with
  | some target => exact subInstruction_setdd target s
  | none => rfl

/-! ### The reference peer -/

/-- After a poll that ended Ready no cycle is late (R281). -/
theorem lateCycle_of_ready {p : RefPeer} {s : State} (h : s.pollres = codeReady) : lateCycle p s = false := by
  simp [lateCycle, h, codeReady, codeTimedOut]

theorem peerWrite_of_not_late {p : RefPeer} {s : State} {reg : BusRegister} {b : Byte} (hp : s.peer = .reference p)
    (hl : lateCycle p s = false) : peerWrite reg b s = { s with peer := peerAfterWrite reg b p } := by
  simp [peerWrite, hp, hl]

theorem peerRead_data_of_not_late {p : RefPeer} {s : State} (hp : s.peer = .reference p)
    (hl : lateCycle p s = false) :
    peerRead .data s = (p.cell, { s with peer := .reference p.afterDataRead }) := by
  simp [peerRead, referenceDataRead, hp, hl]

/-- Whatever the last poll ended with, the reference peer performs a write or ignores it (R281). -/
theorem peerWrite_reference {p : RefPeer} {s : State} (hp : s.peer = .reference p) (reg : BusRegister) (b : Byte) :
    (peerWrite reg b s).peer = .reference p ∨ (peerWrite reg b s).peer = peerAfterWrite reg b p := by
  unfold peerWrite
  rw [hp]
  dsimp only
  split
  · split
    · exact Or.inr rfl
    · exact Or.inl hp
  · exact Or.inr rfl

/-- Whatever the last poll ended with, the reference peer performs a data read, and answers its cell, or ignores it
(R281). -/
theorem peerRead_data_reference {p : RefPeer} {s : State} (hp : s.peer = .reference p) :
    (peerRead .data s).2.peer = .reference p ∨
      (peerRead .data s).1 = p.cell ∧ (peerRead .data s).2.peer = .reference p.afterDataRead := by
  unfold peerRead
  rw [hp]
  dsimp only
  unfold referenceDataRead
  split
  · split
    · exact Or.inr ⟨rfl, rfl⟩
    · exact Or.inl hp
  · exact Or.inr ⟨rfl, rfl⟩

theorem lateCycle_of_performed {p : RefPeer} (h : p.late = .performed) (s : State) : lateCycle p s = false := by
  simp [lateCycle, h]

theorem afterPoll_ready_pollres (p : RefPeer) (s : State) : (afterPoll (readySamples p) s).pollres = codeReady := by
  simp [afterPoll, pollDone, pollCode, lastBusy_readySamples]

theorem poll_attached {s : State} {p : RefPeer} (h : Attached s p) :
    pollUntilReady s =
      ⟨.ready, statusByte false p.ac, afterPoll (readySamples p) { s with peer := .reference p.settled }⟩ :=
  pollUntilReady_reference h.2.2.1 h.1 h.2.1

/-- A poll and a write cycle with the reference peer attached. -/
theorem poll_write_attached {s : State} {p : RefPeer} (h : Attached s p) (reg : BusRegister) (b : Byte) :
    writeCycle reg b (pollUntilReady s).state =
      { writeLatched reg b (afterPoll (readySamples p) s) with peer := peerAfterWrite reg b p.settled } := by
  rw [poll_attached h]
  dsimp only
  rw [writeCycle_driven reg b (by exact h.2.1) rfl]
  have hl : lateCycle p.settled (writeLatched reg b (afterPoll (readySamples p)
      { s with peer := .reference p.settled })) = false :=
    lateCycle_of_ready (afterPoll_ready_pollres p { s with peer := .reference p.settled })
  rw [peerWrite_of_not_late rfl hl]
  simp [writeLatched, afterPoll, pollDone, startPoll]

theorem issueInstruction_attached {s : State} {p : RefPeer} (h : Attached s p) (b : Byte) :
    issueInstruction b s =
      { writeLatched .instruction b (afterPoll (readySamples p) s) with
        peer := peerAfterInstruction b p.settled } :=
  poll_write_attached h .instruction b

theorem writeData_attached {s : State} {p : RefPeer} (h : Attached s p) (b : Byte) :
    writeData b s =
      { writeLatched .data b (afterPoll (readySamples p) s) with peer := .reference (p.settled.dataWrite b) } :=
  poll_write_attached h .data b

theorem readAddress_attached {s : State} {p : RefPeer} (h : Attached s p) :
    readAddress s =
      (p.ac, { afterPoll (readySamples p) s with rdata := addressByte p.ac, peer := .reference p.settled }) := by
  unfold readAddress
  rw [poll_attached h]
  simp [addressOf_statusByte, afterPoll, pollDone, startPoll]

theorem readData_attached {s : State} {p : RefPeer} (h : Attached s p) :
    readData s =
      { readDone .data p.cell (afterPoll (readySamples p) s) with
        rdata := p.cell, peer := .reference p.settled.afterDataRead } := by
  unfold readData
  rw [poll_attached h]
  dsimp only
  rw [readCycle_driven .data (by exact h.2.1)]
  have hl : lateCycle p.settled (readSampling .data (afterPoll (readySamples p)
      { s with peer := .reference p.settled })) = false :=
    lateCycle_of_ready (afterPoll_ready_pollres p { s with peer := .reference p.settled })
  have hc : p.settled.cell = p.cell := rfl
  rw [peerRead_data_of_not_late rfl hl]
  simp [hc, readDone, readSampling, afterPoll, pollDone, startPoll]

/-- What a peer that is attached remains after LCDC has acted: the control lines are still driven, the budget the same. -/
theorem Attached.mk' {s t : State} {p q : RefPeer} (h : Attached s p) (hp : t.peer = .reference q)
    (hc : t.ctlDir = s.ctlDir) (hcfg : t.cfg = s.cfg) (hk : q.kBusy = p.kBusy)
    (hb : q.busycnt = 0 ∨ q.busycnt = p.kBusy) : Attached t q := by
  obtain ⟨-, h2, -, h4⟩ := h
  have hpos := Config.maxAttempts_pos s.cfg
  refine ⟨hp, by rw [hc, h2], ?_, by rw [hcfg, hk]; exact h4⟩
  rw [hcfg]
  rcases hb with hb | hb <;> rw [hb]
  · omega
  · exact h4

end Sys2Proof.Machine
end

