-- ==== Sys2Proof/Laws/Effects.lean ====
section
/-! SUPPORT. What polls and cycles leave behind, in the terms of `Effect` (Safety.lean), composed by `Did.trans`: every
operation of LCDC is one such chain. -/

namespace Sys2Proof.Machine

theorem linesAfter_append (rs rw) (a b : List Txn) : linesAfter rs rw (a ++ b) = linesAfter (linesAfter rs rw a).1 (linesAfter rs rw a).2 b := by
  induction a generalizing rs rw with
  | nil => rfl
  | cons x xs ih => cases x <;> simp [linesAfter, ih]

theorem dbOutAfter_append (x) (a b : List Txn) : dbOutAfter x (a ++ b) = dbOutAfter (dbOutAfter x a) b := by
  induction a generalizing x with
  | nil => rfl
  | cons y ys ih => cases y <;> simp [dbOutAfter, ih]

theorem linesAfter_statusReads (rs rw) {p : List Byte} (h : p ≠ []) : linesAfter rs rw (statusReads p) = (.instruction, .read) := by
  induction p generalizing rs rw with
  | nil => simp at h
  | cons x xs ih => cases xs with
    | nil => rfl
    | cons y ys => simp only [statusReads, linesAfter]; exact ih _ _ (by simp)

theorem linesAfter_poll (rs rw) {p : List Byte} (h : p ≠ []) : linesAfter rs rw (pollTxns p) = (.instruction, .read) := by
  rw [pollTxns, linesAfter_append, linesAfter_statusReads _ _ h]; split <;> rfl

theorem dbOutAfter_statusReads (x) (p : List Byte) : dbOutAfter x (statusReads p) = x := by
  induction p generalizing x with
  | nil => rfl
  | cons y ys ih => cases ys with
    | nil => rfl
    | cons z zs => simp only [statusReads, dbOutAfter]; exact ih _

theorem dbOutAfter_poll (x) (p : List Byte) : dbOutAfter x (pollTxns p) = x := by
  rw [pollTxns, dbOutAfter_append, dbOutAfter_statusReads]; split <;> rfl

/-- What a stretch of an operation does to LCDC, whatever the peer answers: `Effect` without the end of the operation;
RDATA, STATUS and SEQ are not spoken of. -/
structure Did (s t : State) (polls : List (List Byte)) (txns : List Txn) : Prop where
  shape : ∀ samples ∈ polls, PollShape s.cfg.maxAttempts samples
  trace : t.trace = s.trace ++ pinEvents txns
  last : ∀ p, polls.getLast? = some p → t.pollres = pollCode p ∧ t.attempt.toNat = p.length ∧ t.e = .low ∧ t.dbDir = .output
  flags : t.flags = (if polls.any lastBusy then withTmo s.flags else s.flags)
  lines : (t.rs, t.rw) = linesAfter s.rs s.rw txns
  db : t.dbOut = dbOutAfter s.dbOut txns
  ctl : t.ctlDir = s.ctlDir
  sur : SameSurroundings s t

theorem withTmo_withTmo (f : Byte) : withTmo (withTmo f) = withTmo f := by revert f; decide

theorem Did.trans {s t u p q x y} (h : Did s t p x) (k : Did t u q y) (hq : q ≠ []) : Did s u (p ++ q) (x ++ y) := by
  obtain ⟨h1, h2, h3, h4, h5, h6, h7, h8⟩ := h
  obtain ⟨k1, k2, k3, k4, k5, k6, k7, k8⟩ := k
  have hc : t.cfg = s.cfg := h8.2.1
  refine ⟨?_, ?_, ?_, ?_, ?_, ?_, ?_, ?_⟩
  · intro a ha; rcases List.mem_append.1 ha with ha | ha
    · exact h1 a ha
    · rw [← hc]; exact k1 a ha
  · rw [k2, h2]; simp
  · intro a ha; apply k3; simpa [List.getLast?_append_of_ne_nil _ hq] using ha
  · rw [k4, h4, List.any_append]
    generalize p.any lastBusy = c
    generalize q.any lastBusy = d
    cases c <;> cases d <;> simp [withTmo_withTmo]
  · rw [k5, linesAfter_append, ← h5]
  · rw [k6, dbOutAfter_append, h6]
  · rw [k7, h7]
  · obtain ⟨a, b, c, d, e⟩ := h8; obtain ⟨a', b', c', d', e'⟩ := k8
    exact ⟨a'.trans a, b'.trans b, c'.trans c, d'.trans d, e'.trans e⟩

theorem did_poll (s : State) : ∃ p, Did s (pollUntilReady s).state [p] (pollTxns p) ∧ (pollUntilReady s).sampled = lastSample p ∧ (pollUntilReady s).state.rdata = s.rdata := by
  obtain ⟨p, h1, h2, h3⟩ := poll_afterPoll s
  refine ⟨p, ?_, h2, ?_⟩
  · unfold PeerOnly at h3
    rw [h3]
    refine ⟨by simpa using h1, by simp [afterPoll, pollDone, startPoll], ?_, by simp [afterPoll, pollDone, startPoll], ?_, ?_, by simp [afterPoll, pollDone, startPoll], by simp [SameSurroundings, afterPoll, pollDone, startPoll]⟩
    · simp only [List.getLast?_singleton, Option.some.injEq, forall_eq']
      refine ⟨rfl, ?_, rfl, rfl⟩
      have := pollDone_start_attempt s h1 (Config.maxAttempts_le _)
      exact this
    · simp [afterPoll, pollDone, startPoll, linesAfter_poll _ _ h1.ne_nil]
    · simp [afterPoll, pollDone, startPoll, dbOutAfter_poll]
  · unfold PeerOnly at h3; rw [h3]; rfl

theorem did_poll_write (reg b) (s : State) : ∃ p, Did s (writeCycle reg b (pollUntilReady s).state) [p] (pollTxns p ++ [.write reg b]) ∧ (writeCycle reg b (pollUntilReady s).state).rdata = s.rdata := by
  obtain ⟨p, h1, h3⟩ := poll_write_spec reg b s
  refine ⟨p, ?_, ?_⟩
  · unfold PeerOnly at h3
    rw [h3]
    refine ⟨by simpa using h1, by simp [writeLatched, afterPoll, pollDone, startPoll], ?_, by simp [writeLatched, afterPoll, pollDone, startPoll], ?_, ?_, by simp [writeLatched, afterPoll, pollDone, startPoll], by simp [writeLatched, SameSurroundings, afterPoll, pollDone, startPoll]⟩
    · simp only [List.getLast?_singleton, Option.some.injEq, forall_eq']
      refine ⟨rfl, ?_, rfl, rfl⟩
      have := pollDone_start_attempt s h1 (Config.maxAttempts_le _)
      exact this
    · simp [writeLatched, linesAfter_append, linesAfter, afterPoll, pollDone, startPoll]
    · simp [writeLatched, dbOutAfter_append, dbOutAfter, afterPoll, pollDone, startPoll]
  · unfold PeerOnly at h3; rw [h3]; rfl

theorem did_readData (s : State) : ∃ p d, Did s (readData s) [p] (pollTxns p ++ [.read .data d]) ∧ (readData s).rdata = d := by
  obtain ⟨p, d, h1, h3⟩ := readData_spec s
  refine ⟨p, d, ?_, ?_⟩
  · unfold PeerOnly at h3
    rw [h3]
    refine ⟨by simpa using h1, by simp [readDone, afterPoll, pollDone, startPoll], ?_, by simp [readDone, afterPoll, pollDone, startPoll], ?_, ?_, by simp [readDone, afterPoll, pollDone, startPoll], by simp [readDone, SameSurroundings, afterPoll, pollDone, startPoll]⟩
    · simp only [List.getLast?_singleton, Option.some.injEq, forall_eq']
      refine ⟨rfl, ?_, rfl, rfl⟩
      have := pollDone_start_attempt s h1 (Config.maxAttempts_le _)
      exact this
    · simp [readDone, linesAfter_append, linesAfter, afterPoll, pollDone, startPoll]
    · simp [readDone, dbOutAfter_append, dbOutAfter, afterPoll, pollDone, startPoll, dbOutAfter_poll]
  · unfold PeerOnly at h3; rw [h3]

theorem did_readAddress (s : State) : ∃ p, Did s (readAddress s).2 [p] (pollTxns p) ∧ (readAddress s).1 = addressOf (lastSample p) ∧ (readAddress s).2.rdata = lastSample p &&& 0x7F#8 := by
  obtain ⟨p, ⟨a1, a2, a3, a4, a5, a6, a7, a8⟩, h2, h3⟩ := did_poll s
  refine ⟨p, ⟨a1, a2, a3, a4, a5, a6, a7, a8⟩, by simp [readAddress, h2], ?_⟩
  simp only [readAddress, h2]
  generalize lastSample p = x
  revert x; decide

theorem Did.effect {s t polls txns last} (h : Did s t polls txns) (hl : polls.getLast? = some last) :
    Effect s (endOperation codeSuccess t) polls last txns := by
  obtain ⟨h1, h2, h3, h4, h5, h6, h7, h8⟩ := h
  obtain ⟨l1, l2, l3, l4⟩ := h3 last hl
  exact ⟨h1, hl, h2, l1, l2, h4, h5, h6, l3, l4, h7, rfl, rfl, h8⟩

/-! ### INIT -/

/-- LCDC after the unpolled part of INIT (R200, R201). -/
def initialised (s : State) : State :=
  { s with
    e := .low, ctlDir := .output, dbDir := .output, rs := .instruction, rw := .write, dbOut := rawFunctionSet,
    trace := s.trace ++ setupEvents ++ pinEvents
      [.wait .init1, .write .instruction rawFunctionSet, .wait .init2, .write .instruction rawFunctionSet,
        .wait .init3, .write .instruction rawFunctionSet] }

theorem initPins_peerOnly (s : State) :
    PeerOnly
      { s with
        e := .low, ctlDir := .output, dbDir := .output, rs := .instruction, rw := .write,
        trace := s.trace ++ setupEvents }
      (initPins s) := by
  have h := setEnable_low s
  unfold initPins
  generalize setEnable .low s = t at *
  unfold PeerOnly at *
  rw [h]
  simp [setControlLines, setDataDirection, setControlDirection, emit, setupEvents]

theorem initRaw_peerOnly (s : State) : PeerOnly (initialised s) (initRaw s) := by
  have h0 := initPins_peerOnly s
  have hw : ∀ d t, PeerOnly (writeLatched .instruction rawFunctionSet (delay d t)) (rawWrite d t) :=
    fun d t => writeCycle_peerOnly _ _ _
  unfold initRaw
  have h1 := hw .init1 (initPins s)
  generalize initPins s = t0 at *
  have h2 := hw .init2 (rawWrite .init1 t0)
  generalize rawWrite .init1 t0 = t1 at *
  have h3 := hw .init3 (rawWrite .init2 t1)
  generalize rawWrite .init2 t1 = t2 at *
  generalize rawWrite .init3 t2 = t3 at *
  unfold PeerOnly at *
  rw [h3, h2, h1, h0]
  simp [initialised, writeLatched, delay, emit, Txn.events]

/-- The polled part of INIT (R200). -/
theorem did_initPolled (s : State) :
    ∃ p1 p2 p3 p4,
      Did s (initPolled s) [p1, p2, p3, p4]
        (pollTxns p1 ++ [.write .instruction 0x38#8] ++ (pollTxns p2 ++ [.write .instruction 0x08#8])
          ++ (pollTxns p3 ++ [.write .instruction 0x01#8]) ++ (pollTxns p4 ++ [.write .instruction 0x06#8])) ∧
      (initPolled s).rdata = s.rdata := by
  unfold initPolled
  rw [subInstruction_issues (by decide), subInstruction_issues (by decide), subInstruction_issues (by decide)]
  obtain ⟨p1, a1, b1⟩ := did_poll_write .instruction 0x38#8 s
  generalize hs1 : writeCycle .instruction 0x38#8 (pollUntilReady s).state = s1 at *
  obtain ⟨p2, a2, b2⟩ := did_poll_write .instruction 0x08#8 s1
  generalize hs2 : writeCycle .instruction 0x08#8 (pollUntilReady s1).state = s2 at *
  obtain ⟨p3, a3, b3⟩ := did_poll_write .instruction 0x01#8 s2
  generalize hs3 : writeCycle .instruction 0x01#8 (pollUntilReady s2).state = s3 at *
  obtain ⟨p4, a4, b4⟩ := did_poll_write .instruction 0x06#8 s3
  have h := ((a1.trans a2 (by simp)).trans a3 (by simp)).trans a4 (by simp)
  subst hs1 hs2 hs3
  exact ⟨p1, p2, p3, p4, h, b4.trans (b3.trans (b2.trans b1))⟩

end Sys2Proof.Machine
end

