-- ==== Sys2Proof/Laws/Checker.lean ====
section
/-! SUPPORT. The pin-level checker (40_bus_transport R140): it runs over concatenated traces, whole cycles pass it, and
what it asserts of a read pass and of a write pass. -/

namespace Sys2Proof.Machine

theorem PinView.run_append (v : PinView) (evs more : List Event) :
    v.run (evs ++ more) = (v.run evs).bind fun w => w.run more := by
  induction evs generalizing v with
  | nil => rfl
  | cons ev rest ih =>
    simp only [List.cons_append, PinView.run]
    cases v.after? ev with
    | none => rfl
    | some w => exact ih w

theorem wholeCycles_append {a b c : Direction} {evs more : List Event} (h : wholeCycles a b evs)
    (k : wholeCycles b c more) : wholeCycles a c (evs ++ more) := by
  unfold wholeCycles at *
  rw [PinView.run_append, h]
  exact k

/-- What passes the checker passes it as far as it goes (R270). -/
theorem cyclesSoFar_of_prefix {a b : Direction} {evs more : List Event} (h : wholeCycles a b more)
    (hp : evs <+: more) : cyclesSoFar a evs := by
  obtain ⟨rest, rfl⟩ := hp
  unfold wholeCycles at h
  unfold cyclesSoFar
  rw [PinView.run_append] at h
  cases hr : PinView.run ⟨a, .between⟩ evs with
  | none => rw [hr] at h; exact absurd h (by simp)
  | some w => rfl

/-! ### Whole cycles pass -/

theorem wholeCycles_write (reg : BusRegister) (b : Byte) :
    wholeCycles .output .output (Txn.events (.write reg b)) := rfl

theorem wholeCycles_read (d : Direction) (reg : BusRegister) (b : Byte) :
    wholeCycles d .output (Txn.events (.read reg b)) := rfl

theorem wholeCycles_setup (d : Direction) : wholeCycles d .output setupEvents := rfl

/-- Driven data lines are driven again after any transactions. -/
theorem wholeCycles_pinEvents (txns : List Txn) : wholeCycles .output .output (pinEvents txns) := by
  induction txns with
  | nil => rfl
  | cons txn rest ih =>
    refine wholeCycles_append (b := .output) ?_ ih
    cases txn <;> rfl

/-- A poll drives the data lines, whatever their direction was: it begins with a read cycle. -/
theorem wholeCycles_poll (d : Direction) {samples : List Byte} (h : samples ≠ []) (txns : List Txn) :
    wholeCycles d .output (pinEvents (pollTxns samples ++ txns)) := by
  match samples, h with
  | [b], _ => exact wholeCycles_append (wholeCycles_read d .instruction b) (wholeCycles_pinEvents _)
  | b :: c :: rest, _ => exact wholeCycles_append (wholeCycles_read d .instruction b) (wholeCycles_pinEvents _)

/-! ### What the checker asserts -/

/-- An event that puts something on the lines, or turns them. -/
def Event.drives : Event → Bool
  | .cdir _ | .ddir _ | .ctl _ _ | .data _ => true
  | .en _ | .wait _ | .sample _ | .timeout => false

/-- An event of enable. -/
def Event.isEnable : Event → Bool
  | .en _ => true
  | _ => false

/-- A sample. -/
def Event.isSample : Event → Bool
  | .sample _ => true
  | _ => false

/-- After the sample of a read pass: no further sample and nothing driven until EN(Low). -/
theorem PinView.run_sampled {evs rest : List Event} {d : Direction} {w : PinView}
    (hen : evs.any Event.isEnable = false) (h : PinView.run ⟨d, .sampled⟩ (evs ++ .en .low :: rest) = some w) :
    evs.countP Event.isSample = 0 ∧ evs.any Event.drives = false := by
  induction evs with
  | nil => exact ⟨rfl, rfl⟩
  | cons ev more ih =>
    cases ev
    case wait => exact ih hen h
    case en => exact absurd hen (by simp [Event.isEnable])
    all_goals exact absurd h (by simp [PinView.run, PinView.after?])

/-- R140, first half: between EN(High) and EN(Low) of a read that passes there is exactly one sample, and the data lines
keep their direction. -/
theorem PinView.run_sampling {evs rest : List Event} {d : Direction} {w : PinView}
    (hen : evs.any Event.isEnable = false) (h : PinView.run ⟨d, .sampling⟩ (evs ++ .en .low :: rest) = some w) :
    evs.countP Event.isSample = 1 ∧ evs.any Event.drives = false := by
  induction evs with
  | nil => exact absurd h (by simp [PinView.run, PinView.after?])
  | cons ev more ih =>
    cases ev
    case wait => exact ih hen h
    case sample b =>
      obtain ⟨h1, h2⟩ := PinView.run_sampled (evs := more) hen h
      exact ⟨by rw [List.countP_cons_of_pos (by rfl), h1], h2⟩
    case en => exact absurd hen (by simp [Event.isEnable])
    all_goals exact absurd h (by simp [PinView.run, PinView.after?])

/-- While enable is high in a write pass nothing is driven anew. -/
theorem PinView.run_strobing {evs rest : List Event} {d : Direction} {w : PinView}
    (hen : evs.any Event.isEnable = false) (h : PinView.run ⟨d, .strobing⟩ (evs ++ .en .low :: rest) = some w) :
    evs.any Event.drives = false := by
  induction evs with
  | nil => rfl
  | cons ev more ih =>
    cases ev
    case wait => exact ih hen h
    case en => exact absurd hen (by simp [Event.isEnable])
    all_goals exact absurd h (by simp [PinView.run, PinView.after?])

/-- R140, second half: from DATA(b) to EN(High) of a write that passes nothing is driven anew: the lines hold b, RS and
RW. -/
theorem PinView.run_loaded {evs rest : List Event} {d : Direction} {w : PinView}
    (hen : evs.any Event.isEnable = false) (h : PinView.run ⟨d, .loaded⟩ (evs ++ .en .high :: rest) = some w) :
    evs.any Event.drives = false := by
  induction evs with
  | nil => rfl
  | cons ev more ih =>
    cases ev
    case wait => exact ih hen h
    case en => exact absurd hen (by simp [Event.isEnable])
    all_goals exact absurd h (by simp [PinView.run, PinView.after?])

end Sys2Proof.Machine
end

