-- ==== Sys2Proof/Laws/Encoding.lean ====
section
/-! SUPPORT. The fields of a command word (30_encoding R100). -/

namespace Sys2Proof

theorem opField_commandWord (op arg : Byte) : opField (commandWord op arg) = op := by
  show BitVec.extractLsb' 8 8 (op ++ arg : BitVec (8 + 8)) = op
  ext i hi
  rw [BitVec.getElem_extractLsb', BitVec.getLsbD_append, if_neg (by omega)]
  simp [hi]

theorem argField_commandWord (op arg : Byte) : argField (commandWord op arg) = arg := by
  show BitVec.extractLsb' 0 8 (op ++ arg : BitVec (8 + 8)) = arg
  ext i hi
  rw [BitVec.getElem_extractLsb', BitVec.getLsbD_append, if_pos (by omega)]
  simp [hi]

theorem commandWord_fields (w : CommandWord) : commandWord (opField w) (argField w) = w := by
  show (BitVec.extractLsb' 8 8 w ++ BitVec.extractLsb' 0 8 w : BitVec (8 + 8)) = w
  ext i hi
  rw [BitVec.getElem_append]
  split
  · simp [BitVec.getLsbD_eq_getElem hi]
  · rw [BitVec.getElem_extractLsb', show 8 + (i - 8) = i by omega, BitVec.getLsbD_eq_getElem hi]

end Sys2Proof
end

