-- ==== Sys2Proof/Laws/Memory.lean ====
section
/-! SUPPORT. The laws of the peer's memories: read after write, and every operation keeps the canonical form. -/

namespace Sys2Proof.Machine

/-- An address below every listed one is unlisted. -/
theorem Memory.read_below {size least : Nat} {m : Memory} (h : Memory.wfFrom size least m = true) {a : Nat}
    (ha : a < least) : Memory.read m a = Memory.unlisted := by
  induction m generalizing least with
  | nil => rfl
  | cons cell rest ih =>
    obtain ⟨k, v⟩ := cell
    simp only [Memory.wfFrom, Bool.and_eq_true, decide_eq_true_eq] at h
    have hk : k ≠ a := by omega
    simp only [Memory.read, hk, if_false]
    exact ih h.2 (by omega)

/-- A lower bound on the listed addresses may be lowered. -/
theorem Memory.wfFrom_mono {size least least' : Nat} {m : Memory} (h : Memory.wfFrom size least m = true)
    (hle : least' ≤ least) : Memory.wfFrom size least' m = true := by
  cases m with
  | nil => rfl
  | cons cell rest =>
    simp only [Memory.wfFrom, Bool.and_eq_true, decide_eq_true_eq] at h ⊢
    exact ⟨⟨⟨by omega, h.1.1.2⟩, h.1.2⟩, h.2⟩

theorem Memory.wfFrom_cons {size least a : Nat} {b : Byte} {m : Memory} (hm : Memory.wfFrom size (a + 1) m = true)
    (hle : least ≤ a) (ha : a < size) : Memory.wfFrom size least (Memory.cons a b m) = true := by
  unfold Memory.cons
  split
  · exact Memory.wfFrom_mono hm (by omega)
  · simp_all [Memory.wfFrom]

theorem Memory.read_cons {size a : Nat} {b : Byte} {m : Memory} (hm : Memory.wfFrom size (a + 1) m = true) (x : Nat) :
    Memory.read (Memory.cons a b m) x = if a = x then b else Memory.read m x := by
  unfold Memory.cons
  split
  · rename_i hb
    split
    · rename_i hx
      subst hx hb
      exact Memory.read_below hm (by omega)
    · rfl
  · rfl

theorem Memory.wfFrom_write {size least : Nat} {m : Memory} {a : Nat} {b : Byte}
    (h : Memory.wfFrom size least m = true) (hle : least ≤ a) (ha : a < size) :
    Memory.wfFrom size least (Memory.write m a b) = true := by
  induction m generalizing least with
  | nil => exact Memory.wfFrom_cons rfl hle ha
  | cons cell rest ih =>
    obtain ⟨k, v⟩ := cell
    have h' := h
    simp only [Memory.wfFrom, Bool.and_eq_true, decide_eq_true_eq] at h'
    simp only [Memory.write]
    split
    · refine Memory.wfFrom_cons ?_ hle ha
      simp only [Memory.wfFrom, Bool.and_eq_true, decide_eq_true_eq]
      exact ⟨⟨⟨by omega, h'.1.1.2⟩, h'.1.2⟩, h'.2⟩
    · split
      · rename_i hk
        subst hk
        exact Memory.wfFrom_cons h'.2 hle ha
      · simp only [Memory.wfFrom, Bool.and_eq_true, decide_eq_true_eq]
        exact ⟨⟨⟨h'.1.1.1, h'.1.1.2⟩, h'.1.2⟩, ih h'.2 (by omega)⟩

/-- A write keeps the canonical form. -/
theorem Memory.wf_write {size : Nat} {m : Memory} {a : Nat} {b : Byte} (h : Memory.wf size m = true) (ha : a < size) :
    Memory.wf size (Memory.write m a b) = true :=
  Memory.wfFrom_write h (Nat.zero_le a) ha

theorem Memory.read_write_from {size least : Nat} {m : Memory} {a : Nat} {b : Byte}
    (h : Memory.wfFrom size least m = true) (x : Nat) :
    Memory.read (Memory.write m a b) x = if a = x then b else Memory.read m x := by
  induction m generalizing least with
  | nil => exact Memory.read_cons (size := size) rfl x
  | cons cell rest ih =>
    obtain ⟨k, v⟩ := cell
    have h' := h
    simp only [Memory.wfFrom, Bool.and_eq_true, decide_eq_true_eq] at h'
    simp only [Memory.write]
    split
    · refine Memory.read_cons (size := size) ?_ x
      simp only [Memory.wfFrom, Bool.and_eq_true, decide_eq_true_eq]
      exact ⟨⟨⟨by omega, h'.1.1.2⟩, h'.1.2⟩, h'.2⟩
    · split
      · rename_i hk
        subst hk
        rw [Memory.read_cons h'.2 x]
        simp only [Memory.read]
        split <;> rfl
      · rename_i hlt hne
        simp only [Memory.read, ih h'.2]
        split
        · rename_i hkx
          subst hkx
          simp [hne]
        · rfl

/-- A read after a write: the byte written at its address, the old byte everywhere else. -/
theorem Memory.read_write {size : Nat} {m : Memory} (h : Memory.wf size m = true) (a : Nat) (b : Byte) (x : Nat) :
    Memory.read (Memory.write m a b) x = if a = x then b else Memory.read m x :=
  Memory.read_write_from h x

theorem Memory.wf_nil (size : Nat) : Memory.wf size [] = true := rfl

/-- Filling DDRAM as clear-display does leaves nothing listed. -/
theorem Memory.fill_blank (size : Nat) : Memory.fill size 0x20#8 = [] := by
  simp [Memory.fill, Memory.unlisted]

/-- `Memory.ofCells` is canonical whatever it is given. -/
theorem Memory.wf_ofCells {size : Nat} (hs : 0 < size) (cells : List Host.Cell) :
    Memory.wf size (Memory.ofCells size cells) = true := by
  unfold Memory.ofCells
  have key : ∀ (cs : List Host.Cell) (m : Memory), Memory.wf size m = true →
      Memory.wf size (cs.foldl (fun m cell => Memory.write m (cell.1 % size) cell.2) m) = true := by
    intro cs
    induction cs with
    | nil => exact fun m h => h
    | cons cell rest ih => exact fun m h => ih _ (Memory.wf_write h (Nat.mod_lt _ hs))
  exact key cells [] rfl

/-! ### The reference peer keeps its memories canonical -/

theorem RefPeer.wf_iff (p : RefPeer) :
    p.wf = true ↔ Memory.wf ddramSize p.ddram = true ∧ Memory.wf cgramSize p.cgram = true := by
  simp [RefPeer.wf]

theorem RefPeer.wf_store {p : RefPeer} (h : p.wf = true) (b : Byte) : (p.store b).wf = true := by
  rw [RefPeer.wf_iff] at h ⊢
  unfold RefPeer.store
  split
  · exact ⟨Memory.wf_write h.1 p.ac.isLt, h.2⟩
  · exact ⟨h.1, Memory.wf_write h.2 (cgramIndex p.ac).isLt⟩

theorem RefPeer.wf_move {p : RefPeer} (h : p.wf = true) (up : Bool) : (p.move up).wf = true := h

theorem RefPeer.wf_startBusy {p : RefPeer} (h : p.wf = true) : p.startBusy.wf = true := h

theorem RefPeer.wf_afterStatusRead {p : RefPeer} (h : p.wf = true) : p.afterStatusRead.wf = true := h

theorem RefPeer.wf_afterDataRead {p : RefPeer} (h : p.wf = true) : p.afterDataRead.wf = true := h

theorem RefPeer.wf_shiftOnWrite {p : RefPeer} (h : p.wf = true) : p.shiftOnWrite.wf = true := by
  unfold RefPeer.shiftOnWrite
  split <;> exact h

theorem RefPeer.wf_dataWrite {p : RefPeer} (h : p.wf = true) (b : Byte) : (p.dataWrite b).wf = true :=
  RefPeer.wf_startBusy (RefPeer.wf_shiftOnWrite (RefPeer.wf_move (RefPeer.wf_store h b) p.id))

theorem RefPeer.wf_perform {p : RefPeer} (h : p.wf = true) (op : LcdOpcode) (settings : Byte) :
    (p.perform op settings).wf = true := by
  cases op with
  | clearDisplay =>
    rw [RefPeer.wf_iff] at h ⊢
    exact ⟨by simp [RefPeer.perform, RefPeer.clearDisplay, Memory.fill_blank, Memory.wf_nil], h.2⟩
  | cursorDisplayShift =>
    simp only [RefPeer.perform, RefPeer.cursorDisplayShift]
    split <;> exact h
  | _ => exact h

theorem RefPeer.wf_instructionWrite {p : RefPeer} (h : p.wf = true) (b : Byte) : (p.instructionWrite b).wf = true := by
  unfold RefPeer.instructionWrite
  split
  · exact RefPeer.wf_startBusy (RefPeer.wf_perform h _ _)
  · exact h

theorem RefPeer.wf_unknown (n : Nat) (p : RefPeer) : (p.unknown n).wf = true := by
  rw [RefPeer.wf_iff]
  exact ⟨Memory.wf_ofCells (by decide) _, Memory.wf_ofCells (by decide) _⟩

end Sys2Proof.Machine
end

