-- ==== Sys2Proof/Laws/Peer.lean ====
section
/-! SUPPORT. What each bus word does to the reference peer (20_memory R82 to R92), one equation per word, and what the
poll and cycle operations do to an attached peer. -/

namespace Sys2Proof.Machine

/-! ### The address step -/

/-- R83: in two-line mode, in CGRAM, or of a peer that keeps to the table in one-line mode, a step is the table's. -/
theorem RefPeer.stepped_eq {p : RefPeer} (h : p.n = true ∨ p.ramsel = .cgram ∨ p.oneLine = .byTable) (up : Bool) :
    p.stepped up = addressStep p.ramsel up p.ac := by
  have h' : p.stepUnsettled = false := by
    unfold RefPeer.stepUnsettled
    rcases h with h | h | h <;> simp [h]
  simp [RefPeer.stepped, h']

theorem RefPeer.stepped_of_twoLine {p : RefPeer} (h : p.n = true) (up : Bool) :
    p.stepped up = addressStep p.ramsel up p.ac :=
  RefPeer.stepped_eq (Or.inl h) up

/-- R285: elsewhere it is open. -/
theorem RefPeer.stepped_of_oneLine {p : RefPeer} (hn : p.n = false) (hr : p.ramsel = .ddram)
    (ho : p.oneLine = .unsettled) (up : Bool) : p.stepped up = Config.oneLineStep up p.ac := by
  simp [RefPeer.stepped, RefPeer.stepUnsettled, hn, hr, ho]

@[simp] theorem RefPeer.stepped_settled (p : RefPeer) (up : Bool) : p.settled.stepped up = p.stepped up := rfl

/-! ### The bytes -/

theorem decodeLcdByte_setdd (a : Address) :
    decodeLcdByte (0x80#8 ||| setddSettings a) = some (.setDdramAddress, setddSettings a) ∧
      (setddSettings a).extractLsb' 0 7 = a := by
  revert a
  decide

/-- An instruction byte other than a function-set is performed (R86). -/
theorem peerAfterInstruction_eq {b settings : Byte} {op : LcdOpcode} (p : RefPeer)
    (h : decodeLcdByte b = some (op, settings)) (hf : op ≠ .functionSet) :
    peerAfterInstruction b p = .reference (p.perform op settings).startBusy := by
  have h4 : selectsFourBitBus b = false := by
    unfold selectsFourBitBus
    rw [h]
    cases op <;> first | rfl | exact absurd rfl hf
  simp [peerAfterInstruction, h4, RefPeer.instructionWrite, h]

/-- A function-set with the data-length flag set is performed (R89). -/
theorem peerAfterInstruction_functionSet {b settings : Byte} (p : RefPeer)
    (h : decodeLcdByte b = some (.functionSet, settings)) (hd : settings[4] = true) :
    peerAfterInstruction b p = .reference (p.functionSet settings).startBusy := by
  have h4 : selectsFourBitBus b = false := by
    unfold selectsFourBitBus
    rw [h]
    simpa using hd
  simp [peerAfterInstruction, h4, RefPeer.instructionWrite, h, RefPeer.perform]

theorem peerAfterInstruction_setdd (a : Address) (p : RefPeer) :
    peerAfterInstruction (0x80#8 ||| setddSettings a) p =
      .reference { p with ramsel := .ddram, ac := a, busycnt := p.kBusy } := by
  obtain ⟨h1, h2⟩ := decodeLcdByte_setdd a
  rw [peerAfterInstruction_eq p h1 (by decide)]
  simp [RefPeer.perform, RefPeer.setDdramAddress, h2, RefPeer.startBusy]

theorem peerAfterInstruction_left (p : RefPeer) :
    peerAfterInstruction 0x10#8 p =
      .reference { p with ac := p.stepped false, busycnt := p.kBusy } := by
  rw [peerAfterInstruction_eq p (show _ = some (.cursorDisplayShift, 0#8) by decide) (by decide)]
  simp [RefPeer.perform, RefPeer.cursorDisplayShift, RefPeer.move, RefPeer.startBusy]

theorem peerAfterInstruction_right (p : RefPeer) :
    peerAfterInstruction 0x14#8 p =
      .reference { p with ac := p.stepped true, busycnt := p.kBusy } := by
  rw [peerAfterInstruction_eq p (show _ = some (.cursorDisplayShift, 4#8) by decide) (by decide)]
  simp [RefPeer.perform, RefPeer.cursorDisplayShift, RefPeer.move, RefPeer.startBusy]

theorem peerAfterInstruction_decrement (p : RefPeer) :
    peerAfterInstruction 0x04#8 p = .reference { p with id := false, s := false, busycnt := p.kBusy } := by
  rw [peerAfterInstruction_eq p (show _ = some (.entryModeSet, 0#8) by decide) (by decide)]
  simp [RefPeer.perform, RefPeer.entryModeSet, RefPeer.startBusy]

theorem peerAfterInstruction_increment (p : RefPeer) :
    peerAfterInstruction 0x06#8 p = .reference { p with id := true, s := false, busycnt := p.kBusy } := by
  rw [peerAfterInstruction_eq p (show _ = some (.entryModeSet, 2#8) by decide) (by decide)]
  simp [RefPeer.perform, RefPeer.entryModeSet, RefPeer.startBusy]

theorem peerAfterInstruction_clear (p : RefPeer) :
    peerAfterInstruction 0x01#8 p =
      .reference { p with ddram := [], ac := 0x00#7, ramsel := .ddram, id := true, sh := 0, busycnt := p.kBusy } := by
  rw [peerAfterInstruction_eq p (show _ = some (.clearDisplay, 0#8) by decide) (by decide)]
  simp [RefPeer.perform, RefPeer.clearDisplay, Memory.fill, Memory.unlisted, RefPeer.startBusy]

/-! ### Data -/

/-- R84, field by field. -/
theorem RefPeer.dataWrite_eq (b : Byte) (p : RefPeer) :
    p.dataWrite b =
      { p with
        ddram := if p.ramsel = .ddram then Memory.write p.ddram p.ac.toNat b else p.ddram,
        cgram := if p.ramsel = .cgram then Memory.write p.cgram (cgramIndex p.ac).toNat b else p.cgram,
        ac := p.stepped p.id,
        sh := if p.s ∧ p.ramsel = .ddram then (if p.id then p.sh - 1 else p.sh + 1) else p.sh,
        busycnt := p.kBusy } := by
  obtain ⟨bf, ac, ramsel, id, s, d, c, b', dl, n, f, sh, ddram, cgram, busycnt, kBusy, late, oneLine⟩ := p
  cases ramsel <;> cases s <;> rfl

theorem cgramIndex_toNat (a : Address) : (cgramIndex a).toNat = a.toNat % 64 := by simp [cgramIndex]

/-- The instruction that is not a clear-display leaves both RAMs (R88 to R91). -/
theorem RefPeer.perform_memories {op : LcdOpcode} (settings : Byte) (p : RefPeer) (h : op ≠ .clearDisplay) :
    (p.perform op settings).ddram = p.ddram ∧ (p.perform op settings).cgram = p.cgram := by
  cases op
  case clearDisplay => exact absurd rfl h
  case cursorDisplayShift =>
    simp only [RefPeer.perform, RefPeer.cursorDisplayShift, RefPeer.move]
    split <;> exact ⟨rfl, rfl⟩
  all_goals exact ⟨rfl, rfl⟩

/-- No instruction changes a parameter of the peer. -/
theorem RefPeer.perform_parameters (op : LcdOpcode) (settings : Byte) (p : RefPeer) :
    (p.perform op settings).kBusy = p.kBusy ∧ (p.perform op settings).late = p.late ∧
      (p.perform op settings).oneLine = p.oneLine := by
  cases op
  case cursorDisplayShift =>
    simp only [RefPeer.perform, RefPeer.cursorDisplayShift, RefPeer.move]
    split <;> exact ⟨rfl, rfl, rfl⟩
  all_goals exact ⟨rfl, rfl, rfl⟩

/-! ### An attached peer through the shared operations -/

theorem writeData_attached_peer {s : State} {p : RefPeer} (h : Attached s p) (b : Byte) :
    Attached (writeData b s) (p.settled.dataWrite b) := by
  have e := writeData_attached h b
  refine h.mk' (by rw [e]) (by rw [e]; rfl) (by rw [e]; rfl) ?_ (Or.inr ?_) <;> rw [RefPeer.dataWrite_eq] <;> rfl

theorem readAddress_attached_peer {s : State} {p : RefPeer} (h : Attached s p) :
    (readAddress s).1 = p.ac ∧ Attached (readAddress s).2 p.settled := by
  have e := readAddress_attached h
  exact ⟨by rw [e], h.mk' (by rw [e]) (by rw [e]; rfl) (by rw [e]; rfl) rfl (Or.inl rfl)⟩

theorem readData_attached_peer {s : State} {p : RefPeer} (h : Attached s p) :
    (readData s).rdata = p.cell ∧ Attached (readData s) p.settled.afterDataRead := by
  have e := readData_attached h
  exact ⟨by rw [e], h.mk' (by rw [e]) (by rw [e]; rfl) (by rw [e]; rfl) rfl (Or.inr rfl)⟩

theorem issueInstruction_attached_peer {s : State} {p q : RefPeer} (h : Attached s p) {b : Byte}
    (hq : peerAfterInstruction b p.settled = .reference q) (hk : q.kBusy = p.kBusy) (hb : q.busycnt = p.kBusy) :
    Attached (issueInstruction b s) q := by
  have e := issueInstruction_attached h b
  exact h.mk' (by rw [e]; exact hq) (by rw [e]; rfl) (by rw [e]; rfl) hk (Or.inr hb)

end Sys2Proof.Machine
end

