-- ==== Sys2Proof/Laws/PerInstr.lean ====
section
/-! SUPPORT. The family TableRow: the encoding of every instruction against its row of spec/opcode_table.json. -/

namespace Sys2Proof.Laws.TableRow

open Sys2Proof

/-- A row of the opcode table: which of the two formats it is in, its mask and its match. -/
inductive Row
  | hc16 (mask value : CommandWord)
  | bus10 (mask value : BusWord)
  deriving DecidableEq, Repr

/-- The mask and the match the opcode table gives each instruction. -/
def rowOf : Instr → Row
  | .clear _ => .hc16 0xFF00#16 0x0000#16
  | .home _ => .hc16 0xFF00#16 0x0100#16
  | .entry _ => .hc16 0xFF00#16 0x0200#16
  | .dispctl _ => .hc16 0xFF00#16 0x0300#16
  | .shift _ => .hc16 0xFF00#16 0x0400#16
  | .funcset _ => .hc16 0xFF00#16 0x0500#16
  | .setcg _ => .hc16 0xFF00#16 0x0600#16
  | .setdd _ => .hc16 0xFF00#16 0x0700#16
  | .wrdata _ => .hc16 0xFF00#16 0x0800#16
  | .rddata _ => .hc16 0xFF00#16 0x0900#16
  | .rdac _ => .hc16 0xFF00#16 0x0A00#16
  | .waitbusy _ => .hc16 0xFF00#16 0x0B00#16
  | .init _ => .hc16 0xFF00#16 0x0C00#16
  | .putch _ => .hc16 0xFF00#16 0x1000#16
  | .bksp _ => .hc16 0xFF00#16 0x1100#16
  | .enter _ => .hc16 0xFF00#16 0x1200#16
  | .curleft _ => .hc16 0xFF00#16 0x1300#16
  | .curright _ => .hc16 0xFF00#16 0x1400#16
  | .bwClearDisplay => .bus10 0x3FF#10 0x001#10
  | .bwReturnHome => .bus10 0x3FF#10 0x002#10
  | .bwEntryModeSet _ => .bus10 0x3FC#10 0x004#10
  | .bwDisplayControl _ => .bus10 0x3F8#10 0x008#10
  | .bwCursorDisplayShift _ => .bus10 0x3F0#10 0x010#10
  | .bwFunctionSet _ => .bus10 0x3E0#10 0x020#10
  | .bwSetCgramAddress _ => .bus10 0x3C0#10 0x040#10
  | .bwSetDdramAddress _ => .bus10 0x380#10 0x080#10
  | .bwStatusRead _ _ => .bus10 0x300#10 0x100#10
  | .bwDataWrite _ => .bus10 0x300#10 0x200#10
  | .bwDataRead _ => .bus10 0x300#10 0x300#10

/-- Whether a word is of a row's format and has the row's fixed bits. -/
def Row.matches : Row → CodeWord → Bool
  | .hc16 mask value, .hc16 w => decide (w &&& mask = value)
  | .bus10 mask value, .bus10 w => decide (w &&& mask = value)
  | .hc16 _ _, .bus10 _ | .bus10 _ _, .hc16 _ => false

/-- The word of a well-formed instruction has the fixed bits of its own row of the opcode table. -/
def Statement (i : Instr) : Prop := i.wellFormed = true → (rowOf i).matches (encode i) = true

theorem clear (arg : Byte) : Statement (.clear arg) := by
  revert arg
  unfold Statement
  decide

theorem home (arg : Byte) : Statement (.home arg) := by
  revert arg
  unfold Statement
  decide

theorem entry (arg : Byte) : Statement (.entry arg) := by
  revert arg
  unfold Statement
  decide

theorem dispctl (arg : Byte) : Statement (.dispctl arg) := by
  revert arg
  unfold Statement
  decide

theorem shift (arg : Byte) : Statement (.shift arg) := by
  revert arg
  unfold Statement
  decide

theorem funcset (arg : Byte) : Statement (.funcset arg) := by
  revert arg
  unfold Statement
  decide

theorem setcg (arg : Byte) : Statement (.setcg arg) := by
  revert arg
  unfold Statement
  decide

theorem setdd (arg : Byte) : Statement (.setdd arg) := by
  revert arg
  unfold Statement
  decide

theorem wrdata (arg : Byte) : Statement (.wrdata arg) := by
  revert arg
  unfold Statement
  decide

theorem rddata (arg : Byte) : Statement (.rddata arg) := by
  revert arg
  unfold Statement
  decide

theorem rdac (arg : Byte) : Statement (.rdac arg) := by
  revert arg
  unfold Statement
  decide

theorem waitbusy (arg : Byte) : Statement (.waitbusy arg) := by
  revert arg
  unfold Statement
  decide

theorem init (arg : Byte) : Statement (.init arg) := by
  revert arg
  unfold Statement
  decide

theorem putch (arg : Byte) : Statement (.putch arg) := by
  revert arg
  unfold Statement
  decide

theorem bksp (arg : Byte) : Statement (.bksp arg) := by
  revert arg
  unfold Statement
  decide

theorem enter (arg : Byte) : Statement (.enter arg) := by
  revert arg
  unfold Statement
  decide

theorem curleft (arg : Byte) : Statement (.curleft arg) := by
  revert arg
  unfold Statement
  decide

theorem curright (arg : Byte) : Statement (.curright arg) := by
  revert arg
  unfold Statement
  decide

theorem bwClearDisplay : Statement .bwClearDisplay := by
  unfold Statement
  decide

theorem bwReturnHome : Statement .bwReturnHome := by
  unfold Statement
  decide

theorem bwEntryModeSet (settings : Byte) : Statement (.bwEntryModeSet settings) := by
  revert settings
  unfold Statement
  decide

theorem bwDisplayControl (settings : Byte) : Statement (.bwDisplayControl settings) := by
  revert settings
  unfold Statement
  decide

theorem bwCursorDisplayShift (settings : Byte) : Statement (.bwCursorDisplayShift settings) := by
  revert settings
  unfold Statement
  decide

theorem bwFunctionSet (settings : Byte) : Statement (.bwFunctionSet settings) := by
  revert settings
  unfold Statement
  decide

theorem bwSetCgramAddress (settings : Byte) : Statement (.bwSetCgramAddress settings) := by
  revert settings
  unfold Statement
  decide

theorem bwSetDdramAddress (settings : Byte) : Statement (.bwSetDdramAddress settings) := by
  revert settings
  unfold Statement
  decide

theorem bwStatusRead (busy : Bool) (address : Address) : Statement (.bwStatusRead busy address) := by
  cases busy <;> revert address <;> unfold Statement <;> decide

theorem bwDataWrite (byte : Byte) : Statement (.bwDataWrite byte) := by
  revert byte
  unfold Statement
  decide

theorem bwDataRead (byte : Byte) : Statement (.bwDataRead byte) := by
  revert byte
  unfold Statement
  decide

end Sys2Proof.Laws.TableRow
end

