-- ==== Sys2Proof/Laws/Retag.lean ====
section
/-! SUPPORT. STATUS and SEQ are written at the end of an operation and read by no operation: every shared operation
commutes with writing them. -/

namespace Sys2Proof.Machine

/-- The state with SEQ and STATUS written. -/
def retag (q : Seq) (code : Byte) (s : State) : State := { s with status := code, seq := q }

theorem endOperation_eq_retag (code : Byte) (s : State) : endOperation code s = retag .idle code s := rfl

@[simp] theorem retag_retag (q r : Seq) (c d : Byte) (s : State) : retag q c (retag r d s) = retag q c s := rfl

@[simp] theorem endOperation_retag (q : Seq) (c d : Byte) (s : State) :
    endOperation c (retag q d s) = endOperation c s := rfl

theorem peerWrite_retag (reg : BusRegister) (b : Byte) (q : Seq) (c : Byte) (s : State) :
    peerWrite reg b (retag q c s) = retag q c (peerWrite reg b s) := by
  unfold peerWrite
  have h1 : (retag q c s).peer = s.peer := rfl
  have h2 : (retag q c s).freeCount = s.freeCount := rfl
  rw [h1, h2]
  cases s.peer with
  | oracle a => rfl
  | reference p =>
    have h3 : lateCycle p (retag q c s) = lateCycle p s := rfl
    dsimp only
    rw [h3]
    cases lateCycle p s <;> cases Config.latePerformed s.freeCount <;> rfl

theorem peerRead_retag (reg : BusRegister) (q : Seq) (c : Byte) (s : State) :
    peerRead reg (retag q c s) = ((peerRead reg s).1, retag q c (peerRead reg s).2) := by
  unfold peerRead
  have h1 : (retag q c s).peer = s.peer := rfl
  rw [h1]
  cases s.peer with
  | oracle a => cases a <;> rfl
  | reference p =>
    cases reg with
    | instruction => rfl
    | data =>
      show referenceDataRead p (retag q c s) = ((referenceDataRead p s).1, retag q c (referenceDataRead p s).2)
      unfold referenceDataRead
      have h2 : lateCycle p (retag q c s) = lateCycle p s := rfl
      have h3 : (retag q c s).freeCount = s.freeCount := rfl
      rw [h2, h3]
      cases lateCycle p s <;> cases Config.latePerformed s.freeCount <;> rfl

theorem enableFalls_retag (q : Seq) (c : Byte) (s : State) :
    enableFalls (retag q c s) = retag q c (enableFalls s) := by
  unfold enableFalls
  have h1 : (retag q c s).ctlDir = s.ctlDir := rfl
  have h2 : (retag q c s).rw = s.rw := rfl
  have h3 : (retag q c s).dbDir = s.dbDir := rfl
  rw [h1, h2, h3]
  cases s.ctlDir with
  | input =>
    unfold undrivenCycle
    have h4 : (retag q c s).peer = s.peer := rfl
    rw [h4]
    cases s.peer <;> rfl
  | output =>
    cases s.rw with
    | read => rfl
    | write =>
      cases s.dbDir with
      | output => exact peerWrite_retag _ _ _ _ _
      | input => exact peerWrite_retag s.rs (takeFreeByte s).1 q c (takeFreeByte s).2

theorem setEnable_retag (l : Level) (q : Seq) (c : Byte) (s : State) :
    setEnable l (retag q c s) = retag q c (setEnable l s) := by
  unfold setEnable
  have h1 : (retag q c s).e = s.e := rfl
  rw [h1]
  cases s.e <;> cases l
  case high.low => exact enableFalls_retag q c (emit (.en .low) { s with e := .low })
  all_goals rfl

theorem readDataLines_retag (q : Seq) (c : Byte) (s : State) :
    readDataLines (retag q c s) = ((readDataLines s).1, retag q c (readDataLines s).2) := by
  have h : dataLinesIn (retag q c s) = ((dataLinesIn s).1, retag q c (dataLinesIn s).2) := by
    unfold dataLinesIn
    by_cases hd : s.ctlDir = .output ∧ s.dbDir = .input ∧ s.rw = .read ∧ s.e = .high
    · rw [if_pos hd, if_pos (by exact hd), peerRead_retag]
      rfl
    · rw [if_neg hd, if_neg (by exact hd)]
      rfl
  unfold readDataLines
  rw [h]
  rfl

theorem writeCycle_retag (reg : BusRegister) (b : Byte) (q : Seq) (c : Byte) (s : State) :
    writeCycle reg b (retag q c s) = retag q c (writeCycle reg b s) := by
  rw [writeCycle_eq, writeCycle_eq]
  exact enableFalls_retag q c (writeLatched reg b s)

theorem readCycle_retag (reg : BusRegister) (q : Seq) (c : Byte) (s : State) :
    readCycle reg (retag q c s) = ((readCycle reg s).1, retag q c (readCycle reg s).2) := by
  unfold readCycle
  have h : readCycleOpen reg (retag q c s) = retag q c (readCycleOpen reg s) := by
    rw [readCycleOpen_eq, readCycleOpen_eq]
    rfl
  rw [h, readDataLines_retag]
  have h' : ∀ t, readCycleClose (retag q c t) = retag q c (readCycleClose t) := by
    intro t
    unfold readCycleClose
    have : delay .rdHold (retag q c t) = retag q c (delay .rdHold t) := rfl
    rw [this, setEnable_retag]
    rfl
  simp only [h']

theorem pollLoop_retag (more : Nat) (q : Seq) (c : Byte) (s : State) :
    pollLoop more (retag q c s) = { pollLoop more s with state := retag q c (pollLoop more s).state } := by
  induction more generalizing s with
  | zero =>
    unfold pollLoop pollAttempt
    simp only [readCycle_retag]
    cases busyBit (readCycle .instruction s).1 <;> rfl
  | succ more ih =>
    unfold pollLoop pollAttempt
    simp only [readCycle_retag]
    cases busyBit (readCycle .instruction s).1
    · rfl
    · exact ih (delay .pollGap (countAttempt (readCycle .instruction s).2))

theorem pollUntilReady_retag (q : Seq) (c : Byte) (s : State) :
    pollUntilReady (retag q c s) = { pollUntilReady s with state := retag q c (pollUntilReady s).state } :=
  pollLoop_retag _ q c (startPoll s)

theorem issueInstruction_retag (b : Byte) (q : Seq) (c : Byte) (s : State) :
    issueInstruction b (retag q c s) = retag q c (issueInstruction b s) := by
  unfold issueInstruction
  rw [pollUntilReady_retag]
  exact writeCycle_retag _ _ _ _ _

theorem writeData_retag (b : Byte) (q : Seq) (c : Byte) (s : State) :
    writeData b (retag q c s) = retag q c (writeData b s) := by
  unfold writeData
  rw [pollUntilReady_retag]
  exact writeCycle_retag _ _ _ _ _

theorem readAddress_retag (q : Seq) (c : Byte) (s : State) :
    readAddress (retag q c s) = ((readAddress s).1, retag q c (readAddress s).2) := by
  unfold readAddress
  rw [pollUntilReady_retag]
  rfl

theorem subInstruction_retag (op : LcdOpcode) (settings : Byte) (q : Seq) (c : Byte) (s : State) :
    subInstruction op settings (retag q c s) = retag q c (subInstruction op settings s) := by
  unfold subInstruction
  cases encodeSettings op settings with
  | some b => exact issueInstruction_retag _ _ _ _
  | none => rfl

end Sys2Proof.Machine
end

