-- ==== Sys2Proof/Laws/Sequencer.lean ====
section
/-! SUPPORT. What the sequencer does with the micro-operations of the shared operations: ticks over those of a cycle or
of a poll come to the state the operation itself gives (10_state R36). -/

namespace Sys2Proof.Machine

/-- Ticks lead from one state to the other, through no Idle state before the last. -/
def Reach (x y : State) : Prop := ∃ n, ticks n x = y ∧ ∀ m < n, (ticks m x).seq ≠ .idle

theorem ticks_add (a b : Nat) (s : State) : ticks (a + b) s = ticks b (ticks a s) := by
  induction a generalizing s with
  | zero => simp [ticks]
  | succ a ih =>
    rw [Nat.add_right_comm]
    simp [ticks, ih]

theorem Reach.refl (x : State) : Reach x x := ⟨0, rfl, by simp⟩

theorem Reach.trans {x y z : State} (h : Reach x y) (k : Reach y z) : Reach x z := by
  obtain ⟨n, h1, h2⟩ := h
  obtain ⟨m, k1, k2⟩ := k
  refine ⟨n + m, by rw [ticks_add, h1, k1], ?_⟩
  intro j hj
  by_cases hjn : j < n
  · exact h2 j hjn
  · obtain ⟨d, rfl⟩ := Nat.exists_eq_add_of_le (by omega : n ≤ j)
    rw [ticks_add, h1]
    exact k2 d (by omega)

/-- One micro-operation. -/
theorem Reach.perform (sampled : Byte) (op : MicroOp) (rest : List MicroOp) (s : State) :
    Reach (continueWith sampled (op :: rest) s)
      (perform sampled op rest (continueWith sampled (op :: rest) s)) :=
  ⟨1, rfl, fun m hm => by
    have : m = 0 := by omega
    subst this
    simp [ticks, continueWith, seqOf]⟩

theorem setEnable_status (l : Level) (s : State) : (setEnable l s).status = s.status := by
  cases l with
  | high => rw [setEnable_high]; rfl
  | low =>
    have h := setEnable_low s
    unfold PeerOnly at h
    rw [h]
    rfl

theorem readDataLines_status (s : State) : (readDataLines s).2.status = s.status := by
  have h := dataLinesIn_peerOnly s
  unfold PeerOnly at h
  simp only [readDataLines]
  rw [h]
  rfl

section Steps

variable (sampled : Byte) (rest : List MicroOp) (s : State)

theorem reach_setEnable (l : Level) :
    Reach (continueWith sampled (.setEnable l :: rest) s) (continueWith sampled rest (setEnable l s)) := by
  have h := Reach.perform sampled (.setEnable l) rest s
  have hr : setEnable l (continueWith sampled (.setEnable l :: rest) s) = retag _ s.status (setEnable l s) :=
    setEnable_retag l _ s.status s
  rw [← setEnable_status l s] at hr
  simp only [Machine.perform, hr] at h
  exact h

theorem reach_readDataLines :
    Reach (continueWith sampled (.readDataLines :: rest) s)
      (continueWith (readDataLines s).1 rest (readDataLines s).2) := by
  have h := Reach.perform sampled .readDataLines rest s
  have hr : readDataLines (continueWith sampled (.readDataLines :: rest) s) =
      ((readDataLines s).1, retag _ s.status (readDataLines s).2) := readDataLines_retag _ s.status s
  rw [← readDataLines_status s] at hr
  simp only [Machine.perform, hr] at h
  exact h

theorem reach_setDataDirection (d : Direction) :
    Reach (continueWith sampled (.setDataDirection d :: rest) s) (continueWith sampled rest (setDataDirection d s)) :=
  Reach.perform sampled _ rest s

theorem reach_setControlLines (reg : BusRegister) (rw : Transfer) :
    Reach (continueWith sampled (.setControlLines reg rw :: rest) s)
      (continueWith sampled rest (setControlLines reg rw s)) :=
  Reach.perform sampled _ rest s

theorem reach_setDataLines (b : Byte) :
    Reach (continueWith sampled (.setDataLines b :: rest) s) (continueWith sampled rest (setDataLines b s)) :=
  Reach.perform sampled _ rest s

theorem reach_delay (d : Delay) :
    Reach (continueWith sampled (.delay d :: rest) s) (continueWith sampled rest (delay d s)) :=
  Reach.perform sampled _ rest s

theorem reach_pollStart :
    Reach (continueWith sampled (.pollStart :: rest) s) (continueWith sampled rest (startPoll s)) :=
  Reach.perform sampled _ rest s

/-- A write cycle (R137). -/
theorem reach_writeCycle (reg : BusRegister) (b : Byte) :
    Reach (continueWith sampled (writeCycleOps reg b ++ rest) s) (continueWith sampled rest (writeCycle reg b s)) :=
  (reach_setControlLines sampled _ s reg .write).trans <| (reach_setDataLines sampled _ _ b).trans <|
    (reach_delay sampled _ _ .settle).trans <| (reach_setEnable sampled _ _ .high).trans <|
    (reach_delay sampled _ _ .enHold).trans (reach_setEnable sampled _ _ .low)

/-- A read cycle (R138). -/
theorem reach_readCycle (reg : BusRegister) :
    Reach (continueWith sampled (readCycleOps reg ++ rest) s)
      (continueWith (readCycle reg s).1 rest (readCycle reg s).2) :=
  (reach_setDataDirection sampled _ s .input).trans <| (reach_setControlLines sampled _ _ reg .read).trans <|
    (reach_setEnable sampled _ _ .high).trans <| (reach_delay sampled _ _ .rdSetup).trans <|
    (reach_readDataLines sampled _ _).trans <| (reach_delay _ _ _ .rdHold).trans <|
    (reach_setEnable _ _ _ .low).trans (reach_setDataDirection _ _ _ .output)

end Steps

theorem readCycle_keeps (reg : BusRegister) (s : State) :
    (readCycle reg s).2.attempt = s.attempt ∧ (readCycle reg s).2.cfg = s.cfg := by
  have h := readCycle_peerOnly reg s
  unfold PeerOnly at h
  rw [h]
  exact ⟨rfl, rfl⟩

theorem reach_pollLoop (more : Nat) (sampled : Byte) (rest : List MicroOp) (s : State)
    (h : s.attempt.toNat + more + 1 = s.cfg.maxAttempts) :
    Reach (continueWith sampled (attemptOps ++ rest) s)
      (continueWith (pollLoop more s).sampled rest (pollLoop more s).state) := by
  induction more generalizing sampled s with
  | zero =>
    have hM := Config.maxAttempts_le s.cfg
    obtain ⟨ha, hc⟩ := readCycle_keeps .instruction s
    have h1 := (reach_readCycle sampled (.pollTest :: rest) s .instruction).trans
      (Reach.perform (readCycle .instruction s).1 .pollTest rest (readCycle .instruction s).2)
    have e : (countAttempt (readCycle .instruction s).2).attempt.toNat = (readCycle .instruction s).2.cfg.maxAttempts := by
      simp [countAttempt, ha, hc]
      omega
    unfold pollLoop pollAttempt
    dsimp only
    change Reach _ (if busyBit (readCycle .instruction s).1 then
      if (countAttempt (readCycle .instruction s).2).attempt.toNat = (readCycle .instruction s).2.cfg.maxAttempts
      then _ else _ else _) at h1
    rw [if_pos e] at h1
    cases hb : busyBit (readCycle .instruction s).1 <;> rw [hb] at h1 <;> exact h1
  | succ more ih =>
    have hM := Config.maxAttempts_le s.cfg
    obtain ⟨ha, hc⟩ := readCycle_keeps .instruction s
    have h1 := (reach_readCycle sampled (.pollTest :: rest) s .instruction).trans
      (Reach.perform (readCycle .instruction s).1 .pollTest rest (readCycle .instruction s).2)
    have e : (countAttempt (readCycle .instruction s).2).attempt.toNat ≠ (readCycle .instruction s).2.cfg.maxAttempts := by
      simp [countAttempt, ha, hc]
      omega
    unfold pollLoop pollAttempt
    dsimp only
    change Reach _ (if busyBit (readCycle .instruction s).1 then
      if (countAttempt (readCycle .instruction s).2).attempt.toNat = (readCycle .instruction s).2.cfg.maxAttempts
      then _ else _ else _) at h1
    rw [if_neg e] at h1
    cases hb : busyBit (readCycle .instruction s).1
    · rw [hb] at h1
      exact h1
    · rw [hb] at h1
      exact h1.trans <| (reach_delay _ _ (countAttempt (readCycle .instruction s).2) .pollGap).trans <|
        ih _ (delay .pollGap (countAttempt (readCycle .instruction s).2))
          (by simp [delay, emit, countAttempt, ha, hc]; omega)

/-- A poll (R152). -/
theorem reach_poll (sampled : Byte) (rest : List MicroOp) (s : State) :
    Reach (continueWith sampled (pollOps ++ rest) s)
      (continueWith (pollUntilReady s).sampled rest (pollUntilReady s).state) := by
  have h := Config.maxAttempts_pos s.cfg
  exact (reach_pollStart sampled _ s).trans
    (reach_pollLoop (s.cfg.maxAttempts - 1) sampled rest (startPoll s) (by simp [startPoll]; omega))

end Sys2Proof.Machine
end

