-- ==== Sys2Proof/Laws/Ticks.lean ====
section
/-! SUPPORT. What a micro-operation keeps, said once: the peer's memories in canonical form, the events traced so far,
and what only the host or a reset changes. -/

namespace Sys2Proof.Machine

/-! ### The peer's memories -/

theorem peerAfterWrite_wf (reg : BusRegister) (b : Byte) {p : RefPeer} (h : p.wf = true) :
    (peerAfterWrite reg b p).wf = true := by
  cases reg with
  | data => exact RefPeer.wf_dataWrite h b
  | instruction =>
    show (peerAfterInstruction b p).wf = true
    unfold peerAfterInstruction
    split
    · rfl
    · exact RefPeer.wf_instructionWrite h b

theorem peerWrite_wf (reg : BusRegister) (b : Byte) {s : State} (h : s.peer.wf = true) :
    (peerWrite reg b s).peer.wf = true := by
  unfold peerWrite
  split
  · exact h
  · rename_i p hp
    rw [hp] at h
    split
    · split
      · exact peerAfterWrite_wf reg b h
      · rw [countFree_peer, hp]
        exact h
    · exact peerAfterWrite_wf reg b h

theorem peerRead_wf (reg : BusRegister) {s : State} (h : s.peer.wf = true) : (peerRead reg s).2.peer.wf = true := by
  unfold peerRead
  split
  · exact h
  · rfl
  · rename_i p hp
    have hw : p.wf = true := by
      rw [hp] at h
      exact h
    split
    · exact hw
    · unfold referenceDataRead
      split
      · split
        · exact hw
        · exact h
      · exact hw

theorem enableFalls_wf {s : State} (h : s.peer.wf = true) : (enableFalls s).peer.wf = true := by
  unfold enableFalls
  split
  · unfold undrivenCycle
    split
    · exact h
    · exact RefPeer.wf_unknown _ _
  · split
    · exact h
    · split
      · exact peerWrite_wf _ _ h
      · exact peerWrite_wf _ _ (s := (takeFreeByte s).2) h

theorem setEnable_wf (l : Level) {s : State} (h : s.peer.wf = true) : (setEnable l s).peer.wf = true := by
  unfold setEnable
  split
  · exact enableFalls_wf h
  · exact h

theorem readDataLines_wf {s : State} (h : s.peer.wf = true) : (readDataLines s).2.peer.wf = true := by
  unfold readDataLines dataLinesIn
  split
  · exact peerRead_wf _ h
  · exact h

/-! ### One micro-operation -/

/-- What a micro-operation keeps. -/
def TickFrame (s t : State) : Prop :=
  SameSurroundings s t ∧ s.trace <+: t.trace ∧ (s.peer.wf = true → t.peer.wf = true)

theorem TickFrame.rfl (s : State) : TickFrame s s :=
  ⟨⟨Eq.refl _, Eq.refl _, Eq.refl _, Eq.refl _, Eq.refl _⟩, List.prefix_rfl, id⟩

theorem TickFrame.trans {s t u : State} (h : TickFrame s t) (k : TickFrame t u) : TickFrame s u := by
  obtain ⟨⟨a1, a2, a3, a4, a5⟩, a6, a7⟩ := h
  obtain ⟨⟨b1, b2, b3, b4, b5⟩, b6, b7⟩ := k
  exact ⟨⟨b1.trans a1, b2.trans a2, b3.trans a3, b4.trans a4, b5.trans a5⟩, a6.trans b6, b7 ∘ a7⟩

/-- A change of the pins, the registers and SEQ alone, with one event or none. -/
theorem TickFrame.of_eq {s t : State} (h : SameSurroundings s t) (ht : s.trace <+: t.trace) (hp : t.peer = s.peer) :
    TickFrame s t := ⟨h, ht, fun hw => by rw [hp]; exact hw⟩

theorem setEnable_tickFrame (l : Level) (s : State) : TickFrame s (setEnable l s) := by
  refine ⟨?_, ?_, fun h => setEnable_wf l h⟩
  all_goals
    cases l with
    | high => rw [setEnable_high]; first | exact ⟨rfl, rfl, rfl, rfl, rfl⟩ | exact List.prefix_append _ _
    | low =>
      have h := setEnable_low s
      unfold PeerOnly at h
      rw [h]
      first | exact ⟨rfl, rfl, rfl, rfl, rfl⟩ | exact List.prefix_append _ _

theorem readDataLines_tickFrame (s : State) : TickFrame s (readDataLines s).2 := by
  have h : PeerOnly s (dataLinesIn s).2 := dataLinesIn_peerOnly s
  unfold PeerOnly at h
  refine ⟨?_, ?_, fun hw => readDataLines_wf hw⟩ <;> simp only [readDataLines] <;> rw [h]
  · exact ⟨rfl, rfl, rfl, rfl, rfl⟩
  · exact List.prefix_append _ _

theorem perform_tickFrame (sampled : Byte) (op : MicroOp) (rest : List MicroOp) (s : State) :
    TickFrame s (perform sampled op rest s) := by
  cases op with
  | setEnable l => exact setEnable_tickFrame l s
  | readDataLines => exact readDataLines_tickFrame s
  | pollTest =>
    show TickFrame s (Machine.pollTest sampled rest (countAttempt s))
    unfold Machine.pollTest
    split
    · split
      · exact .of_eq ⟨rfl, rfl, rfl, rfl, rfl⟩ (List.prefix_append _ _) rfl
      · exact .of_eq ⟨rfl, rfl, rfl, rfl, rfl⟩ List.prefix_rfl rfl
    · exact .of_eq ⟨rfl, rfl, rfl, rfl, rfl⟩ List.prefix_rfl rfl
  | setControlDirection _ | setDataDirection _ | setControlLines _ _ | setDataLines _ | delay _ =>
    exact .of_eq ⟨rfl, rfl, rfl, rfl, rfl⟩ (List.prefix_append _ _) rfl
  | pollStart | latchAddress | latchData | branch _ _ | setInitd | finish _ =>
    exact .of_eq ⟨rfl, rfl, rfl, rfl, rfl⟩ List.prefix_rfl rfl

theorem tick_tickFrame (s : State) : TickFrame s (tick s) := by
  unfold tick
  split
  · exact .rfl s
  · exact perform_tickFrame _ _ _ s

theorem ticks_tickFrame (n : Nat) (s : State) : TickFrame s (ticks n s) := by
  induction n generalizing s with
  | zero => exact .rfl s
  | succ n ih => exact (tick_tickFrame s).trans (ih (tick s))

/-- An idle sequencer stays idle. -/
theorem ticks_of_idle (n : Nat) {s : State} (h : s.seq = .idle) : ticks n s = s := by
  induction n with
  | zero => rfl
  | succ n ih =>
    have : tick s = s := by
      unfold tick
      rw [h]
    rw [ticks, this, ih]

end Sys2Proof.Machine
end

