-- ==== Sys2Proof/Tests/Slice0.lean ====
section
/-! SUPPORT. Tests: well-formedness, decoding of words written out from 30_encoding, single steps with the results of
95_test_vectors, and for every statement a concrete case that meets its hypotheses (the `witness_` theorems). -/

namespace Sys2Proof.Tests

open Sys2Proof Sys2Proof.Machine

/-! ### Well-formedness: each check refuses an ill-formed term (R105) -/

theorem test_wellFormed_entryModeSet :
    (Instr.bwEntryModeSet 0x04#8).wellFormed = false ∧ (Instr.bwEntryModeSet 0x03#8).wellFormed = true := by decide

theorem test_wellFormed_displayControl :
    (Instr.bwDisplayControl 0x08#8).wellFormed = false ∧ (Instr.bwDisplayControl 0x07#8).wellFormed = true := by decide

theorem test_wellFormed_cursorDisplayShift :
    (Instr.bwCursorDisplayShift 0x10#8).wellFormed = false ∧ (Instr.bwCursorDisplayShift 0x0F#8).wellFormed = true := by
  decide

theorem test_wellFormed_functionSet :
    (Instr.bwFunctionSet 0x20#8).wellFormed = false ∧ (Instr.bwFunctionSet 0x1F#8).wellFormed = true := by decide

theorem test_wellFormed_setCgramAddress :
    (Instr.bwSetCgramAddress 0x40#8).wellFormed = false ∧ (Instr.bwSetCgramAddress 0x3F#8).wellFormed = true := by decide

theorem test_wellFormed_setDdramAddress :
    (Instr.bwSetDdramAddress 0x80#8).wellFormed = false ∧ (Instr.bwSetDdramAddress 0x7F#8).wellFormed = true := by decide

/-! ### Decoding: a word of each row, bit by bit from the tables of R101 and R104 -/

theorem test_decode_lcd_instructions :
    decode (.hc16 0b0000000011111111#16) = .ok (.clear 0xFF#8) ∧
    decode (.hc16 0b0000000100000001#16) = .ok (.home 0x01#8) ∧
    decode (.hc16 0b0000001000000011#16) = .ok (.entry 0x03#8) ∧
    decode (.hc16 0b0000001100000111#16) = .ok (.dispctl 0x07#8) ∧
    decode (.hc16 0b0000010000001100#16) = .ok (.shift 0x0C#8) ∧
    decode (.hc16 0b0000010100011000#16) = .ok (.funcset 0x18#8) ∧
    decode (.hc16 0b0000011000111111#16) = .ok (.setcg 0x3F#8) ∧
    decode (.hc16 0b0000011101000000#16) = .ok (.setdd 0x40#8) := by decide

theorem test_decode_transfers_and_polls :
    decode (.hc16 0b0000100001000001#16) = .ok (.wrdata 0x41#8) ∧
    decode (.hc16 0b0000100100000000#16) = .ok (.rddata 0x00#8) ∧
    decode (.hc16 0b0000101000000000#16) = .ok (.rdac 0x00#8) ∧
    decode (.hc16 0b0000101100000000#16) = .ok (.waitbusy 0x00#8) := by decide

theorem test_decode_composites :
    decode (.hc16 0b0000110011111111#16) = .ok (.init 0xFF#8) ∧
    decode (.hc16 0b0001000001000001#16) = .ok (.putch 0x41#8) ∧
    decode (.hc16 0b0001000100000000#16) = .ok (.bksp 0x00#8) ∧
    decode (.hc16 0b0001001000000000#16) = .ok (.enter 0x00#8) ∧
    decode (.hc16 0b0001001100000000#16) = .ok (.curleft 0x00#8) ∧
    decode (.hc16 0b0001010010101010#16) = .ok (.curright 0xAA#8) := by decide

theorem test_decode_reserved :
    decode (.hc16 0x0D00#16) = .error (.reservedOp 0x0D#8) ∧ decode (.hc16 0x0F00#16) = .error (.reservedOp 0x0F#8) ∧
    decode (.hc16 0x1500#16) = .error (.reservedOp 0x15#8) ∧
    decode (.hc16 0xFFFF#16) = .error (.reservedOp 0xFF#8) := by decide

theorem test_decode_instruction_write_words :
    decode (.bus10 0b0000000001#10) = .ok .bwClearDisplay ∧
    decode (.bus10 0b0000000010#10) = .ok .bwReturnHome ∧
    decode (.bus10 0b0000000110#10) = .ok (.bwEntryModeSet 0x02#8) ∧
    decode (.bus10 0b0000001100#10) = .ok (.bwDisplayControl 0x04#8) ∧
    decode (.bus10 0b0000010100#10) = .ok (.bwCursorDisplayShift 0x04#8) ∧
    decode (.bus10 0b0000111000#10) = .ok (.bwFunctionSet 0x18#8) ∧
    decode (.bus10 0b0001001000#10) = .ok (.bwSetCgramAddress 0x08#8) ∧
    decode (.bus10 0b0011000000#10) = .ok (.bwSetDdramAddress 0x40#8) := by decide

theorem test_decode_other_bus_words :
    decode (.bus10 0b0110010100#10) = .ok (.bwStatusRead true 0x14#7) ∧
    decode (.bus10 0b1001000001#10) = .ok (.bwDataWrite 0x41#8) ∧
    decode (.bus10 0b1101000001#10) = .ok (.bwDataRead 0x41#8) ∧
    decode (.bus10 0b0000000000#10) = .error (.noBusWord 0x000#10) ∧
    decode (.bus10 0b0000000011#10) = .error (.noBusWord 0x003#10) := by decide

theorem test_decodeTableWord :
    decodeTableWord 16 0x1041 = some (.putch 0x41#8) ∧ decodeTableWord 10 0x241 = some (.bwDataWrite 0x41#8) ∧
    decodeTableWord 16 0xFFFF = none := by decide

/-! ### A bench for single steps -/

/-- Initialised LCDC, idle, with something coming in and a peer on the bus. -/
def bench (p : Peer) (inputs : List Input) : State :=
  { State.reset with ctlDir := .output, dbDir := .output, flags := 0x02#8, peer := p, inputs := inputs }

/-- A reference peer as INIT leaves it (R204), its address counter at `a`. -/
def cursorAt (a : Address) : RefPeer :=
  { RefPeer.powerUp with ac := a, id := true, dl := true, n := true }

/-- MAX_ATTEMPTS = n + 1. -/
def withBudget (n : Fin 255) (s : State) : State := { s with cfg := { s.cfg with budget := n } }

/-- The state after one step, where there is one. -/
def stepped (s : State) : Option State :=
  match step s with
  | .next t => some t
  | .fault _ | .refused _ => none

/-- The transactions, STATUS, POLLRES, RDATA and FLAGS after one step. -/
def shown (s : State) : Option (List Txn × Byte × Byte × Byte × Byte) :=
  (stepped s).map fun t => (transactions t.trace, t.status, t.pollres, t.rdata, t.flags)

/-- The reference peer after one step. -/
def peerShown (s : State) : Option RefPeer :=
  (stepped s).bind fun t =>
    match t.peer with
    | .reference p => some p
    | .oracle _ => none

/-- A command word written to CMD, with the reference peer at `a`. -/
def command (w : CommandWord) (a : Address) : State := bench (.reference (cursorAt a)) [.write 0 w]

/-- A bus word alone, with the reference peer at `a`. -/
def cycle (w : BusWord) (a : Address) : State := bench (.reference (cursorAt a)) [.busWord w]

/-- A command word written to CMD, with an oracle that answers these bytes. -/
def answered (w : CommandWord) (answers : List Byte) : State := bench (.oracle answers) [.write 0 w]

/-! ### LCD instructions (95_test_vectors T3, T9, S1) -/

theorem test_clear_ignores_arg :
    shown (command 0x00FF#16 0x05#7) =
      some ([.read .instruction 0x05#8, .write .instruction 0x01#8], 0x00#8, 0x02#8, 0x00#8, 0x02#8) := by decide

theorem test_clear_after_timeout :
    shown (withBudget 2 (answered 0x0000#16 [0x85#8, 0x85#8, 0x85#8])) =
      some ([.read .instruction 0x85#8, .wait .pollGap, .read .instruction 0x85#8, .wait .pollGap,
        .read .instruction 0x85#8, .timeout, .write .instruction 0x01#8], 0x00#8, 0x04#8, 0x00#8, 0x03#8) := by decide

theorem test_home_ignores_arg :
    shown (command 0x0101#16 0x05#7) =
      some ([.read .instruction 0x05#8, .write .instruction 0x02#8], 0x00#8, 0x02#8, 0x00#8, 0x02#8) := by decide

theorem test_entry_highest :
    shown (command 0x0203#16 0x05#7) =
      some ([.read .instruction 0x05#8, .write .instruction 0x07#8], 0x00#8, 0x02#8, 0x00#8, 0x02#8) := by decide

theorem test_entry_invalid :
    shown (command 0x0204#16 0x05#7) = some ([], 0x01#8, 0x00#8, 0x00#8, 0x02#8) := by decide

theorem test_dispctl_highest :
    shown (command 0x0307#16 0x05#7) =
      some ([.read .instruction 0x05#8, .write .instruction 0x0F#8], 0x00#8, 0x02#8, 0x00#8, 0x02#8) := by decide

theorem test_dispctl_invalid :
    shown (command 0x0308#16 0x05#7) = some ([], 0x01#8, 0x00#8, 0x00#8, 0x02#8) := by decide

theorem test_shift_passes_unnamed_bits :
    shown (command 0x040F#16 0x05#7) =
      some ([.read .instruction 0x05#8, .write .instruction 0x1F#8], 0x00#8, 0x02#8, 0x00#8, 0x02#8) := by decide

theorem test_shift_invalid :
    shown (command 0x0410#16 0x05#7) = some ([], 0x01#8, 0x00#8, 0x00#8, 0x02#8) := by decide

theorem test_funcset_highest :
    shown (command 0x051F#16 0x05#7) =
      some ([.read .instruction 0x05#8, .write .instruction 0x3F#8], 0x00#8, 0x02#8, 0x00#8, 0x02#8) := by decide

theorem test_funcset_invalid :
    shown (command 0x0520#16 0x05#7) = some ([], 0x01#8, 0x00#8, 0x00#8, 0x02#8) := by decide

theorem test_setcg_highest :
    shown (command 0x063F#16 0x05#7) =
      some ([.read .instruction 0x05#8, .write .instruction 0x7F#8], 0x00#8, 0x02#8, 0x00#8, 0x02#8) := by decide

theorem test_setcg_invalid :
    shown (command 0x0640#16 0x05#7) = some ([], 0x01#8, 0x00#8, 0x00#8, 0x02#8) := by decide

theorem test_setdd_highest :
    shown (command 0x077F#16 0x05#7) =
      some ([.read .instruction 0x05#8, .write .instruction 0xFF#8], 0x00#8, 0x02#8, 0x00#8, 0x02#8) := by decide

theorem test_setdd_invalid :
    shown (command 0x0780#16 0x05#7) = some ([], 0x01#8, 0x00#8, 0x00#8, 0x02#8) := by decide

/-! ### Data transfer and polls (T5, T2, S6) -/

theorem test_wrdata_decrement :
    peerShown (bench (.reference { cursorAt 0x40#7 with id := false }) [.write 0 0x0841#16]) =
      some { cursorAt 0x27#7 with id := false, ddram := [(0x40, 0x41#8)] } := by decide

theorem test_wrdata_cgram :
    peerShown (bench (.reference { cursorAt 0x08#7 with ramsel := .cgram }) [.write 0 0x081F#16]) =
      some { cursorAt 0x09#7 with ramsel := .cgram, cgram := [(0x08, 0x1F#8)] } := by decide

theorem test_rddata :
    shown (bench (.reference { cursorAt 0x05#7 with ddram := [(0x05, 0x41#8)] }) [.write 0 0x0900#16]) =
      some ([.read .instruction 0x05#8, .read .data 0x41#8], 0x00#8, 0x02#8, 0x41#8, 0x02#8) := by decide

theorem test_rddata_steps :
    peerShown (bench (.reference { cursorAt 0x27#7 with ddram := [(0x05, 0x41#8)] }) [.write 0 0x0900#16]) =
      some { cursorAt 0x40#7 with ddram := [(0x05, 0x41#8)] } := by decide

theorem test_rdac_after_timeout :
    shown (withBudget 0 (answered 0x0A00#16 [0xC0#8])) =
      some ([.read .instruction 0xC0#8, .timeout], 0x00#8, 0x04#8, 0x40#8, 0x03#8) := by decide

theorem test_waitbusy_timeout :
    shown (withBudget 2 (answered 0x0B00#16 [0x80#8, 0x80#8, 0x80#8])) =
      some ([.read .instruction 0x80#8, .wait .pollGap, .read .instruction 0x80#8, .wait .pollGap,
        .read .instruction 0x80#8, .timeout], 0x00#8, 0x04#8, 0x00#8, 0x03#8) := by decide

theorem test_waitbusy_ready_on_last_attempt :
    shown (withBudget 2 (answered 0x0B00#16 [0x80#8, 0x80#8, 0x00#8])) =
      some ([.read .instruction 0x80#8, .wait .pollGap, .read .instruction 0x80#8, .wait .pollGap,
        .read .instruction 0x00#8], 0x00#8, 0x02#8, 0x00#8, 0x02#8) := by decide

/-! ### INIT (T6) -/

set_option maxRecDepth 4000 in
theorem test_init_from_reset :
    shown { State.reset with inputs := [.write 0 0x0C00#16] } =
      some ([.wait .init1, .write .instruction 0x30#8, .wait .init2, .write .instruction 0x30#8, .wait .init3,
        .write .instruction 0x30#8, .read .instruction 0x00#8, .write .instruction 0x38#8, .read .instruction 0x00#8,
        .write .instruction 0x08#8, .read .instruction 0x00#8, .write .instruction 0x01#8, .read .instruction 0x00#8,
        .write .instruction 0x06#8], 0x00#8, 0x02#8, 0x00#8, 0x02#8) := by decide

set_option maxRecDepth 4000 in
theorem test_init_pin_events :
    (stepped { State.reset with inputs := [.write 0 0x0C00#16] }).map
        (fun t => (t.trace.length, t.trace.take 4, t.attempt)) =
      some (81, [.en .low, .cdir .output, .ddir .output, .ctl .instruction .write], 1#8) := by decide

/-! ### The composites (S3, S4, S5, T8, T9) -/

theorem test_putch_corrects_line_end :
    shown (command 0x1041#16 0x13#7) =
      some ([.read .instruction 0x13#8, .write .data 0x41#8, .read .instruction 0x14#8, .read .instruction 0x14#8,
        .write .instruction 0xC0#8], 0x00#8, 0x02#8, 0x14#8, 0x02#8) := by decide

theorem test_putch_false_match :
    peerShown (command 0x1041#16 0x3F#7) = some { cursorAt 0x54#7 with ddram := [(0x3F, 0x41#8)] } := by decide

theorem test_bksp_line_begin :
    shown (command 0x1100#16 0x40#7) =
      some ([.read .instruction 0x40#8, .write .instruction 0x04#8, .read .instruction 0x40#8,
        .read .instruction 0x40#8, .write .instruction 0x93#8, .read .instruction 0x13#8, .write .data 0x20#8,
        .read .instruction 0x12#8, .write .instruction 0x14#8, .read .instruction 0x13#8,
        .write .instruction 0x06#8], 0x00#8, 0x02#8, 0x40#8, 0x02#8) := by decide

theorem test_bksp_blanks :
    peerShown (bench (.reference { cursorAt 0x01#7 with ddram := [(0x00, 0x41#8)] }) [.write 0 0x1100#16]) =
      some (cursorAt 0x00#7) := by decide

theorem test_enter_line3 :
    shown (command 0x1200#16 0x27#7) =
      some ([.read .instruction 0x27#8, .read .instruction 0x27#8, .write .instruction 0xD4#8], 0x00#8, 0x02#8, 0x27#8,
        0x02#8) := by decide

theorem test_enter_after_timeout :
    shown (withBudget 1 (answered 0x1200#16 [0xC5#8, 0xC5#8, 0x45#8])) =
      some ([.read .instruction 0xC5#8, .wait .pollGap, .read .instruction 0xC5#8, .timeout, .read .instruction 0x45#8,
        .write .instruction 0x94#8], 0x00#8, 0x02#8, 0x45#8, 0x03#8) := by decide

theorem test_curleft_line_begin :
    shown (command 0x1300#16 0x00#7) =
      some ([.read .instruction 0x00#8, .read .instruction 0x00#8, .write .instruction 0xE7#8], 0x00#8, 0x02#8, 0x00#8,
        0x02#8) := by decide

theorem test_curleft_inside : peerShown (command 0x1300#16 0x05#7) = some (cursorAt 0x04#7) := by decide

theorem test_curright_line_end :
    shown (command 0x1400#16 0x53#7) =
      some ([.read .instruction 0x53#8, .read .instruction 0x53#8, .write .instruction 0x94#8], 0x00#8, 0x02#8, 0x53#8,
        0x02#8) := by decide

theorem test_curright_inside : peerShown (command 0x1400#16 0x05#7) = some (cursorAt 0x06#7) := by decide

/-! ### Bus words (T1, R87 to R91) -/

theorem test_bwFunctionSet_pins :
    (stepped (cycle 0x038#10 0x05#7)).map (fun t => (t.trace, t.rs, t.rw, t.dbOut)) =
      some ([.ctl .instruction .write, .data 0x38#8, .wait .settle, .en .high, .wait .enHold, .en .low],
        .instruction, .write, 0x38#8) := by decide

theorem test_bwDataWrite_pins :
    (stepped (cycle 0x241#10 0x05#7)).map (fun t => (t.trace, t.rs, t.rw, t.dbOut)) =
      some ([.ctl .data .write, .data 0x41#8, .wait .settle, .en .high, .wait .enHold, .en .low],
        .data, .write, 0x41#8) := by decide

theorem test_bwStatusRead_pins :
    (stepped (bench (.oracle [0x94#8]) [.busWord 0x194#10])).map (fun t => (t.trace, t.rs, t.rw, t.dbDir)) =
      some ([.ddir .input, .ctl .instruction .read, .en .high, .wait .rdSetup, .sample 0x94#8, .wait .rdHold, .en .low,
        .ddir .output], .instruction, .read, .output) := by decide

theorem test_bwDataRead_pins :
    (stepped (bench (.oracle [0x41#8]) [.busWord 0x341#10])).map (fun t => (t.trace, t.rs, t.rw, t.dbDir)) =
      some ([.ddir .input, .ctl .data .read, .en .high, .wait .rdSetup, .sample 0x41#8, .wait .rdHold, .en .low,
        .ddir .output], .data, .read, .output) := by decide

theorem test_bwClearDisplay :
    peerShown (bench (.reference { cursorAt 0x05#7 with id := false, sh := 3, ddram := [(0x05, 0x41#8)] })
      [.busWord 0x001#10]) = some (cursorAt 0x00#7) := by decide

theorem test_bwReturnHome :
    peerShown (bench (.reference { cursorAt 0x05#7 with id := false, sh := 3, ddram := [(0x05, 0x41#8)] })
      [.busWord 0x002#10]) = some { cursorAt 0x00#7 with id := false, ddram := [(0x05, 0x41#8)] } := by decide

theorem test_bwEntryModeSet :
    peerShown (cycle 0x005#10 0x05#7) = some { cursorAt 0x05#7 with id := false, s := true } := by decide

theorem test_bwDisplayControl :
    peerShown (cycle 0x00E#10 0x05#7) = some { cursorAt 0x05#7 with d := true, c := true } := by decide

theorem test_bwCursorDisplayShift_display :
    peerShown (cycle 0x01C#10 0x05#7) = some { cursorAt 0x05#7 with sh := 1 } := by decide

theorem test_bwCursorDisplayShift_cursor : peerShown (cycle 0x010#10 0x40#7) = some (cursorAt 0x27#7) := by decide

theorem test_bwFunctionSet_modes :
    peerShown (cycle 0x034#10 0x05#7) = some { cursorAt 0x05#7 with n := false, f := true } := by decide

/-- R285: in one-line mode a peer of which nothing more is known stores the byte; where its address goes is open. -/
theorem test_one_line_write_stores :
    (peerShown (bench (.reference { cursorAt 0x27#7 with n := false }) [.write 0 0x0841#16])).map
      (fun p => (p.ddram, p.n, p.sh)) = some ([(0x27, 0x41#8)], false, 0) := by decide

theorem test_one_line_byTable_steps :
    (peerShown (bench (.reference { cursorAt 0x27#7 with n := false, oneLine := .byTable }) [.write 0 0x0841#16])).map
      (fun p => p.ac) = some 0x40#7 := by decide

theorem test_bwSetCgramAddress :
    peerShown (cycle 0x07F#10 0x05#7) = some { cursorAt 0x3F#7 with ramsel := .cgram } := by decide

theorem test_bwSetDdramAddress : peerShown (cycle 0x0C0#10 0x05#7) = some (cursorAt 0x40#7) := by decide

/-! ### The pin-level checker: what R140 forbids is refused -/

theorem test_checker_samples_exactly_once :
    (PinView.run ⟨.output, .between⟩ [.ddir .input, .ctl .data .read, .en .high, .wait .rdSetup, .wait .rdHold,
      .en .low]) = none ∧
    (PinView.run ⟨.output, .between⟩ [.ddir .input, .ctl .data .read, .en .high, .sample 0x00#8, .sample 0x00#8]) =
      none ∧
    (PinView.run ⟨.output, .between⟩ [.ddir .input, .ctl .data .read, .en .high, .ddir .output]) = none ∧
    (PinView.run ⟨.output, .between⟩ [.ddir .input, .ctl .data .read, .sample 0x00#8]) = none := by decide

theorem test_checker_holds_the_lines :
    (PinView.run ⟨.output, .between⟩ [.ctl .data .write, .data 0x41#8, .data 0x42#8]) = none ∧
    (PinView.run ⟨.output, .between⟩ [.ctl .data .write, .ctl .instruction .write]) = none ∧
    (PinView.run ⟨.output, .between⟩ [.ctl .data .write, .data 0x41#8, .ctl .instruction .write]) = none ∧
    (PinView.run ⟨.output, .between⟩ [.ctl .data .write, .data 0x41#8, .wait .settle, .ddir .input]) = none ∧
    (PinView.run ⟨.output, .between⟩ [.ctl .data .write, .data 0x41#8, .en .high, .data 0x42#8]) = none := by decide

/-! ### The host and reset (T10, R26, R31, R270) -/

theorem test_reserved_word_after_reset :
    stepped { State.reset with inputs := [.write 0 0xFFFF#16] } =
      some { State.reset with cmd := 0xFFFF#16, status := 0x01#8 } := by decide

theorem test_host_reads_flags :
    (stepped { State.reset with flags := 0xFF#8, inputs := [.read 4] }).map (fun t => t.hostOut) = some 0x0003#16 := by
  decide

theorem test_host_register_5 :
    step { State.reset with inputs := [.read 5] } = .fault (.noSuchHostRegister 5) := by rfl

theorem test_no_bus_word :
    step { State.reset with inputs := [.busWord 0x003#10] } = .refused (.notABusWord 0x003#10) := by rfl

/-- An operation with two micro-operations done, and a reset arriving. -/
def interrupted : State :=
  { ticks 2 (beginOperation (.waitbusy 0x00#8) (bench (.oracle [0x00#8]) [])) with inputs := [.reset] }

theorem test_reset_abandons :
    interrupted.seq ≠ .idle ∧
      (stepped interrupted).map (fun t => (t.seq, t.dbDir, t.flags, t.trace.length)) =
        some (.idle, .input, 0x00#8, 1) := by decide

/-- WAITBUSY cut short by a reset after `n` micro-operations. -/
def cutAfter (n : Nat) : State := bench (.oracle [0x00#8]) [.writeCutShort 0x0B00#16 n]

theorem test_writeCutShort_traces_a_prefix :
    (stepped (cutAfter 3)).map (fun t => (t.cmd, t.ctlDir, t.trace)) =
      some (0x0000#16, .input, [.ddir .input, .ctl .instruction .read]) ∧
    (stepped (cutAfter 14)).map (fun t => (t.cmd, t.ctlDir, t.trace.length)) = some (0x0000#16, .input, 8) := by decide

/-- An operation runs and the host's next access waits (R27). -/
theorem test_step_while_running :
    (stepped { ticks 2 (beginOperation (.waitbusy 0x00#8) (bench (.oracle [0x00#8]) [])) with
        inputs := [.write 0 0x0041#16] }).map (fun t => (t.inputs, t.cmd, t.trace)) =
      some ([.write 0 0x0041#16], 0x0000#16, [.ddir .input, .ctl .instruction .read]) := by decide

theorem test_ticks_run_waitbusy :
    ticks 11 (beginOperation (.waitbusy 0x00#8) (bench (.oracle [0x00#8]) [])) =
      endOperation codeSuccess (pollUntilReady (bench (.oracle [0x00#8]) [])).state := by decide

theorem test_withFetchWord :
    (stepped (State.withFetchWord State.reset 16 0x0204)).map (fun t => (t.cmd, t.status)) =
      some (0x0204#16, 0x01#8) := by decide

/-! ### A concrete case for every statement with hypotheses -/

/-- The reference peer attached, DDRAM selected, at `a`. -/
theorem attached_bench (a : Address) (inputs : List Input) :
    Attached (bench (.reference (cursorAt a)) inputs) (cursorAt a) :=
  ⟨rfl, rfl, show 0 < 254 by decide, show 0 < 254 by decide⟩

theorem witness_DecodeOfEncodeIsTheInstruction :
    (Instr.setdd 0xFF#8).wellFormed = true ∧ (Instr.bwSetDdramAddress 0x7F#8).wellFormed = true := by decide

theorem witness_EncodeOfDecodeIsTheWord :
    decode (.hc16 0x14AA#16) = .ok (.curright 0xAA#8) ∧ decode (.bus10 0x3FF#10) = .ok (.bwDataRead 0xFF#8) := by decide

theorem witness_ReservedOpSetsStatusOnly :
    (bench (.oracle []) [.write 0 0x0D00#16]).seq = .idle ∧
    (∀ op ∈ [0x0D#8, 0x0F#8, 0x15#8, 0xFF#8], (0x0D#8 ≤ op ∧ op ≤ 0x0F#8) ∨ 0x15#8 ≤ op) ∧
    (∀ op ∈ [0x00#8, 0x0C#8, 0x10#8, 0x14#8], ¬ ((0x0D#8 ≤ op ∧ op ≤ 0x0F#8) ∨ 0x15#8 ≤ op)) ∧
    opField 0x0D00#16 = 0x0D#8 := by decide

theorem witness_EncoderRejectsSettingsAtOrAboveOpcode :
    LcdOpcode.entryModeSet.code.toNat ≤ (0x04#8).toNat ∧ (0x03#8).toNat < LcdOpcode.entryModeSet.code.toNat ∧
    LcdOpcode.clearDisplay.code.toNat ≤ (0x01#8).toNat ∧ (0x00#8).toNat < LcdOpcode.clearDisplay.code.toNat := by decide

theorem witness_InstructionByteNamesOneInstruction :
    0x01#8 ≠ 0x00#8 ∧ 0xFF#8 ≠ 0x00#8 ∧ (0x7F#8).toNat < LcdOpcode.setDdramAddress.code.toNat ∧
    0xFF#8 = LcdOpcode.setDdramAddress.code ||| 0x7F#8 := by decide

theorem witness_StepRunsTheDecodedInstruction :
    (command 0x1041#16 0x00#7).seq = .idle ∧ (command 0x1041#16 0x00#7).launchMode = .hardware ∧
    (command 0x1041#16 0x00#7).inputs = [.write 0 0x1041#16] ∧ decode (.hc16 0x1041#16) = .ok (.putch 0x41#8) ∧
    (cycle 0x241#10 0x00#7).inputs = [.busWord 0x241#10] ∧ decode (.bus10 0x241#10) = .ok (.bwDataWrite 0x41#8) ∧
    (beginOperation (.home 0x00#8) (command 0x0041#16 0x00#7)).seq =
      .running 0x00#8 .pollStart (attemptOps ++ writeCycleOps .instruction 0x02#8 ++ [.finish 0x00#8]) ∧
    (beginOperation (.home 0x00#8) (command 0x0041#16 0x00#7)).inputs = [.write 0 0x0041#16] := by decide

theorem witness_HostAccessesWhileIdle :
    (bench (.oracle []) []).seq = .idle ∧ (bench (.oracle []) []).inputs = [] ∧
    (bench (.oracle []) [.write 1 0xFFFF#16]).inputs = [.write 1 0xFFFF#16] ∧
    (bench (.oracle []) [.write 4 0xFFFF#16]).inputs = [.write 4 0xFFFF#16] ∧ 1 ≤ 4 ∧ 4 ≤ 4 ∧
    (bench (.oracle []) [.write 5 0xFFFF#16]).inputs = [.write 5 0xFFFF#16] ∧ 5 ≤ 5 ∧
    (bench (.oracle []) [.read 5]).inputs = [.read 5] ∧ (bench (.oracle []) [.read 0]).inputs = [.read 0] ∧
    (bench (.oracle []) [.read 4]).inputs = [.read 4] := by decide

/-- A launch in the checked mode. -/
def checkedLaunch (w : CommandWord) (flags : Byte) : State :=
  { command w 0x00#7 with launchMode := .checked, flags := flags }

theorem witness_CheckedLaunchRefusesWhatTheSpecRefuses :
    (checkedLaunch 0x0000#16 0x00#8).seq = .idle ∧ (checkedLaunch 0x0000#16 0x00#8).launchMode = .checked ∧
    (checkedLaunch 0x0000#16 0x00#8).initd = false ∧ failsValidation (.clear 0x00#8) = false ∧
    decode (.hc16 0x0000#16) = .ok (.clear 0x00#8) ∧
    (checkedLaunch 0x050F#16 0x02#8).initd = true ∧ decode (.hc16 0x050F#16) = .ok (.funcset 0x0F#8) ∧
    (0x0F#8).toNat < 0x20 ∧ (0x0F#8)[4] = false ∧
    decode (.hc16 0x0C00#16) = .ok (.init 0x00#8) ∧ decode (.hc16 0x0780#16) = .ok (.setdd 0x80#8) ∧
    failsValidation (.setdd 0x80#8) = true := by decide

theorem witness_ResetAbandonsARunningOperation :
    interrupted.inputs = [.reset] ∧ interrupted.seq ≠ .idle ∧ (cutAfter 3).seq = .idle ∧
    (cutAfter 3).launchMode = .hardware ∧ (cutAfter 3).inputs = [.writeCutShort 0x0B00#16 3] ∧
    decode (.hc16 0x0B00#16) = .ok (.waitbusy 0x00#8) := by decide

theorem witness_WriteCycleOnThePins :
    (command 0x0000#16 0x05#7).ctlDir = .output ∧ (command 0x0000#16 0x05#7).dbDir = .output ∧
    (command 0x0000#16 0x05#7).peer = .reference (cursorAt 0x05#7) ∧ (cursorAt 0x05#7).late = .performed := by decide

theorem witness_ReadCycleOnThePins :
    (bench (.oracle [0x94#8]) []).ctlDir = .output ∧ (bench (.oracle [0x94#8]) []).peer = .oracle [0x94#8] := by decide

theorem witness_PinTracesPassTheChecker :
    (∃ t, exec (.rdac 0x00#8) (bench (.oracle []) []) = .next t) ∧
    encode (.bwDataWrite 0x41#8) = .bus10 (busWord .data .write 0x41#8) ∧ (bench (.oracle []) []).dbDir = .output ∧
    (cutAfter 5).seq = .idle ∧ (cutAfter 5).inputs = [.writeCutShort 0x0B00#16 5] ∧
    (stepped (cutAfter 5)).isSome = true := ⟨⟨_, rfl⟩, by decide⟩

theorem witness_EventsPerInstructionAreBounded :
    ∃ t, exec (.bksp 0x00#8) (bench (.oracle []) []) = .next t := ⟨_, rfl⟩

theorem witness_PollReturnsAtFirstReadyOrBudget :
    (withBudget 1 (bench (.oracle ([0x85#8] ++ 0x05#8 :: [])) [])).ctlDir = .output ∧
    (∀ x ∈ [0x85#8], busyBit x = true) ∧ busyBit 0x05#8 = false ∧ busyBit 0x7F#8 = false ∧ busyBit 0x80#8 = true ∧
    [0x85#8].length < (withBudget 1 (bench (.oracle []) [])).cfg.maxAttempts ∧
    [0x85#8].length + 1 = (withBudget 1 (bench (.oracle []) [])).cfg.maxAttempts ∧
    ([] : List Byte).length + 1 = (withBudget 0 (bench (.oracle []) [])).cfg.maxAttempts := by decide

theorem witness_SettingsAreValidatedThenIssued :
    (0x03#8).toNat < LcdOpcode.entryModeSet.code.toNat ∧ (0x07#8).toNat < LcdOpcode.displayControl.code.toNat ∧
    (0x0F#8).toNat < LcdOpcode.cursorDisplayShift.code.toNat ∧ (0x1F#8).toNat < LcdOpcode.functionSet.code.toNat ∧
    (0x3F#8).toNat < LcdOpcode.setCgramAddress.code.toNat ∧ (0x7F#8).toNat < LcdOpcode.setDdramAddress.code.toNat ∧
    LcdOpcode.entryModeSet.code.toNat ≤ (0x04#8).toNat ∧ LcdOpcode.setDdramAddress.code.toNat ≤ (0x80#8).toNat := by
  decide

theorem witness_HostInstructionIsAPollAndItsBusWord :
    (Instr.bwClearDisplay).wellFormed = true ∧ (Instr.bwSetDdramAddress 0x7F#8).wellFormed = true ∧
    (Instr.bwDataWrite 0xFF#8).wellFormed = true := by decide

theorem witness_InvalidSettingsChangeOnlyStatus :
    (0x04 ≤ (0x04#8).toNat ∧ 0x80 ≤ (0xFF#8).toNat) ∧ (command (commandWord 0x02#8 0x04#8) 0x00#7).seq = .idle ∧
    (command (commandWord 0x02#8 0x04#8) 0x00#7).inputs = [.write 0 (commandWord 0x02#8 0x04#8)] := by decide

theorem witness_BusWordsAreOneCycle :
    encode (.bwEntryModeSet 0x03#8) = .bus10 (busWord .instruction .write 0x07#8) ∧
    encode (.bwDataRead 0x41#8) = .bus10 (busWord .data .read 0x41#8) := by decide

/-- For ReferencePeerReads, ReferencePeerDataWrite, ReferencePeerInstructions and ReferencePeerShift. -/
theorem witness_ReferencePeer_on_driven_lines :
    (cycle 0x0C0#10 0x05#7).peer = .reference (cursorAt 0x05#7) ∧ (cycle 0x0C0#10 0x05#7).ctlDir = .output ∧
    (cycle 0x0C0#10 0x05#7).dbDir = .output ∧ (cursorAt 0x05#7).late = .performed ∧ (cursorAt 0x05#7).wf = true := by
  decide

theorem witness_AddressSteps :
    lineOf 0x00#7 ≠ none ∧ lineOf 0x67#7 ≠ none ∧ lineOf 0x28#7 = none ∧ (cursorAt 0x27#7).n = true ∧
    { RefPeer.powerUp with ramsel := .cgram }.ramsel = .cgram ∧
    { RefPeer.powerUp with oneLine := .byTable }.oneLine = .byTable := by decide

theorem witness_FourBitBusLeavesTheReferencePeer :
    Attached (command 0x0508#16 0x05#7) (cursorAt 0x05#7) ∧ (0x08#8).toNat < 0x20 ∧ (0x08#8)[4] = false :=
  ⟨attached_bench _ _, by decide, by decide⟩

theorem witness_LateCycleIsPerformedOrIgnored :
    (withBudget 0 (bench (.reference { cursorAt 0x05#7 with late := .unsettled, busycnt := 1 }) [])).ctlDir = .output ∧
    (withBudget 0 (bench (.oracle []) [])).cfg.maxAttempts ≤ 1 ∧ failsValidation (.clear 0xFF#8) = false ∧
    failsValidation (.entry 0x03#8) = false ∧ failsValidation (.setdd 0x7F#8) = false ∧
    failsValidation (.wrdata 0xFF#8) = false ∧ (cursorAt 0x05#7).late = .performed := by decide

theorem witness_CanonicalMemoriesAreEqualData :
    Memory.wf ddramSize [(0x00, 0x41#8), (0x7F, 0x42#8)] = true ∧ Memory.wf ddramSize [] = true := by decide

theorem witness_NonStoringInstructionsKeepEveryByte :
    (∃ t, exec (.home 0xFF#8) (command 0x01FF#16 0x05#7) = .next t) ∧ (0x18#8)[4] = true ∧
    (Instr.bwSetDdramAddress 0x40#8).wellFormed = true := ⟨⟨_, rfl⟩, by decide, by decide⟩

theorem witness_CharacterWritesStoreOneByte :
    Attached (command 0x1041#16 0x13#7) (cursorAt 0x13#7) ∧ (cursorAt 0x13#7).wf = true ∧
    ∃ t, exec (.putch 0x41#8) (command 0x1041#16 0x13#7) = .next t := ⟨attached_bench _ _, by decide, _, rfl⟩

theorem witness_ClearBlanksTheDisplay : Attached (command 0x0000#16 0x67#7) (cursorAt 0x67#7) := attached_bench _ _

theorem witness_WrittenByteReadsBack :
    Attached (command 0x0740#16 0x13#7) (cursorAt 0x13#7) ∧ (0x7F#8).toNat < 0x80 ∧ (0x3F#8).toNat < 0x40 :=
  ⟨attached_bench _ _, by decide, by decide⟩

theorem witness_InitBringsThePeerUp :
    (command 0x0C00#16 0x05#7).peer = .reference (cursorAt 0x05#7) ∧ (cursorAt 0x05#7).late = .performed ∧
    (command 0x0C00#16 0x05#7).e = .low ∧ (cursorAt 0x05#7).kBusy < (command 0x0C00#16 0x05#7).cfg.maxAttempts := by
  decide

theorem witness_PutchWalksTheDisplayOrder :
    Attached (command 0x1041#16 0x13#7) (cursorAt 0x13#7) ∧ NavigatorReady (cursorAt 0x13#7) ∧
    (cursorAt 0x13#7).ac = displayAddress 19 ∧ (cursorAt 0x67#7).ac = displayAddress 79 :=
  ⟨attached_bench _ _, ⟨rfl, rfl, rfl, rfl, rfl⟩, by decide, by decide⟩

theorem witness_BkspStepsBackAndBlanks :
    Attached (command 0x1100#16 0x40#7) (cursorAt 0x40#7) ∧ (cursorAt 0x40#7).ramsel = .ddram ∧
    (cursorAt 0x40#7).n = true ∧ (cursorAt 0x40#7).ac = displayAddress (19 + 1) ∧
    (cursorAt 0x00#7).ac = displayAddress (79 + 1) ∧ previousAddress 0x40#7 = some 0x13#7 ∧
    previousAddress 0x28#7 = none := ⟨attached_bench _ _, rfl, rfl, by decide, by decide, by decide, by decide⟩

/-- R282: BKSP with CGRAM selected, at a CGRAM address that is no line begin and at one that looks like one. -/
theorem test_bksp_in_cgram :
    peerShown (bench (.reference { cursorAt 0x08#7 with ramsel := .cgram, cgram := [(0x07, 0x1F#8)] })
      [.write 0 0x1100#16]) = some { cursorAt 0x07#7 with ramsel := .cgram } ∧
    peerShown (bench (.reference { cursorAt 0x14#7 with ramsel := .cgram, ddram := [(0x53, 0x41#8)] })
      [.write 0 0x1100#16]) = some (cursorAt 0x53#7) := by decide

theorem witness_CursorMovesAlongTheDisplayOrder :
    Attached (command 0x1400#16 0x53#7) (cursorAt 0x53#7) ∧ (cursorAt 0x53#7).n = true ∧
    (cursorAt 0x53#7).ac = displayAddress 39 ∧ (cursorAt 0x53#7).ac = displayAddress (38 + 1) :=
  ⟨attached_bench _ _, rfl, by decide, by decide⟩

theorem witness_EnterGoesToTheLineBelow :
    Attached (command 0x1200#16 0x27#7) (cursorAt 0x27#7) ∧ (cursorAt 0x27#7).n = true ∧ 0x27#7 ∈ DisplayLine.line3.addresses ∧
    0x14#7 ∈ DisplayLine.line3.addresses ∧
    (∀ l ∈ [DisplayLine.line1, .line2, .line3, .line4], 0x28#7 ∉ l.addresses ∧ 0x7F#7 ∉ l.addresses) :=
  ⟨attached_bench _ _, rfl, by decide, by decide, by decide⟩

theorem witness_EveryStepKeepsTheInvariant :
    MachineInvariant (command 0x0204#16 0x05#7) ∧ (stepped (command 0x0204#16 0x05#7)).isSome = true :=
  ⟨⟨rfl, rfl, fun _ => ⟨rfl, rfl⟩, Or.inl rfl, Or.inl rfl, rfl, by decide, by decide⟩, by decide⟩

theorem witness_FlagsAreSticky :
    (stepped { command 0x0000#16 0x05#7 with flags := 0x03#8 }).map (fun t => (t.tmo, t.initd)) = some (true, true) := by
  decide

theorem witness_OnlyTheNamedOperationsWrite :
    ∃ t, exec (.waitbusy 0x00#8) (command 0x0B00#16 0x05#7) = .next t := ⟨_, rfl⟩

/-- Two peers that answer the same byte. -/
theorem witness_OnlySamplesReachLcdc :
    (stepped (answered 0x0A00#16 [0x05#8])).map (fun t => t.trace) =
      (stepped (command 0x0A00#16 0x05#7)).map (fun t => t.trace) := by decide

theorem witness_SequencerRunsEveryOperationToItsMeaning : (bench (.oracle []) []).seq = .idle := by decide

end Sys2Proof.Tests
end

/-! ## 00_scope: every instruction completes (R16), with a bounded number of pin events (R157, R230) -/

namespace Sys2Proof.Machine

/-- From `s` to `t` the instance is the same, and the trace grew by at most `polls` polls, each of at most 9 events an
attempt (R157), and `others` events outside polls. -/
structure AddsEvents (polls others : Nat) (s t : State) : Prop where
  cfg : t.cfg = s.cfg
  growth : t.trace.length ≤ s.trace.length + (polls * (9 * s.cfg.maxAttempts) + others)

namespace AddsEvents

theorem refl (s : State) : AddsEvents 0 0 s s := ⟨rfl, by simp⟩

theorem trans {p q m n : Nat} {s t u : State} (h : AddsEvents p m s t) (k : AddsEvents q n t u) :
    AddsEvents (p + q) (m + n) s u := by
  obtain ⟨hcfg, hgrowth⟩ := h
  obtain ⟨kcfg, kgrowth⟩ := k
  rw [hcfg] at kgrowth
  exact ⟨kcfg.trans hcfg, by rw [Nat.add_mul]; omega⟩

theorem mono {p q m n : Nat} {s t : State} (h : AddsEvents p m s t) (hpq : p ≤ q) (hmn : m ≤ n) :
    AddsEvents q n s t :=
  ⟨h.cfg, by have := h.growth; have := Nat.mul_le_mul_right (9 * s.cfg.maxAttempts) hpq; omega⟩

theorem endOperation {p n : Nat} {s t : State} (h : AddsEvents p n s t) (code : Byte) :
    AddsEvents p n s (endOperation code t) := ⟨h.cfg, h.growth⟩

end AddsEvents

/-- What the peer does adds no event. -/
theorem PeerOnly.addsEvents {p n : Nat} {s t u : State} (k : PeerOnly t u) (h : AddsEvents p n s t) :
    AddsEvents p n s u := by
  unfold PeerOnly at k
  rw [k]
  exact ⟨h.cfg, h.growth⟩

/-! ### Polls and cycles -/

/-- R157: eight events an attempt, and after each one a delay, or at the end a timeout, or nothing. -/
theorem length_pinEvents_pollTxns_le {samples : List Byte} (h : samples ≠ []) :
    (pinEvents (pollTxns samples)).length ≤ 9 * samples.length := by
  induction samples with
  | nil => exact absurd rfl h
  | cons b rest ih =>
    cases rest with
    | nil => cases hb : busyBit b <;> simp [pollTxns, statusReads, hb, Txn.events]
    | cons c rest =>
      have := ih (by simp)
      rw [pollTxns_cons b (by simp)]
      simp only [pinEvents_cons, Txn.events, List.length_append, List.length_cons, List.length_nil] at this ⊢
      omega

theorem writeCycle_addsEvents (reg : BusRegister) (b : Byte) (s : State) :
    AddsEvents 0 6 s (writeCycle reg b s) :=
  (writeCycle_peerOnly reg b s).addsEvents ⟨rfl, by simp [writeLatched, Txn.events]⟩

theorem readCycle_addsEvents (reg : BusRegister) (s : State) : AddsEvents 0 8 s (readCycle reg s).2 :=
  (readCycle_peerOnly reg s).addsEvents ⟨rfl, by simp [readDone, Txn.events]⟩

theorem pollUntilReady_addsEvents (s : State) : AddsEvents 1 0 s (pollUntilReady s).state := by
  obtain ⟨samples, hshape, -, hpeer⟩ := poll_afterPoll s
  have hevents := length_pinEvents_pollTxns_le hshape.ne_nil
  have hattempts : samples.length ≤ s.cfg.maxAttempts := hshape.2.1
  refine hpeer.addsEvents ⟨rfl, ?_⟩
  simp only [afterPoll, pollDone, startPoll_trace, List.length_append]
  omega

theorem readAddress_addsEvents (s : State) : AddsEvents 1 0 s (readAddress s).2 :=
  ⟨(pollUntilReady_addsEvents s).cfg, (pollUntilReady_addsEvents s).growth⟩

theorem issueInstruction_addsEvents (b : Byte) (s : State) : AddsEvents 1 6 s (issueInstruction b s) :=
  (pollUntilReady_addsEvents s).trans (writeCycle_addsEvents .instruction b _)

theorem writeData_addsEvents (b : Byte) (s : State) : AddsEvents 1 6 s (writeData b s) :=
  (pollUntilReady_addsEvents s).trans (writeCycle_addsEvents .data b _)

theorem readData_addsEvents (s : State) : AddsEvents 1 8 s (readData s) := by
  have h := (pollUntilReady_addsEvents s).trans (readCycle_addsEvents .data _)
  exact ⟨h.cfg, h.growth⟩

/-! ### Operations -/

theorem validatedInstruction_addsEvents (op : LcdOpcode) (arg : Byte) (s : State) :
    AddsEvents 1 6 s (validatedInstruction op arg s) := by
  unfold validatedInstruction
  split
  case h_1 b _ => exact (issueInstruction_addsEvents b s).endOperation _
  case h_2 => exact ((AddsEvents.refl s).mono (by simp) (by simp)).endOperation _

theorem subInstruction_addsEvents (op : LcdOpcode) (settings : Byte) (s : State) :
    AddsEvents 1 6 s (subInstruction op settings s) := by
  unfold subInstruction
  split
  case h_1 b _ => exact issueInstruction_addsEvents b s
  case h_2 => exact (AddsEvents.refl s).mono (by simp) (by simp)

theorem branchOn_addsEvents (t : RemapTable) (otherwise : Option Byte) (a : Address) (s : State) :
    AddsEvents 1 6 s (branchOn t otherwise a s) := by
  rw [branchOn_eq]
  cases branchByte t otherwise a with
  | some b => exact issueInstruction_addsEvents b s
  | none => exact (AddsEvents.refl s).mono (by simp) (by simp)

theorem navigate_addsEvents (t : RemapTable) (otherwise : Option Byte) (s : State) :
    AddsEvents 2 6 s (navigate t otherwise s) :=
  (readAddress_addsEvents s).trans (branchOn_addsEvents t otherwise _ _)

/-- R223, R230: the six polls of BKSP, and five write cycles. -/
theorem backspace_addsEvents (s : State) : AddsEvents 6 30 s (backspace s) :=
  ((((subInstruction_addsEvents .entryModeSet 0x00#8 s).trans
    (navigate_addsEvents .previousAddress (some leftCursorShift) _)).trans
    (writeData_addsEvents s.cfg.blank _)).trans
    (subInstruction_addsEvents .cursorDisplayShift 0x04#8 _)).trans
    (subInstruction_addsEvents .entryModeSet 0x02#8 _)

/-- R200, R201: four set-up events, and three times a delay and a write cycle. -/
theorem initRaw_addsEvents (s : State) : AddsEvents 0 25 s (initRaw s) :=
  (initRaw_peerOnly s).addsEvents ⟨rfl, by simp [initialised, setupEvents, Txn.events]⟩

/-- R200: four polls, each with its write cycle. -/
theorem initPolled_addsEvents (s : State) : AddsEvents 4 24 s (initPolled s) :=
  (((subInstruction_addsEvents .functionSet 0x18#8 s).trans
    (subInstruction_addsEvents .displayControl 0x00#8 _)).trans
    (issueInstruction_addsEvents LcdOpcode.clearDisplay.code _)).trans
    (subInstruction_addsEvents .entryModeSet 0x02#8 _)

theorem recordInitd_addsEvents (s : State) : AddsEvents 0 0 s (recordInitd s) := ⟨rfl, by simp⟩

/-! ### Instructions -/

/-- How many polls an instruction performs at most (R230). -/
def pollBound : Instr → Nat
  | .bksp _ => 6
  | .init _ => 4
  | .putch _ => 3
  | .enter _ | .curleft _ | .curright _ => 2
  | .bwClearDisplay | .bwReturnHome | .bwEntryModeSet _ | .bwDisplayControl _ | .bwCursorDisplayShift _
  | .bwFunctionSet _ | .bwSetCgramAddress _ | .bwSetDdramAddress _ | .bwStatusRead _ _ | .bwDataWrite _
  | .bwDataRead _ => 0
  | _ => 1

/-- How many events an instruction adds at most outside its polls: 6 for a write cycle, 8 for a read cycle, and what
INIT does unpolled (R137, R138, R200). -/
def otherEventBound : Instr → Nat
  | .init _ => 49
  | .bksp _ => 30
  | .putch _ => 12
  | .rdac _ | .waitbusy _ => 0
  | .rddata _ | .bwStatusRead _ _ | .bwDataRead _ => 8
  | _ => 6

theorem pollBound_le (i : Instr) : pollBound i ≤ 6 := by
  unfold pollBound
  split <;> simp

theorem otherEventBound_le (i : Instr) : otherEventBound i ≤ 49 := by
  unfold otherEventBound
  split <;> simp

/-- Every instruction answers a next state, and keeps within its own bounds. -/
theorem exec_addsEvents (i : Instr) (s : State) :
    ∃ t, exec i s = .next t ∧ AddsEvents (pollBound i) (otherEventBound i) s t := by
  cases i with
  | clear | home => exact ⟨_, rfl, (issueInstruction_addsEvents _ s).endOperation _⟩
  | entry arg | dispctl arg | shift arg | funcset arg | setcg arg | setdd arg =>
    exact ⟨_, rfl, validatedInstruction_addsEvents _ arg s⟩
  | wrdata arg => exact ⟨_, rfl, (writeData_addsEvents arg s).endOperation _⟩
  | rddata => exact ⟨_, rfl, (readData_addsEvents s).endOperation _⟩
  | rdac => exact ⟨_, rfl, (readAddress_addsEvents s).endOperation _⟩
  | waitbusy => exact ⟨_, rfl, (pollUntilReady_addsEvents s).endOperation _⟩
  | init =>
    exact ⟨_, rfl, (((initRaw_addsEvents s).trans (initPolled_addsEvents _)).trans
      (recordInitd_addsEvents _)).endOperation _⟩
  | putch arg => exact ⟨_, rfl, ((writeData_addsEvents arg s).trans (navigate_addsEvents _ _ _)).endOperation _⟩
  | bksp => exact ⟨_, rfl, (backspace_addsEvents s).endOperation _⟩
  | enter | curleft | curright => exact ⟨_, rfl, (navigate_addsEvents _ _ s).endOperation _⟩
  | bwClearDisplay | bwReturnHome | bwEntryModeSet | bwDisplayControl | bwCursorDisplayShift | bwFunctionSet
  | bwSetCgramAddress | bwSetDdramAddress | bwDataWrite => exact ⟨_, rfl, writeCycle_addsEvents _ _ s⟩
  | bwStatusRead | bwDataRead => exact ⟨_, rfl, readCycle_addsEvents _ s⟩

/-- Settles O16: the polls and cycles of each operation are counted by `AddsEvents`, and no instruction has more than
BKSP's six polls or INIT's 49 events outside polls. -/
theorem eventsPerInstructionAreBounded : Obligations.EventsPerInstructionAreBounded := by
  unfold Obligations.EventsPerInstructionAreBounded
  intro i s t hexec
  obtain ⟨u, hu, hadds⟩ := exec_addsEvents i s
  obtain rfl : u = t := by simpa [hu] using hexec
  have hgrowth := (hadds.mono (pollBound_le i) (otherEventBound_le i)).growth
  omega

/-- Settles O56: every arm of `exec` is a call of a meaning that answers a next state. -/
theorem everyInstructionCompletes : Obligations.EveryInstructionCompletes := by
  unfold Obligations.EveryInstructionCompletes
  intro i s
  obtain ⟨t, hnext, -⟩ := exec_addsEvents i s
  exact ⟨t, hnext⟩

end Sys2Proof.Machine

/-! ## 10_state, section 5: the sequencer performs every operation to its meaning (R36) -/

namespace Sys2Proof.Machine

/-- The sequencer performs these micro-operations from LCDC's state `s` to `t`, whatever SEQ last sampled and whatever
follows them, through no Idle state on the way. -/
def Performs (ops : List MicroOp) (s t : State) : Prop :=
  ∀ sampled rest, ∃ sampled', Reach (continueWith sampled (ops ++ rest) s) (continueWith sampled' rest t)

namespace Performs

theorem nil (s : State) : Performs [] s s := fun sampled _ => ⟨sampled, Reach.refl _⟩

theorem append {ops more : List MicroOp} {s t u : State} (h : Performs ops s t) (k : Performs more t u) :
    Performs (ops ++ more) s u := by
  intro sampled rest
  obtain ⟨sampled₁, h₁⟩ := h sampled (more ++ rest)
  obtain ⟨sampled₂, h₂⟩ := k sampled₁ rest
  rw [List.append_assoc]
  exact ⟨sampled₂, h₁.trans h₂⟩

/-- The micro-operations of a whole operation, up to the end of it (R28). -/
theorem finish {ops : List MicroOp} {s t : State} (h : Performs ops s t) (code : Byte) :
    Reach (continueWith 0x00#8 (ops ++ [.finish code]) s) (endOperation code t) := by
  obtain ⟨sampled, hops⟩ := h 0x00#8 [.finish code]
  exact hops.trans (Reach.perform sampled (.finish code) [] t)

/-- The micro-operations of a bus word, which has no STATUS to write. -/
theorem toIdle {ops : List MicroOp} {s t : State} (h : Performs ops s t) (hseq : t.seq = .idle) :
    Reach (continueWith 0x00#8 ops s) t := by
  obtain ⟨sampled, hops⟩ := h 0x00#8 []
  have hidle : continueWith sampled [] t = t := by rw [continueWith, seqOf, ← hseq]
  rwa [List.append_nil, hidle] at hops

end Performs

/-! ### The shared operations -/

theorem performs_writeCycle (reg : BusRegister) (b : Byte) (s : State) :
    Performs (writeCycleOps reg b) s (writeCycle reg b s) :=
  fun sampled rest => ⟨sampled, reach_writeCycle sampled rest s reg b⟩

theorem performs_readCycle (reg : BusRegister) (s : State) : Performs (readCycleOps reg) s (readCycle reg s).2 :=
  fun sampled rest => ⟨_, reach_readCycle sampled rest s reg⟩

theorem performs_poll (s : State) : Performs pollOps s (pollUntilReady s).state :=
  fun sampled rest => ⟨_, reach_poll sampled rest s⟩

theorem performs_issue (b : Byte) (s : State) : Performs (issueOps b) s (issueInstruction b s) :=
  (performs_poll s).append (performs_writeCycle .instruction b _)

theorem performs_writeData (b : Byte) (s : State) : Performs (writeDataOps b) s (writeData b s) :=
  (performs_poll s).append (performs_writeCycle .data b _)

theorem performs_subInstruction (op : LcdOpcode) (settings : Byte) (s : State) :
    Performs (subInstructionOps op settings) s (subInstruction op settings s) := by
  unfold subInstructionOps subInstruction
  cases encodeSettings op settings with
  | some b => exact performs_issue b s
  | none => exact Performs.nil s

/-- RDATA takes the byte that the read cycle before it sampled (R193). -/
theorem performs_readData (s : State) : Performs readDataOps s (readData s) := by
  intro sampled rest
  obtain ⟨sampled', hpoll⟩ := performs_poll s sampled (readCycleOps .data ++ (.latchData :: rest))
  have hread := reach_readCycle sampled' (.latchData :: rest) (pollUntilReady s).state .data
  have hlatch := Reach.perform (readCycle .data (pollUntilReady s).state).1 .latchData rest
    (readCycle .data (pollUntilReady s).state).2
  refine ⟨(readCycle .data (pollUntilReady s).state).1, ?_⟩
  rw [readDataOps, List.append_assoc, List.append_assoc]
  exact (hpoll.trans hread).trans hlatch

/-- RDATA takes the address in the last byte that the poll before it sampled (R156). -/
theorem performs_readAddress (s : State) : Performs readAddressOps s (readAddress s).2 := by
  intro sampled rest
  refine ⟨(pollUntilReady s).sampled, ?_⟩
  rw [readAddressOps, List.append_assoc]
  exact (reach_poll sampled (.latchAddress :: rest) s).trans (Reach.perform _ .latchAddress rest _)

/-! ### The two-way branch of a composite (R222 to R226) -/

/-- RDATA holds the address of the address read in full: bit 7 is zero (R117). -/
theorem addressOf_addressByte (a : Address) : addressOf (addressByte a) = a := by
  revert a
  decide

theorem performs_branchOps (t : RemapTable) (otherwise : Option Byte) (a : Address) (s : State) :
    Performs (branchOps t otherwise a) s (branchOn t otherwise a s) := by
  unfold branchOps branchOn
  cases remap t a with
  | some target => exact performs_subInstruction _ _ s
  | none =>
    cases otherwise with
    | some b => exact performs_issue b s
    | none => exact Performs.nil s

/-- SEQ goes on with the micro-operations of the branch at the address RDATA holds. -/
theorem performs_branch (t : RemapTable) (otherwise : Option Byte) (s : State) :
    Performs [.branch t otherwise] s (branchOn t otherwise (addressOf s.rdata) s) := by
  intro sampled rest
  obtain ⟨sampled', hbranch⟩ := performs_branchOps t otherwise (addressOf s.rdata) s sampled rest
  exact ⟨sampled', (Reach.perform sampled (.branch t otherwise) rest s).trans hbranch⟩

theorem performs_navigate (t : RemapTable) (otherwise : Option Byte) (s : State) :
    Performs (navigateOps t otherwise) s (navigate t otherwise s) := by
  have hrdata : addressOf (readAddress s).2.rdata = (readAddress s).1 := addressOf_addressByte _
  have hbranch := performs_branch t otherwise (readAddress s).2
  rw [hrdata] at hbranch
  exact (performs_readAddress s).append hbranch

/-! ### INIT (R200) -/

theorem performs_initPins (s : State) :
    Performs [.setEnable .low, .setControlDirection .output, .setDataDirection .output,
      .setControlLines .instruction .write] s (initPins s) := by
  intro sampled rest
  exact ⟨sampled, (reach_setEnable sampled _ s .low).trans <|
    (Reach.perform sampled (.setControlDirection .output) _ _).trans <|
    (reach_setDataDirection sampled _ _ .output).trans (reach_setControlLines sampled _ _ .instruction .write)⟩

theorem performs_rawWrite (d : Delay) (s : State) : Performs (rawWriteOps d) s (rawWrite d s) := by
  intro sampled rest
  exact ⟨sampled, (reach_delay sampled _ s d).trans (reach_writeCycle sampled rest _ .instruction rawFunctionSet)⟩

theorem performs_setInitd (s : State) : Performs [.setInitd] s (recordInitd s) :=
  fun sampled rest => ⟨sampled, Reach.perform sampled .setInitd rest s⟩

theorem reach_init (s : State) :
    Reach (continueWith 0x00#8 initOps s) (endOperation codeSuccess (recordInitd (initPolled (initRaw s)))) := by
  have hraw := (((performs_initPins s).append (performs_rawWrite .init1 _)).append (performs_rawWrite .init2 _)).append
    (performs_rawWrite .init3 _)
  have hpolled := (((hraw.append (performs_subInstruction .functionSet 0x18#8 _)).append
    (performs_subInstruction .displayControl 0x00#8 _)).append
    (performs_issue LcdOpcode.clearDisplay.code _)).append (performs_subInstruction .entryModeSet 0x02#8 _)
  have hall := (hpolled.append (performs_setInitd _)).finish codeSuccess
  rwa [List.append_assoc _ [MicroOp.setInitd]] at hall

/-! ### Instructions -/

theorem reach_backspace (s : State) :
    Reach (continueWith 0x00#8 (backspaceOps s.cfg.blank) s) (endOperation codeSuccess (backspace s)) :=
  (((((performs_subInstruction .entryModeSet 0x00#8 s).append
    (performs_navigate .previousAddress (some leftCursorShift) _)).append
    (performs_writeData s.cfg.blank _)).append
    (performs_subInstruction .cursorDisplayShift 0x04#8 _)).append
    (performs_subInstruction .entryModeSet 0x02#8 _)).finish codeSuccess

/-- A validating operation, also where its settings are invalid and it touches no pin (R169). -/
theorem reach_validated (op : LcdOpcode) (arg : Byte) (s : State) :
    Reach (continueWith 0x00#8 (validatedOps op arg) s) (validatedInstruction op arg s) := by
  unfold validatedOps validatedInstruction
  cases encodeSettings op arg with
  | some b => exact (performs_issue b s).finish _
  | none => exact (Performs.nil s).finish _

theorem validatedInstruction_seq (op : LcdOpcode) (arg : Byte) (s : State) :
    (validatedInstruction op arg s).seq = .idle := by
  unfold validatedInstruction
  cases encodeSettings op arg <;> rfl

theorem PeerOnly.seq {s t : State} (h : PeerOnly s t) : t.seq = s.seq := by
  unfold PeerOnly at h
  rw [h]

/-- The sequencer reaches the state the meaning gives, and that is Idle. -/
theorem reach_exec (i : Instr) {s : State} (hseq : s.seq = .idle) :
    ∃ t, exec i s = .next t ∧ Reach (beginOperation i s) t ∧ t.seq = .idle := by
  have hwrite (reg : BusRegister) (b : Byte) : (writeCycle reg b s).seq = .idle :=
    (writeCycle_peerOnly reg b s).seq.trans hseq
  have hread (reg : BusRegister) : (readCycle reg s).2.seq = .idle := (readCycle_peerOnly reg s).seq.trans hseq
  cases i with
  | clear | home => exact ⟨_, rfl, (performs_issue _ s).finish _, rfl⟩
  | entry arg | dispctl arg | shift arg | funcset arg | setcg arg | setdd arg =>
    exact ⟨_, rfl, reach_validated _ arg s, validatedInstruction_seq _ arg s⟩
  | wrdata arg => exact ⟨_, rfl, (performs_writeData arg s).finish _, rfl⟩
  | rddata => exact ⟨_, rfl, (performs_readData s).finish _, rfl⟩
  | rdac => exact ⟨_, rfl, (performs_readAddress s).finish _, rfl⟩
  | waitbusy => exact ⟨_, rfl, (performs_poll s).finish _, rfl⟩
  | init => exact ⟨_, rfl, reach_init s, rfl⟩
  | putch arg => exact ⟨_, rfl, ((performs_writeData arg s).append (performs_navigate _ _ _)).finish _, rfl⟩
  | bksp => exact ⟨_, rfl, reach_backspace s, rfl⟩
  | enter | curleft | curright => exact ⟨_, rfl, (performs_navigate _ _ s).finish _, rfl⟩
  | bwClearDisplay | bwReturnHome | bwEntryModeSet | bwDisplayControl | bwCursorDisplayShift | bwFunctionSet
  | bwSetCgramAddress | bwSetDdramAddress | bwDataWrite =>
    exact ⟨_, rfl, (performs_writeCycle _ _ s).toIdle (hwrite _ _), hwrite _ _⟩
  | bwStatusRead | bwDataRead => exact ⟨_, rfl, (performs_readCycle _ s).toIdle (hread _), hread _⟩

/-- Settles O60: the micro-operations of each shared operation are performed to its state (`Performs`), and those of an
instruction are put together from them. -/
theorem sequencerRunsEveryOperationToItsMeaning : Obligations.SequencerRunsEveryOperationToItsMeaning := by
  unfold Obligations.SequencerRunsEveryOperationToItsMeaning
  intro i s hseq
  obtain ⟨t, hexec, ⟨n, hticks, hbusy⟩, hidle⟩ := reach_exec i hseq
  exact ⟨n, t, hexec, hticks, hidle, hbusy⟩

end Sys2Proof.Machine

/-! ## 10_state, sections 3, 5 and 7: what a step can do -/

namespace Sys2Proof.Machine

/-! ### The functions a step is made of -/

theorem step_of_idle {s : State} (hseq : s.seq = .idle) : step s = idleStep s := by
  unfold step
  rw [hseq]

/-- An idle LCDC takes the next thing that comes in. -/
theorem step_takes {s : State} {i : Input} {rest : List Input} (hseq : s.seq = .idle) (hinputs : s.inputs = i :: rest) :
    step s = takeInput i { s with inputs := rest } := by
  rw [step_of_idle hseq, idleStep, hinputs]

theorem step_of_running {s : State} {sampled : Byte} {op : MicroOp} {ops : List MicroOp}
    (hseq : s.seq = .running sampled op ops) : step s = busyStep s := by
  unfold step
  rw [hseq]

theorem tick_of_running {s : State} {sampled : Byte} {op : MicroOp} {ops : List MicroOp}
    (hseq : s.seq = .running sampled op ops) : tick s = perform sampled op ops s := by
  unfold tick
  rw [hseq]

theorem busyStep_of_no_reset {s : State} (hreset : ∀ rest, s.inputs ≠ .reset :: rest) :
    busyStep s = .next (tick s) := by
  unfold busyStep
  split
  case h_1 rest hinputs => exact absurd hinputs (hreset rest)
  case h_2 => rfl

/-- While an operation runs and no reset arrives, a step is the micro-operation SEQ names. -/
theorem step_performs {s : State} {sampled : Byte} {op : MicroOp} {ops : List MicroOp}
    (hseq : s.seq = .running sampled op ops) (hreset : ∀ rest, s.inputs ≠ .reset :: rest) :
    step s = .next (perform sampled op ops s) := by
  rw [step_of_running hseq, busyStep_of_no_reset hreset, tick_of_running hseq]

theorem launch_hardware (i : Instr) {s : State} (hmode : s.launchMode = .hardware) : launch i s = exec i s := by
  unfold launch launchRefusal
  rw [hmode]

theorem writeCmd_of_ok {w : CommandWord} {i : Instr} (hdecode : decodeCommand w = .ok i) (s : State) :
    writeCmd w s = launch i { s with cmd := w } := by
  unfold writeCmd
  rw [hdecode]

theorem runBusWord_of_ok {w : BusWord} {i : Instr} (hdecode : decodeBus w = .ok i) (s : State) :
    runBusWord w s = launch i s := by
  unfold runBusWord
  rw [hdecode]

/-- Registers 1 to 4 ignore a host write (R26). -/
theorem hostWrite_readOnly {n : Nat} (hlow : 1 ≤ n) (hhigh : n ≤ 4) (v : CommandWord) (s : State) :
    hostWrite n v s = .next s := by
  obtain rfl | rfl | rfl | rfl : n = 1 ∨ n = 2 ∨ n = 3 ∨ n = 4 := by omega
  all_goals rfl

/-- Register numbers from 5 up do not exist (R61). -/
theorem hostWrite_absent {n : Nat} (h : 5 ≤ n) (v : CommandWord) (s : State) :
    hostWrite n v s = .fault (.noSuchHostRegister n) := by
  obtain ⟨m, rfl⟩ := Nat.exists_eq_add_of_le' h
  rfl

theorem hostRead_absent {n : Nat} (h : 5 ≤ n) (s : State) : hostRead n s = .fault (.noSuchHostRegister n) := by
  obtain ⟨m, rfl⟩ := Nat.exists_eq_add_of_le' h
  rfl

/-- Settles O7: an idle step takes the input, whose launch the hardware mode lets run; a running step performs a
micro-operation, which keeps LCDC's surroundings (`perform_tickFrame`). -/
theorem stepRunsTheDecodedInstruction : Obligations.StepRunsTheDecodedInstruction := by
  unfold Obligations.StepRunsTheDecodedInstruction
  refine ⟨fun s rest i hseq hmode => ⟨fun w hinputs hdecode => ?_, fun w hinputs hdecode => ?_⟩,
    fun s sampled op ops hseq hreset => ⟨step_performs hseq hreset, tick_of_running hseq, ?_⟩⟩
  · calc
      step s = writeCmd w { s with inputs := rest } := step_takes hseq hinputs
      _ = launch i { s with inputs := rest, cmd := w } := writeCmd_of_ok hdecode _
      _ = exec i { s with inputs := rest, cmd := w } := launch_hardware i hmode
  · calc
      step s = runBusWord w { s with inputs := rest } := step_takes hseq hinputs
      _ = launch i { s with inputs := rest } := runBusWord_of_ok hdecode _
      _ = exec i { s with inputs := rest } := launch_hardware i hmode
  · exact (perform_tickFrame sampled op ops s).1

/-- Settles O8: an idle step takes the access, and each register number answers by its row of R26. -/
theorem hostAccessesWhileIdle : Obligations.HostAccessesWhileIdle := by
  unfold Obligations.HostAccessesWhileIdle
  intro s rest n hseq
  refine ⟨fun hinputs => ?waits, fun v hinputs hlow hhigh => ?readOnly, fun v hinputs habsent => ?writeAbsent,
    fun hinputs habsent => ?readAbsent, step_takes hseq, step_takes hseq, step_takes hseq, step_takes hseq,
    step_takes hseq⟩
  case waits => rw [step_of_idle hseq, idleStep, hinputs]
  case readOnly => exact (step_takes hseq hinputs).trans (hostWrite_readOnly hlow hhigh v _)
  case writeAbsent => exact (step_takes hseq hinputs).trans (hostWrite_absent habsent v _)
  case readAbsent => exact (step_takes hseq hinputs).trans (hostRead_absent habsent _)

/-- Settles O10: each field of the reset state is the literal of R43. -/
theorem resetValues : Obligations.ResetValues := by
  unfold Obligations.ResetValues
  decide

/-! ### What an idle LCDC can come to in one step -/

/-- `u` is `s` but for what a host access writes: the inputs still to come, CMD, the host's last read. -/
def HostOnly (s u : State) : Prop := u = { s with inputs := u.inputs, cmd := u.cmd, hostOut := u.hostOut }

/-- What one step from an idle state `s` can come to: a host access alone, a whole operation, the answer to a reserved
op, or LCDC's reset values, at once or after some micro-operations of a command. -/
inductive IdleStep (s : State) : State → Prop
  | access {u : State} (hhost : HostOnly s u) : IdleStep s u
  | operation {i : Instr} {u t : State} (hexec : exec i u = .next t) (hhost : HostOnly s u) : IdleStep s t
  | reserved {u : State} (hhost : HostOnly s u) : IdleStep s (reservedOperation u)
  | reset {rest : List Input} (hinputs : s.inputs = .reset :: rest) :
    IdleStep s (takeReset { s with inputs := rest })
  | cutShort {w : CommandWord} {n : Nat} {rest : List Input} {u : State}
    (hinputs : s.inputs = .writeCutShort w n :: rest) (hpeer : s.peer.wf = true → u.peer.wf = true) :
    IdleStep s (takeReset u)

theorem launch_next {i : Instr} {s t : State} (h : launch i s = .next t) : exec i s = .next t := by
  unfold launch at h
  split at h
  · cases h
  · exact h

theorem writeCmd_next {w : CommandWord} {s t : State} (h : writeCmd w s = .next t) :
    (∃ i, exec i { s with cmd := w } = .next t) ∨ t = reservedOperation { s with cmd := w } := by
  unfold writeCmd at h
  split at h
  · exact .inl ⟨_, launch_next h⟩
  · exact .inr (Host.Outcome.next.inj h).symm

theorem hostWrite_next {n : Nat} {v : CommandWord} {s t : State} (h : hostWrite n v s = .next t) :
    writeCmd v s = .next t ∨ t = s := by
  unfold hostWrite at h
  split at h
  case h_1 => exact .inl h
  case h_6 => cases h
  all_goals exact .inr (Host.Outcome.next.inj h).symm

theorem hostRead_next {n : Nat} {s t : State} (h : hostRead n s = .next t) : ∃ v, t = { s with hostOut := v } := by
  unfold hostRead at h
  split at h
  · exact ⟨_, (Host.Outcome.next.inj h).symm⟩
  · cases h

theorem runBusWord_next {w : BusWord} {s t : State} (h : runBusWord w s = .next t) : ∃ i, exec i s = .next t := by
  unfold runBusWord at h
  split at h
  · exact ⟨_, launch_next h⟩
  · cases h

/-- The micro-operations done before the reset keep the peer's memories canonical. -/
theorem writeCmdCutShort_next {w : CommandWord} {n : Nat} {s t : State} (h : writeCmdCutShort w n s = .next t) :
    ∃ u, t = takeReset u ∧ (s.peer.wf = true → u.peer.wf = true) := by
  unfold writeCmdCutShort at h
  split at h
  case h_1 i _ =>
    unfold cutShort at h
    split at h
    · cases h
    · exact ⟨_, (Host.Outcome.next.inj h).symm, (ticks_tickFrame n (beginOperation i { s with cmd := w })).2.2⟩
  case h_2 => exact ⟨_, (Host.Outcome.next.inj h).symm, id⟩

/-- Every step of an idle LCDC is one of these. -/
theorem idleStep_cases {s t : State} (hseq : s.seq = .idle) (hstep : step s = .next t) : IdleStep s t := by
  cases hinputs : s.inputs with
  | nil =>
    rw [step_of_idle hseq, idleStep, hinputs] at hstep
    exact Host.Outcome.next.inj hstep ▸ .access rfl
  | cons input rest =>
    rw [step_takes hseq hinputs] at hstep
    cases input with
    | write n v =>
      obtain hcmd | rfl := hostWrite_next hstep
      · obtain ⟨i, hexec⟩ | rfl := writeCmd_next hcmd
        · exact .operation hexec rfl
        · exact .reserved rfl
      · exact .access rfl
    | writeCutShort w n =>
      obtain ⟨u, rfl, hpeer⟩ := writeCmdCutShort_next hstep
      exact .cutShort hinputs hpeer
    | read n =>
      obtain ⟨v, rfl⟩ := hostRead_next hstep
      exact .access rfl
    | reset => exact Host.Outcome.next.inj hstep ▸ .reset hinputs
    | busWord w =>
      obtain ⟨i, hexec⟩ := runBusWord_next hstep
      exact .operation hexec rfl

end Sys2Proof.Machine

/-! ## 10_state, sections 2 and 3: what an operation leaves of LCDC's registers -/

namespace Sys2Proof.Machine

/-! ### RDATA (R30) -/

theorem PeerOnly.rdata {s t : State} (h : PeerOnly s t) : t.rdata = s.rdata := by
  unfold PeerOnly at h
  rw [h]

@[simp] theorem writeCycle_rdata (reg : BusRegister) (b : Byte) (s : State) : (writeCycle reg b s).rdata = s.rdata :=
  (writeCycle_peerOnly reg b s).rdata

@[simp] theorem readCycle_rdata (reg : BusRegister) (s : State) : (readCycle reg s).2.rdata = s.rdata :=
  (readCycle_peerOnly reg s).rdata

@[simp] theorem pollUntilReady_rdata (s : State) : (pollUntilReady s).state.rdata = s.rdata := by
  obtain ⟨samples, -, -, hpeer⟩ := poll_afterPoll s
  exact hpeer.rdata

@[simp] theorem issueInstruction_rdata (b : Byte) (s : State) : (issueInstruction b s).rdata = s.rdata := by
  simp [issueInstruction]

@[simp] theorem writeData_rdata (b : Byte) (s : State) : (writeData b s).rdata = s.rdata := by
  simp [writeData]

@[simp] theorem validatedInstruction_rdata (op : LcdOpcode) (arg : Byte) (s : State) :
    (validatedInstruction op arg s).rdata = s.rdata := by
  unfold validatedInstruction
  split <;> simp

theorem initPolled_initRaw_rdata (s : State) : (initPolled (initRaw s)).rdata = s.rdata := by
  obtain ⟨_, _, _, _, -, hpolled⟩ := did_initPolled (initRaw s)
  exact hpolled.trans (initRaw_peerOnly s).rdata

/-- The instructions that R30 names: RDDATA, RDAC and the composites, which all read the address. -/
def writesRdata : Instr → Bool
  | .rddata _ | .rdac _ | .putch _ | .bksp _ | .enter _ | .curleft _ | .curright _ => true
  | _ => false

theorem exec_rdata {i : Instr} (h : writesRdata i = false) (s : State) :
    ∃ t, exec i s = .next t ∧ t.rdata = s.rdata := by
  cases i with
  | clear | home => exact ⟨_, rfl, by simp⟩
  | entry arg | dispctl arg | shift arg | funcset arg | setcg arg | setdd arg =>
    exact ⟨_, rfl, validatedInstruction_rdata _ arg s⟩
  | wrdata | waitbusy => exact ⟨_, rfl, by simp⟩
  | init => exact ⟨_, rfl, by simp [initPolled_initRaw_rdata]⟩
  | rddata | rdac | putch | bksp | enter | curleft | curright => cases h
  | bwClearDisplay | bwReturnHome | bwEntryModeSet | bwDisplayControl | bwCursorDisplayShift | bwFunctionSet
  | bwSetCgramAddress | bwSetDdramAddress | bwDataWrite => exact ⟨_, rfl, writeCycle_rdata _ _ s⟩
  | bwStatusRead | bwDataRead => exact ⟨_, rfl, readCycle_rdata _ s⟩

/-! ### The other registers -/

/-- `new` is the old value, or a value of which `P` holds. -/
def KeptOr {α : Type} (P : α → Prop) (old new : α) : Prop := new = old ∨ P new

namespace KeptOr

variable {α : Type} {P : α → Prop} {a b c : α}

theorem rfl : KeptOr P a a := .inl (Eq.refl a)

theorem trans (h : KeptOr P a b) (k : KeptOr P b c) : KeptOr P a c := by
  obtain heq | hnew := k
  · rw [heq]
    exact h
  · exact .inr hnew

theorem holds (h : KeptOr P a b) (ha : P a) : P b := by
  obtain heq | hnew := h
  · rwa [heq]
  · exact hnew

end KeptOr

/-- What a stretch of an operation does to LCDC's registers, whatever the peer answers, outside INIT's set-up and its
INITD bit; RS, RW, DB_OUT, RDATA and the trace are not spoken of. -/
structure RegisterFrame (s t : State) : Prop where
  surroundings : SameSurroundings s t
  ctlDir : t.ctlDir = s.ctlDir
  flags : t.flags = s.flags ∨ t.flags = withTmo s.flags
  seq : KeptOr (· = .idle) s.seq t.seq
  e : KeptOr (· = .low) s.e t.e
  dbDir : KeptOr (· = .output) s.dbDir t.dbDir
  status : KeptOr (fun b => b = codeSuccess ∨ b = codeInvalidArgument) s.status t.status
  pollres : KeptOr (fun b => b = codeReady ∨ b = codeTimedOut) s.pollres t.pollres
  attempt : KeptOr (·.toNat ≤ s.cfg.maxAttempts) s.attempt t.attempt

theorem SameSurroundings.rfl (s : State) : SameSurroundings s s := (TickFrame.rfl s).1

theorem SameSurroundings.trans {s t u : State} (h : SameSurroundings s t) (k : SameSurroundings t u) :
    SameSurroundings s u := by
  obtain ⟨hcmd, hcfg, hinputs, hhost, hmode⟩ := h
  obtain ⟨kcmd, kcfg, kinputs, khost, kmode⟩ := k
  exact ⟨kcmd.trans hcmd, kcfg.trans hcfg, kinputs.trans hinputs, khost.trans hhost, kmode.trans hmode⟩

namespace RegisterFrame

theorem rfl (s : State) : RegisterFrame s s where
  surroundings := .rfl s
  ctlDir := Eq.refl _
  flags := .inl (Eq.refl _)
  seq := .rfl
  e := .rfl
  dbDir := .rfl
  status := .rfl
  pollres := .rfl
  attempt := .rfl

theorem trans {s t u : State} (h : RegisterFrame s t) (k : RegisterFrame t u) : RegisterFrame s u where
  surroundings := h.surroundings.trans k.surroundings
  ctlDir := k.ctlDir.trans h.ctlDir
  flags := by
    rcases h.flags with hf | hf <;> rcases k.flags with kf | kf <;> simp [hf, kf, withTmo_withTmo]
  seq := h.seq.trans k.seq
  e := h.e.trans k.e
  dbDir := h.dbDir.trans k.dbDir
  status := h.status.trans k.status
  pollres := h.pollres.trans k.pollres
  attempt := by
    have hcfg : t.cfg = s.cfg := h.surroundings.2.1
    have hattempt := k.attempt
    rw [hcfg] at hattempt
    exact h.attempt.trans hattempt

/-- What the peer does is no change of LCDC's registers. -/
theorem peerOnly {s t u : State} (h : RegisterFrame s t) (k : PeerOnly t u) : RegisterFrame s u := by
  unfold PeerOnly at k
  rw [k]
  exact { h with }

/-- The end of an operation, Success. -/
theorem success {s t : State} (h : RegisterFrame s t) : RegisterFrame s (endOperation codeSuccess t) :=
  { h with seq := .inr (Eq.refl _), status := .inr (.inl (Eq.refl _)) }

/-- The end of an operation, InvalidArgument. -/
theorem invalidArgument {s t : State} (h : RegisterFrame s t) : RegisterFrame s (endOperation codeInvalidArgument t) :=
  { h with seq := .inr (Eq.refl _), status := .inr (.inr (Eq.refl _)) }

end RegisterFrame

/-! ### Polls, cycles, operations -/

theorem afterPoll_registerFrame (s : State) {samples : List Byte} (h : PollShape s.cfg.maxAttempts samples) :
    RegisterFrame s (afterPoll samples s) where
  surroundings := .rfl s
  ctlDir := rfl
  flags := by cases hbusy : lastBusy samples <;> simp [afterPoll, pollDone, hbusy]
  seq := .rfl
  e := .inr rfl
  dbDir := .inr rfl
  status := .rfl
  pollres := by cases hbusy : lastBusy samples <;> simp [KeptOr, afterPoll, pollDone, pollCode, hbusy]
  attempt := .inr ((pollDone_start_attempt s h (Config.maxAttempts_le s.cfg)).trans_le h.2.1)

theorem pollUntilReady_registerFrame (s : State) : RegisterFrame s (pollUntilReady s).state := by
  obtain ⟨samples, hshape, -, hpeer⟩ := poll_afterPoll s
  exact (afterPoll_registerFrame s hshape).peerOnly hpeer

theorem writeCycle_registerFrame (reg : BusRegister) (b : Byte) (s : State) :
    RegisterFrame s (writeCycle reg b s) :=
  have hlatched : RegisterFrame s (writeLatched reg b s) := { RegisterFrame.rfl s with e := .inr rfl }
  hlatched.peerOnly (writeCycle_peerOnly reg b s)

theorem readCycle_registerFrame (reg : BusRegister) (s : State) : RegisterFrame s (readCycle reg s).2 :=
  have hdone : RegisterFrame s (readDone reg (readCycle reg s).1 s) :=
    { RegisterFrame.rfl s with e := .inr rfl, dbDir := .inr rfl }
  hdone.peerOnly (readCycle_peerOnly reg s)

theorem issueInstruction_registerFrame (b : Byte) (s : State) : RegisterFrame s (issueInstruction b s) :=
  (pollUntilReady_registerFrame s).trans (writeCycle_registerFrame .instruction b _)

theorem writeData_registerFrame (b : Byte) (s : State) : RegisterFrame s (writeData b s) :=
  (pollUntilReady_registerFrame s).trans (writeCycle_registerFrame .data b _)

theorem readData_registerFrame (s : State) : RegisterFrame s (readData s) :=
  { (pollUntilReady_registerFrame s).trans (readCycle_registerFrame .data _) with }

theorem readAddress_registerFrame (s : State) : RegisterFrame s (readAddress s).2 :=
  { pollUntilReady_registerFrame s with }

theorem subInstruction_registerFrame (op : LcdOpcode) (settings : Byte) (s : State) :
    RegisterFrame s (subInstruction op settings s) := by
  unfold subInstruction
  cases encodeSettings op settings with
  | some b => exact issueInstruction_registerFrame b s
  | none => exact .rfl s

theorem validatedInstruction_registerFrame (op : LcdOpcode) (arg : Byte) (s : State) :
    RegisterFrame s (validatedInstruction op arg s) := by
  unfold validatedInstruction
  cases encodeSettings op arg with
  | some b => exact (issueInstruction_registerFrame b s).success
  | none => exact (RegisterFrame.rfl s).invalidArgument

theorem navigate_registerFrame (t : RemapTable) (otherwise : Option Byte) (s : State) :
    RegisterFrame s (navigate t otherwise s) := by
  refine (readAddress_registerFrame s).trans ?_
  rw [navigate, branchOn_eq]
  cases branchByte t otherwise (readAddress s).1 with
  | some b => exact issueInstruction_registerFrame b _
  | none => exact .rfl _

theorem backspace_registerFrame (s : State) : RegisterFrame s (backspace s) :=
  ((((subInstruction_registerFrame .entryModeSet 0x00#8 s).trans
    (navigate_registerFrame .previousAddress (some leftCursorShift) _)).trans
    (writeData_registerFrame s.cfg.blank _)).trans
    (subInstruction_registerFrame .cursorDisplayShift 0x04#8 _)).trans
    (subInstruction_registerFrame .entryModeSet 0x02#8 _)

/-- INIT up to its INITD bit, after its unpolled part has set the ports (R200). -/
theorem init_registerFrame (s : State) : RegisterFrame (initialised s) (initPolled (initRaw s)) :=
  ((((RegisterFrame.rfl _).peerOnly (initRaw_peerOnly s)).trans
    (subInstruction_registerFrame .functionSet 0x18#8 _)).trans
    (subInstruction_registerFrame .displayControl 0x00#8 _)).trans
    ((issueInstruction_registerFrame LcdOpcode.clearDisplay.code _).trans
    (subInstruction_registerFrame .entryModeSet 0x02#8 _))

/-! ### Instructions -/

/-- Every instruction but INIT keeps within the frame. -/
theorem exec_registerFrame {i : Instr} {s t : State} (hinit : ∀ a, i ≠ .init a) (hexec : exec i s = .next t) :
    RegisterFrame s t := by
  suffices h : ∃ u, exec i s = .next u ∧ RegisterFrame s u by
    obtain ⟨u, hu, hframe⟩ := h
    exact Host.Outcome.next.inj (hu.symm.trans hexec) ▸ hframe
  cases i with
  | clear | home => exact ⟨_, rfl, (issueInstruction_registerFrame _ s).success⟩
  | entry arg | dispctl arg | shift arg | funcset arg | setcg arg | setdd arg =>
    exact ⟨_, rfl, validatedInstruction_registerFrame _ arg s⟩
  | wrdata arg => exact ⟨_, rfl, (writeData_registerFrame arg s).success⟩
  | rddata => exact ⟨_, rfl, (readData_registerFrame s).success⟩
  | rdac => exact ⟨_, rfl, (readAddress_registerFrame s).success⟩
  | waitbusy => exact ⟨_, rfl, (pollUntilReady_registerFrame s).success⟩
  | init a => exact absurd rfl (hinit a)
  | putch arg => exact ⟨_, rfl, ((writeData_registerFrame arg s).trans (navigate_registerFrame _ _ _)).success⟩
  | bksp => exact ⟨_, rfl, (backspace_registerFrame s).success⟩
  | enter | curleft | curright => exact ⟨_, rfl, (navigate_registerFrame _ _ s).success⟩
  | bwClearDisplay | bwReturnHome | bwEntryModeSet | bwDisplayControl | bwCursorDisplayShift | bwFunctionSet
  | bwSetCgramAddress | bwSetDdramAddress | bwDataWrite => exact ⟨_, rfl, writeCycle_registerFrame _ _ s⟩
  | bwStatusRead | bwDataRead => exact ⟨_, rfl, readCycle_registerFrame _ s⟩

/-- An instruction keeps within the frame, or it is INIT, which writes INITD and STATUS at its end. -/
theorem exec_cases {i : Instr} {s t : State} (hexec : exec i s = .next t) :
    RegisterFrame s t ∨ ∃ u, RegisterFrame (initialised s) u ∧ t = endOperation codeSuccess (recordInitd u) := by
  by_cases hinit : ∃ a, i = .init a
  · obtain ⟨a, rfl⟩ := hinit
    exact .inr ⟨_, init_registerFrame s, (Host.Outcome.next.inj hexec).symm⟩
  · exact .inl (exec_registerFrame (fun a ha => hinit ⟨a, ha⟩) hexec)

theorem exec_surroundings {i : Instr} {s t : State} (hexec : exec i s = .next t) : SameSurroundings s t := by
  obtain hframe | ⟨u, hframe, rfl⟩ := exec_cases hexec
  · exact hframe.surroundings
  · exact hframe.surroundings

theorem withTmo_bit1 (f : Byte) : (withTmo f)[1] = f[1] := by simp [withTmo]

theorem RegisterFrame.initd {s t : State} (h : RegisterFrame s t) : t.initd = s.initd := by
  unfold State.initd
  rcases h.flags with hflags | hflags <;> rw [hflags]
  exact withTmo_bit1 s.flags

/-- Settles O58: INIT apart, CTL_DIR and INITD lie in the frame of every instruction (`exec_registerFrame`), RDATA in
that of the instructions R30 does not name (`exec_rdata`). -/
theorem onlyTheNamedOperationsWrite : Obligations.OnlyTheNamedOperationsWrite := by
  unfold Obligations.OnlyTheNamedOperationsWrite
  intro i s t hexec
  have hsame := exec_surroundings hexec
  refine ⟨fun hinit => ?_, fun hnamed => ?_, hsame.1, hsame⟩
  · have hframe := exec_registerFrame hinit hexec
    exact ⟨hframe.ctlDir, hframe.initd⟩
  · have hwrites : writesRdata i = false := by
      revert hnamed
      cases i <;> simp [writesRdata]
    obtain ⟨u, hu, hrdata⟩ := exec_rdata hwrites s
    obtain rfl : u = t := Host.Outcome.next.inj (hu.symm.trans hexec)
    exact hrdata

/-! ### TMO and INITD (R31) -/

/-- Of FLAGS, bits 0 and 1 that are set in `s` are set in `t`. -/
def FlagsKept (s t : State) : Prop := (s.tmo = true → t.tmo = true) ∧ (s.initd = true → t.initd = true)

theorem FlagsKept.trans {s t u : State} (h : FlagsKept s t) (k : FlagsKept t u) : FlagsKept s u :=
  ⟨k.1 ∘ h.1, k.2 ∘ h.2⟩

theorem FlagsKept.of_flags {s t : State} (h : t.flags = s.flags) : FlagsKept s t := by
  simp [FlagsKept, State.tmo, State.initd, h]

theorem FlagsKept.of_withTmo {s t : State} (h : t.flags = withTmo s.flags) : FlagsKept s t := by
  simp [FlagsKept, State.tmo, State.initd, h, withTmo]

theorem FlagsKept.of_withInitd {s t : State} (h : t.flags = withInitd s.flags) : FlagsKept s t := by
  simp +contextual [FlagsKept, State.tmo, State.initd, h, withInitd]

theorem PeerOnly.flags {s t : State} (h : PeerOnly s t) : t.flags = s.flags := by
  unfold PeerOnly at h
  rw [h]

theorem setEnable_flags (l : Level) (s : State) : (setEnable l s).flags = s.flags := by
  cases l with
  | high => rw [setEnable_high]; rfl
  | low => exact (setEnable_low s).flags

theorem perform_flagsKept (sampled : Byte) (op : MicroOp) (rest : List MicroOp) (s : State) :
    FlagsKept s (perform sampled op rest s) := by
  cases op with
  | setEnable l => exact .of_flags (setEnable_flags l s)
  | readDataLines => exact .of_flags (dataLinesIn_peerOnly s).flags
  | setInitd => exact .of_withInitd rfl
  | pollTest =>
    show FlagsKept s (Machine.pollTest sampled rest (countAttempt s))
    unfold Machine.pollTest
    split
    · split
      · exact .of_withTmo rfl
      · exact .of_flags rfl
    · exact .of_flags rfl
  | setControlDirection | setDataDirection | setControlLines | setDataLines | delay | pollStart | latchAddress
  | latchData | branch | finish => exact .of_flags rfl

theorem RegisterFrame.flagsKept {s t : State} (h : RegisterFrame s t) : FlagsKept s t :=
  h.flags.elim .of_flags .of_withTmo

theorem exec_flagsKept {i : Instr} {s t : State} (hexec : exec i s = .next t) : FlagsKept s t := by
  obtain hframe | ⟨u, hframe, rfl⟩ := exec_cases hexec
  · exact hframe.flagsKept
  · have hset : FlagsKept u (endOperation codeSuccess (recordInitd u)) := .of_withInitd rfl
    exact FlagsKept.trans hframe.flagsKept hset

theorem HostOnly.flags {s u : State} (h : HostOnly s u) : u.flags = s.flags := by
  unfold HostOnly at h
  rw [h]

/-- Settles O57: a micro-operation, a whole operation and a host access each keep FLAGS or set a bit of it. -/
theorem flagsAreSticky : Obligations.FlagsAreSticky := by
  unfold Obligations.FlagsAreSticky
  intro s t hreset hcut hstep
  change FlagsKept s t
  cases hseq : s.seq with
  | running sampled op ops =>
    rw [step_performs hseq hreset] at hstep
    exact Host.Outcome.next.inj hstep ▸ perform_flagsKept sampled op ops s
  | idle =>
    cases idleStep_cases hseq hstep with
    | access hhost => exact .of_flags hhost.flags
    | operation hexec hhost => exact (FlagsKept.of_flags hhost.flags).trans (exec_flagsKept hexec)
    | reserved hhost => exact .of_flags hhost.flags
    | reset hinputs => exact absurd hinputs (hreset _)
    | cutShort hinputs => exact absurd hinputs (hcut _ _ _)

end Sys2Proof.Machine

/-! ## The machine invariant (R22, R28, R29, R31, R35, R139, R278) -/

namespace Sys2Proof.Machine

theorem MachineInvariant.idle {s : State} (h : MachineInvariant s) : s.seq = .idle := h.1

theorem MachineInvariant.peer_wf {s : State} (h : MachineInvariant s) : s.peer.wf = true := by
  obtain ⟨-, -, -, -, -, -, -, hpeer⟩ := h
  exact hpeer

/-- Only the peer's memories matter to the invariant after a reset. -/
theorem takeReset_invariant {s : State} (hpeer : s.peer.wf = true) : MachineInvariant (takeReset s) :=
  ⟨rfl, rfl, by simp [State.initd, takeReset, State.reset], .inl rfl, .inl rfl,
    show 0x00#8 &&& 0xFC#8 = 0x00#8 by decide, Nat.zero_le _, hpeer⟩

/-- Settles O54: the reset state is what a reset makes of it. -/
theorem invariantAtReset : Obligations.InvariantAtReset := by
  have hpeer : State.reset.peer.wf = true := rfl
  exact takeReset_invariant hpeer

theorem HostOnly.invariant {s u : State} (h : HostOnly s u) (hinv : MachineInvariant s) : MachineInvariant u := by
  unfold HostOnly at h
  rw [h]
  exact hinv

theorem reservedOperation_invariant {s : State} (h : MachineInvariant s) : MachineInvariant (reservedOperation s) := by
  obtain ⟨-, he, hports, -, hregisters⟩ := h
  exact ⟨rfl, he, hports, .inr rfl, hregisters⟩

theorem withTmo_highBits (f : Byte) : withTmo f &&& 0xFC#8 = f &&& 0xFC#8 := by
  revert f
  decide

theorem withInitd_highBits (f : Byte) : withInitd f &&& 0xFC#8 = f &&& 0xFC#8 := by
  revert f
  decide

theorem RegisterFrame.invariant {s t : State} (h : RegisterFrame s t) (hinv : MachineInvariant s)
    (hpeer : t.peer.wf = true) : MachineInvariant t := by
  obtain ⟨hseq, he, hports, hstatus, hpollres, hflags, hattempt, -⟩ := hinv
  refine ⟨h.seq.holds hseq, h.e.holds he, fun hinitd => ?ports, h.status.holds hstatus, ?pollres, ?flags, ?attempt,
    hpeer⟩
  case ports =>
    obtain ⟨hctl, hdata⟩ := hports (h.initd ▸ hinitd)
    exact ⟨h.ctlDir.trans hctl, h.dbDir.holds hdata⟩
  case pollres =>
    obtain hkept | hpolled := h.pollres
    · rwa [hkept]
    · exact .inr hpolled
  case flags =>
    rcases h.flags with hkept | htmo
    · rwa [hkept]
    · rwa [htmo, withTmo_highBits]
  case attempt =>
    rw [h.surroundings.2.1]
    exact h.attempt.holds hattempt

/-- The unpolled part of INIT makes both ports outputs. -/
theorem initialised_invariant {s : State} (h : MachineInvariant s) : MachineInvariant (initialised s) := by
  obtain ⟨hseq, -, -, hregisters⟩ := h
  exact ⟨hseq, rfl, fun _ => ⟨rfl, rfl⟩, hregisters⟩

/-- INITD may be set where both ports are outputs. -/
theorem recordInitd_invariant {s : State} (h : MachineInvariant s) (hctl : s.ctlDir = .output)
    (hdata : s.dbDir = .output) : MachineInvariant (endOperation codeSuccess (recordInitd s)) := by
  obtain ⟨-, he, -, -, hpollres, hflags, hrest⟩ := h
  exact ⟨rfl, he, fun _ => ⟨hctl, hdata⟩, .inl rfl, hpollres, (withInitd_highBits s.flags).trans hflags, hrest⟩

/-- The peer's memories stay canonical through the micro-operations of an operation, and so through all of it
(`reach_exec`). -/
theorem exec_peer_wf {i : Instr} {s t : State} (hseq : s.seq = .idle) (hexec : exec i s = .next t)
    (hpeer : s.peer.wf = true) : t.peer.wf = true := by
  obtain ⟨u, hu, ⟨n, hticks, -⟩, -⟩ := reach_exec i hseq
  obtain rfl : u = t := Host.Outcome.next.inj (hu.symm.trans hexec)
  rw [← hticks]
  exact (ticks_tickFrame n (beginOperation i s)).2.2 hpeer

theorem exec_invariant {i : Instr} {s t : State} (hinv : MachineInvariant s) (hexec : exec i s = .next t) :
    MachineInvariant t := by
  have hpeer : t.peer.wf = true := exec_peer_wf hinv.idle hexec hinv.peer_wf
  obtain hframe | ⟨u, hframe, rfl⟩ := exec_cases hexec
  · exact hframe.invariant hinv hpeer
  · have hu : MachineInvariant u := hframe.invariant (initialised_invariant hinv) hpeer
    exact recordInitd_invariant hu hframe.ctlDir (hframe.dbDir.holds rfl)

/-- Settles O55: each thing an idle step can come to keeps the invariant (`idleStep_cases`). -/
theorem everyStepKeepsTheInvariant : Obligations.EveryStepKeepsTheInvariant := by
  unfold Obligations.EveryStepKeepsTheInvariant
  intro s t hinv hstep
  cases idleStep_cases hinv.idle hstep with
  | access hhost => exact hhost.invariant hinv
  | operation hexec hhost => exact exec_invariant (hhost.invariant hinv) hexec
  | reserved hhost => exact reservedOperation_invariant (hhost.invariant hinv)
  | reset => exact takeReset_invariant hinv.peer_wf
  | cutShort _ hcut => exact takeReset_invariant (hcut hinv.peer_wf)

end Sys2Proof.Machine

/-! ## 20_memory, section 3: LCDC depends on the peer only through the bytes sampled (R71, decision D24) -/

namespace Sys2Proof.Machine

/-! ### The bytes sampled -/

/-- The byte an event samples, if it is a sample. -/
def Event.sampledByte : Event → Option Byte
  | .sample b => some b
  | _ => none

/-- The bytes sampled in a trace, oldest first. -/
def samplesOf (evs : List Event) : List Byte := evs.filterMap Event.sampledByte

@[simp] theorem samplesOf_append (evs more : List Event) : samplesOf (evs ++ more) = samplesOf evs ++ samplesOf more :=
  List.filterMap_append

@[simp] theorem samplesOf_write (reg : BusRegister) (b : Byte) : samplesOf (Txn.events (.write reg b)) = [] := rfl

@[simp] theorem samplesOf_read (reg : BusRegister) (b : Byte) : samplesOf (Txn.events (.read reg b)) = [b] := rfl

@[simp] theorem samplesOf_wait (d : Delay) : samplesOf (Txn.events (.wait d)) = [] := rfl

@[simp] theorem samplesOf_timeout : samplesOf (Txn.events .timeout) = [] := rfl

theorem samplesOf_prefix {evs more : List Event} (h : evs <+: more) : samplesOf evs <+: samplesOf more := by
  obtain ⟨rest, rfl⟩ := h
  simp

/-- The samples of a poll's trace are the bytes it is said to have sampled. -/
@[simp] theorem samplesOf_pollTxns (samples : List Byte) : samplesOf (pinEvents (pollTxns samples)) = samples := by
  induction samples with
  | nil => rfl
  | cons b rest ih =>
    cases rest with
    | nil => cases hb : busyBit b <;> simp [pollTxns, statusReads, hb]
    | cons c rest =>
      rw [pollTxns_cons b (by simp)]
      simp [ih]

/-- A poll stops by what it has sampled: of two polls with one budget, neither sampled a proper beginning of what the
other did (R153). -/
theorem PollShape.eq_of_prefix {n : Nat} {p q : List Byte} (hp : PollShape n p) (hq : PollShape n q) (h : p <+: q) :
    p = q := by
  obtain ⟨rest, rfl⟩ := h
  by_contra hne
  have hrest : rest ≠ [] := fun hnil => hne (by simp [hnil])
  obtain ⟨-, hlength, hbusy, -⟩ := hq
  have hlast : lastBusy p = true := by
    rw [lastBusy_eq hp.ne_nil]
    refine hbusy _ ?_
    rw [List.dropLast_append_of_ne_nil hrest, lastSample, List.getLastD_eq_getLast?,
      List.getLast?_eq_some_getLast hp.ne_nil]
    exact List.mem_append_left _ (List.getLast_mem hp.ne_nil)
  have hfull : p.length = n := hp.2.2.2 hlast
  have hpos := List.length_pos_of_ne_nil hrest
  simp only [List.length_append] at hlength
  omega

/-! ### Operations that only the samples drive -/

theorem PeerOnly.symm {s t : State} (h : PeerOnly s t) : PeerOnly t s := by
  unfold PeerOnly at *
  rw [h]

theorem PeerOnly.trace {s t : State} (h : PeerOnly s t) : t.trace = s.trace := by
  unfold PeerOnly at h
  rw [h]

/-- What a function makes of two such states, if it neither reads nor writes the peer and the free values. -/
theorem PeerOnly.map {f : State → State} {s t : State} (h : PeerOnly s t)
    (hf : ∀ u p n, f { u with peer := p, freeCount := n } = { f u with peer := p, freeCount := n }) :
    PeerOnly (f s) (f t) := by
  unfold PeerOnly at *
  rw [h, hf]

/-- RDATA is written. -/
def withRdata (b : Byte) (s : State) : State := { s with rdata := b }

theorem PeerOnly.withRdata {s t : State} (h : PeerOnly s t) (b : Byte) : PeerOnly (withRdata b s) (withRdata b t) :=
  h.map fun _ _ _ => Eq.refl _

/-- An operation that only adds events, and of which two runs, from states that differ only in the peer and the free
values, cannot come apart as long as both sample along one list of bytes. -/
structure SampleDriven (f : State → State) : Prop where
  adds : ∀ s, s.trace <+: (f s).trace
  determined : ∀ (s s' : State) (bytes : List Byte), PeerOnly s s' → samplesOf (f s).trace <+: bytes →
    samplesOf (f s').trace <+: bytes → PeerOnly (f s) (f s')

namespace SampleDriven

/-- Run one after the other: what the first one samples begins what both sample. -/
theorem comp {g f : State → State} (hg : SampleDriven g) (hf : SampleDriven f) : SampleDriven fun s => g (f s) where
  adds s := (hf.adds s).trans (hg.adds (f s))
  determined s s' bytes hpeer h h' :=
    have hfirst : PeerOnly (f s) (f s') :=
      hf.determined s s' bytes hpeer ((samplesOf_prefix (hg.adds (f s))).trans h)
        ((samplesOf_prefix (hg.adds (f s'))).trans h')
    hg.determined (f s) (f s') bytes hfirst h h'

/-- An operation may depend on whatever is neither the peer nor a free value. -/
theorem reading {α : Type} {f : α → State → State} {field : State → α} (hf : ∀ a, SampleDriven (f a))
    (hfield : ∀ {s s'}, PeerOnly s s' → field s' = field s) : SampleDriven fun s => f (field s) s where
  adds s := (hf (field s)).adds s
  determined s s' bytes hpeer h h' := by
    rw [hfield hpeer] at h' ⊢
    exact (hf (field s)).determined s s' bytes hpeer h h'

/-- An operation that samples some bytes and does, but for the peer and the free values, what is done `after` them:
enough that the bytes say themselves where they end. -/
theorem of_samples {f : State → State} {possible : Config → List Byte → Prop} {after : List Byte → State → State}
    (hf : ∀ s, ∃ bytes, possible s.cfg bytes ∧ PeerOnly (after bytes s) (f s))
    (hends : ∀ c x y, possible c x → possible c y → x <+: y → x = y)
    (hafter : ∀ bytes {s s'}, PeerOnly s s' → PeerOnly (after bytes s) (after bytes s'))
    (htrace : ∀ bytes s, possible s.cfg bytes →
      ∃ evs, (after bytes s).trace = s.trace ++ evs ∧ samplesOf evs = bytes) : SampleDriven f where
  adds s := by
    obtain ⟨bytes, hbytes, hpeer⟩ := hf s
    obtain ⟨evs, hevs, -⟩ := htrace bytes s hbytes
    rw [hpeer.trace, hevs]
    exact List.prefix_append _ _
  determined s s' bytes hpeer h h' := by
    obtain ⟨x, hx, hfx⟩ := hf s
    obtain ⟨y, hy, hfy⟩ := hf s'
    obtain ⟨evs, hevs, rfl⟩ := htrace x s hx
    obtain ⟨evs', hevs', rfl⟩ := htrace y s' hy
    rw [hfx.trace, hevs, samplesOf_append] at h
    rw [hfy.trace, hevs', samplesOf_append, hpeer.trace] at h'
    rw [hpeer.cfg] at hy
    have hsame : samplesOf evs = samplesOf evs' := by
      rcases List.prefix_or_prefix_of_prefix h h' with hle | hle
      · exact hends s.cfg _ _ hx hy ((List.prefix_append_right_inj _).1 hle)
      · exact (hends s.cfg _ _ hy hx ((List.prefix_append_right_inj _).1 hle)).symm
    rw [← hsame] at hfy
    exact (hfx.symm.trans (hafter _ hpeer)).trans hfy

/-- An operation that samples nothing. -/
theorem of_no_sample {f after : State → State} (hf : ∀ s, PeerOnly (after s) (f s))
    (hafter : ∀ {s s'}, PeerOnly s s' → PeerOnly (after s) (after s'))
    (htrace : ∀ s, ∃ evs, (after s).trace = s.trace ++ evs ∧ samplesOf evs = []) : SampleDriven f :=
  of_samples (possible := fun _ bytes => bytes = []) (after := fun _ => after)
    (fun s => ⟨[], rfl, hf s⟩)
    (fun _ _ _ hx hy _ => hx.trans hy.symm)
    (fun _ _ _ hpeer => hafter hpeer)
    (fun _ s hbytes => hbytes ▸ htrace s)

theorem nothing : SampleDriven fun s => s := of_no_sample PeerOnly.rfl (fun h => h) fun _ => ⟨[], by simp, rfl⟩

theorem endOperation (code : Byte) : SampleDriven (endOperation code) :=
  of_no_sample (fun _ => PeerOnly.rfl _) (·.map fun _ _ _ => rfl) fun _ => ⟨[], by simp, rfl⟩

theorem recordInitd : SampleDriven recordInitd :=
  of_no_sample (fun _ => PeerOnly.rfl _) (·.map fun _ _ _ => rfl) fun _ => ⟨[], by simp, rfl⟩

theorem writeCycle (reg : BusRegister) (b : Byte) : SampleDriven (writeCycle reg b) :=
  of_no_sample (writeCycle_peerOnly reg b) (fun h => h.writeLatched reg b) fun _ =>
    ⟨_, rfl, samplesOf_write reg b⟩

theorem initRaw : SampleDriven initRaw :=
  of_no_sample initRaw_peerOnly (·.map fun _ _ _ => rfl) fun _ =>
    ⟨_, List.append_assoc _ _ _, rfl⟩

/-- A read cycle samples one byte (R138). -/
theorem readCycle (reg : BusRegister) : SampleDriven fun s => (readCycle reg s).2 :=
  of_samples (possible := fun _ bytes => bytes.length = 1) (after := fun bytes => readDone reg (lastSample bytes))
    (fun s => ⟨[_], rfl, readCycle_peerOnly reg s⟩)
    (fun _ _ _ hx hy hle => hle.eq_of_length (hx.trans hy.symm))
    (fun _ _ _ hpeer => hpeer.readDone reg _)
    (fun bytes s hbytes => by
      obtain ⟨b, rfl⟩ := List.length_eq_one_iff.1 hbytes
      exact ⟨_, rfl, samplesOf_read reg b⟩)

theorem poll : SampleDriven fun s => (pollUntilReady s).state :=
  of_samples (possible := fun c => PollShape c.maxAttempts) (after := afterPoll)
    (fun s => by
      obtain ⟨bytes, hshape, -, hpeer⟩ := poll_afterPoll s
      exact ⟨bytes, hshape, hpeer⟩)
    (fun _ _ _ hx hy => hx.eq_of_prefix hy)
    (fun bytes _ _ hpeer => hpeer.afterPoll bytes)
    (fun bytes _ _ => ⟨_, rfl, samplesOf_pollTxns bytes⟩)

theorem readAddress : SampleDriven fun s => (readAddress s).2 :=
  of_samples (possible := fun c => PollShape c.maxAttempts)
    (after := fun bytes s => withRdata (addressByte (addressOf (lastSample bytes))) (afterPoll bytes s))
    (fun s => by
      obtain ⟨bytes, hshape, -, hpeer⟩ := readAddress_spec s
      exact ⟨bytes, hshape, hpeer⟩)
    (fun _ _ _ hx hy => hx.eq_of_prefix hy)
    (fun bytes _ _ hpeer => (hpeer.afterPoll bytes).withRdata _)
    (fun bytes _ _ => ⟨_, rfl, samplesOf_pollTxns bytes⟩)

/-- The read cycle of RDDATA, whose byte RDATA receives (R193). -/
theorem readToRdata (reg : BusRegister) :
    SampleDriven fun s => withRdata (Machine.readCycle reg s).1 (Machine.readCycle reg s).2 :=
  of_samples (possible := fun _ bytes => bytes.length = 1)
    (after := fun bytes s => withRdata (lastSample bytes) (readDone reg (lastSample bytes) s))
    (fun s => ⟨[_], rfl, (readCycle_peerOnly reg s).withRdata _⟩)
    (fun _ _ _ hx hy hle => hle.eq_of_length (hx.trans hy.symm))
    (fun _ _ _ hpeer => (hpeer.readDone reg _).withRdata _)
    (fun bytes s hbytes => by
      obtain ⟨b, rfl⟩ := List.length_eq_one_iff.1 hbytes
      exact ⟨_, rfl, samplesOf_read reg b⟩)

theorem readData : SampleDriven readData := (readToRdata .data).comp poll

theorem issueInstruction (b : Byte) : SampleDriven (issueInstruction b) := (writeCycle .instruction b).comp poll

theorem writeData (b : Byte) : SampleDriven (writeData b) := (writeCycle .data b).comp poll

theorem validatedInstruction (op : LcdOpcode) (arg : Byte) : SampleDriven (validatedInstruction op arg) := by
  unfold Machine.validatedInstruction
  cases encodeSettings op arg with
  | some b => exact (endOperation codeSuccess).comp (issueInstruction b)
  | none => exact endOperation codeInvalidArgument

theorem subInstruction (op : LcdOpcode) (settings : Byte) : SampleDriven (subInstruction op settings) := by
  unfold Machine.subInstruction
  cases encodeSettings op settings with
  | some b => exact issueInstruction b
  | none => exact nothing

theorem branchOn (t : RemapTable) (otherwise : Option Byte) (a : Address) :
    SampleDriven (branchOn t otherwise a) := by
  have heq : Machine.branchOn t otherwise a = fun s =>
      match branchByte t otherwise a with
      | some b => Machine.issueInstruction b s
      | none => s := funext (branchOn_eq t otherwise a)
  rw [heq]
  cases branchByte t otherwise a with
  | some b => exact issueInstruction b
  | none => exact nothing

/-- The address a composite branches on is in RDATA (R219). -/
theorem navigate (t : RemapTable) (otherwise : Option Byte) : SampleDriven (navigate t otherwise) := by
  have hbranch : SampleDriven fun s => Machine.branchOn t otherwise (addressOf s.rdata) s :=
    reading (branchOn t otherwise) fun hpeer => congrArg addressOf hpeer.rdata
  have heq : Machine.navigate t otherwise =
      fun s => Machine.branchOn t otherwise (addressOf (Machine.readAddress s).2.rdata) (Machine.readAddress s).2 := by
    funext s
    have hrdata : addressOf (Machine.readAddress s).2.rdata = (Machine.readAddress s).1 := addressOf_addressByte _
    rw [Machine.navigate, hrdata]
  rw [heq]
  exact hbranch.comp readAddress

/-- BKSP writes BLANK, a constant of the configuration (R223). -/
theorem backspace : SampleDriven backspace := by
  have hblank (blank : Byte) := (subInstruction .entryModeSet 0x02#8).comp
    ((subInstruction .cursorDisplayShift 0x04#8).comp ((writeData blank).comp
      ((navigate .previousAddress (some leftCursorShift)).comp (subInstruction .entryModeSet 0x00#8))))
  have hread := reading (field := fun s => s.cfg.blank) hblank fun hpeer => congrArg Config.blank hpeer.cfg
  exact hread

theorem initPolled : SampleDriven initPolled :=
  (subInstruction .entryModeSet 0x02#8).comp ((issueInstruction LcdOpcode.clearDisplay.code).comp
    ((subInstruction .displayControl 0x00#8).comp (subInstruction .functionSet 0x18#8)))

/-- Every instruction is such an operation. -/
theorem exec (i : Instr) : ∃ f, (∀ s, Machine.exec i s = .next (f s)) ∧ SampleDriven f := by
  have success {f : State → State} (h : SampleDriven f) := (endOperation codeSuccess).comp h
  cases i with
  | clear | home => exact ⟨_, fun _ => rfl, success (issueInstruction _)⟩
  | entry arg | dispctl arg | shift arg | funcset arg | setcg arg | setdd arg =>
    exact ⟨_, fun _ => rfl, validatedInstruction _ arg⟩
  | wrdata arg => exact ⟨_, fun _ => rfl, success (writeData arg)⟩
  | rddata => exact ⟨_, fun _ => rfl, success readData⟩
  | rdac => exact ⟨_, fun _ => rfl, success readAddress⟩
  | waitbusy => exact ⟨_, fun _ => rfl, success poll⟩
  | init => exact ⟨_, fun _ => rfl, success (recordInitd.comp (initPolled.comp initRaw))⟩
  | putch arg => exact ⟨_, fun _ => rfl, success ((navigate _ _).comp (writeData arg))⟩
  | bksp => exact ⟨_, fun _ => rfl, success backspace⟩
  | enter | curleft | curright => exact ⟨_, fun _ => rfl, success (navigate _ _)⟩
  | bwClearDisplay | bwReturnHome | bwEntryModeSet | bwDisplayControl | bwCursorDisplayShift | bwFunctionSet
  | bwSetCgramAddress | bwSetDdramAddress | bwDataWrite => exact ⟨_, fun _ => rfl, writeCycle _ _⟩
  | bwStatusRead | bwDataRead => exact ⟨_, fun _ => rfl, readCycle _⟩

end SampleDriven

/-- Settles O59: every instruction is driven by its samples (`SampleDriven.exec`), and the two runs sample along the
same bytes. -/
theorem onlySamplesReachLcdc : Obligations.OnlySamplesReachLcdc := by
  unfold Obligations.OnlySamplesReachLcdc
  intro i s s' t t' evs evs' hpeer hexec hexec' htrace htrace' hsamples
  change samplesOf evs = samplesOf evs' at hsamples
  obtain ⟨f, hf, hdriven⟩ := SampleDriven.exec i
  obtain rfl : f s = t := Host.Outcome.next.inj ((hf s).symm.trans hexec)
  obtain rfl : f s' = t' := Host.Outcome.next.inj ((hf s').symm.trans hexec')
  have hbytes : samplesOf (f s').trace = samplesOf (f s).trace := by
    rw [htrace, htrace', samplesOf_append, samplesOf_append, hsamples, PeerOnly.trace hpeer]
  exact hdriven.determined s s' _ hpeer List.prefix_rfl (hbytes ▸ List.prefix_rfl)

end Sys2Proof.Machine

/-! ## 20_memory, section 3: transactions and the time they take (R70, R294) -/

namespace Sys2Proof.Machine

/-! ### One transaction -/

/-- What stands first in a pin-level trace of transactions is taken as that transaction. -/
theorem transactions_events_append (txn : Txn) (evs : List Event) :
    transactions (txn.events ++ evs) = txn :: transactions evs := by
  cases txn <;> rfl

/-- No transaction begins with the data lines, as the second event of a write cycle would. -/
theorem cycleAt_ctl_pinEvents (reg : BusRegister) (txns : List Txn) :
    cycleAt (.ctl reg .write :: pinEvents txns) = none := by
  cases txns with
  | nil => rfl
  | cons txn rest => cases txn <;> rfl

/-- The set-up events of INIT have no transaction-level form (R205). -/
theorem transactions_setupEvents_append (txns : List Txn) :
    transactions (setupEvents ++ pinEvents txns) = transactions (pinEvents txns) := by
  show transactionsFrom 0 (.ctl .instruction .write :: pinEvents txns) = transactionsFrom 0 (pinEvents txns)
  rw [transactionsFrom, cycleAt_ctl_pinEvents]
  rfl

theorem transactions_pinEvents (txns : List Txn) : transactions (pinEvents txns) = txns := by
  induction txns with
  | nil => rfl
  | cons txn rest ih => rw [pinEvents_cons, transactions_events_append, ih]

theorem elapsed_append (evs more : List Event) : elapsed (evs ++ more) = elapsed evs + elapsed more := by
  simp [elapsed]

/-- R294: of a cycle only its two delays take time. -/
theorem elapsed_write (reg : BusRegister) (b : Byte) :
    elapsed (Txn.events (.write reg b)) = Delay.settle.nanoseconds + Delay.enHold.nanoseconds := by
  simp [elapsed, Txn.events, Event.nanoseconds]

theorem elapsed_read (reg : BusRegister) (b : Byte) :
    elapsed (Txn.events (.read reg b)) = Delay.rdSetup.nanoseconds + Delay.rdHold.nanoseconds := by
  simp [elapsed, Txn.events, Event.nanoseconds]

/-- Settles O14, by induction on the transactions (`transactions_pinEvents`). -/
theorem transactionsOfPinEvents : Obligations.TransactionsOfPinEvents := by
  unfold Obligations.TransactionsOfPinEvents
  intro txns
  refine ⟨transactions_pinEvents txns, ?_, fun reg b => ?_, fun reg b => ?_⟩
  · rw [transactions_setupEvents_append, transactions_pinEvents]
  · rw [pinEvents_cons, elapsed_append, elapsed_write]
  · rw [pinEvents_cons, elapsed_append, elapsed_read]

end Sys2Proof.Machine

/-! ## 20_memory, section 6: the reference peer (R82 to R92) -/

namespace Sys2Proof.Machine

/-! ### The address counter's steps (R83) -/

/-- R83's table in DDRAM. -/
theorem addressStep_ddram (a : Address) :
    addressStep .ddram true a = (if a = 0x27#7 then 0x40#7 else if a = 0x67#7 then 0x00#7
      else BitVec.ofNat 7 ((a.toNat + 1) % 128)) ∧
    addressStep .ddram false a = (if a = 0x40#7 then 0x27#7 else if a = 0x00#7 then 0x67#7
      else BitVec.ofNat 7 ((a.toNat + 127) % 128)) := by
  revert a
  decide

/-- In CGRAM the low six bits step modulo 64. -/
theorem addressStep_cgram (up : Bool) (a : Address) :
    (addressStep .cgram up a).toNat = 64 * (a.toNat / 64) + (a.toNat + if up then 1 else 63) % 64 := by
  cases up <;> revert a <;> decide

/-- R232, where R83's table has it (log 26). -/
theorem addressStep_ddram_inverse {a : Address} (h : lineOf a ≠ none) (up : Bool) :
    addressStep .ddram up (addressStep .ddram (!up) a) = a := by
  cases up <;> revert a <;> decide

theorem addressStep_cgram_inverse (up : Bool) (a : Address) :
    addressStep .cgram up (addressStep .cgram (!up) a) = a := by
  cases up <;> revert a <;> decide

/-- Settles O37: R83's table at each of the 128 addresses, and `RefPeer.stepped_eq`. -/
theorem addressSteps : Obligations.AddressSteps := by
  unfold Obligations.AddressSteps
  refine ⟨fun a => ?_, fun p up h => RefPeer.stepped_eq h up⟩
  obtain ⟨hnext, hprevious⟩ := addressStep_ddram a
  exact ⟨hnext, hprevious, fun up => addressStep_cgram up a,
    fun h => ⟨addressStep_ddram_inverse h true, addressStep_ddram_inverse h false⟩,
    addressStep_cgram_inverse true a, addressStep_cgram_inverse false a⟩

/-! ### Reads (R82, R85) -/

/-- On driven control lines a status read samples the peer's status byte, and the peer counts it (R82). -/
theorem readCycle_status_reference {s : State} {p : RefPeer} (hp : s.peer = .reference p) (hc : s.ctlDir = .output) :
    readCycle .instruction s =
      (p.statusAnswer, readDone .instruction p.statusAnswer { s with peer := .reference p.afterStatusRead }) := by
  rw [readCycle_driven .instruction hc]
  simp [peerRead, readSampling, hp]

/-- On driven control lines a data read that is not late samples the peer's cell (R85). -/
theorem readCycle_data_reference {s : State} {p : RefPeer} (hp : s.peer = .reference p) (hc : s.ctlDir = .output)
    (hl : lateCycle p s = false) :
    readCycle .data s = (p.cell, readDone .data p.cell { s with peer := .reference p.afterDataRead }) := by
  have hread := peerRead_data_of_not_late (s := readSampling .data s) hp hl
  rw [readCycle_driven .data hc, hread]
  rfl

theorem RefPeer.cell_of_ddram {p : RefPeer} (h : p.ramsel = .ddram) : p.cell = Memory.read p.ddram p.ac.toNat := by
  simp only [RefPeer.cell, h]

theorem RefPeer.cell_of_cgram {p : RefPeer} (h : p.ramsel = .cgram) :
    p.cell = Memory.read p.cgram (p.ac.toNat % 64) := by
  simp only [RefPeer.cell, h, cgramIndex_toNat]

/-- Settles O38: the two read cycles of an attached peer, and its own state equations. -/
theorem referencePeerReads : Obligations.ReferencePeerReads := by
  unfold Obligations.ReferencePeerReads
  intro s p busy a b hp hc
  refine ⟨⟨(readCycle .instruction s).2, rfl, ?_⟩, fun hlate => ⟨(readCycle .data s).2, rfl, ?_⟩⟩
  · rw [readCycle_status_reference hp hc]
    exact ⟨rfl, rfl⟩
  · rw [readCycle_data_reference hp hc (lateCycle_of_performed hlate s)]
    refine ⟨?_, rfl⟩
    cases hram : p.ramsel with
    | ddram => rw [RefPeer.cell_of_ddram hram]; rfl
    | cgram => rw [RefPeer.cell_of_cgram hram]; rfl

/-! ### Writes (R84 to R91) -/

/-- On driven lines a peer that performs late cycles takes the byte of a write cycle. -/
theorem writeCycle_reference {s : State} {p : RefPeer} (hp : s.peer = .reference p) (hc : s.ctlDir = .output)
    (hd : s.dbDir = .output) (hlate : p.late = .performed) (reg : BusRegister) (b : Byte) :
    (writeCycle reg b s).peer = peerAfterWrite reg b p := by
  have htaken := peerWrite_of_not_late (s := writeLatched reg b s) (reg := reg) (b := b) hp
    (lateCycle_of_performed hlate _)
  rw [writeCycle_driven reg b hc hd, htaken]

/-- R84: a data write leaves every cell of DDRAM but the one it stores in. -/
theorem RefPeer.read_ddram_dataWrite {p : RefPeer} (h : p.wf = true) (b : Byte) (x : Nat) :
    Memory.read (p.dataWrite b).ddram x =
      if p.ramsel = .ddram ∧ x = p.ac.toNat then b else Memory.read p.ddram x := by
  obtain ⟨hddram, -⟩ := (RefPeer.wf_iff p).1 h
  rw [RefPeer.dataWrite_eq]
  by_cases hr : p.ramsel = .ddram <;> simp [hr, Memory.read_write hddram, eq_comm]

/-- R84: a data write leaves every cell of CGRAM but the one it stores in. -/
theorem RefPeer.read_cgram_dataWrite {p : RefPeer} (h : p.wf = true) (b : Byte) (x : Nat) :
    Memory.read (p.dataWrite b).cgram x =
      if p.ramsel = .cgram ∧ x = p.ac.toNat % 64 then b else Memory.read p.cgram x := by
  obtain ⟨-, hcgram⟩ := (RefPeer.wf_iff p).1 h
  rw [RefPeer.dataWrite_eq]
  by_cases hr : p.ramsel = .cgram <;> simp [hr, Memory.read_write hcgram, cgramIndex_toNat, eq_comm]

/-- Settles O39: the peer takes the data write (`writeCycle_reference`), field by field `RefPeer.dataWrite_eq`. -/
theorem referencePeerDataWrite : Obligations.ReferencePeerDataWrite := by
  unfold Obligations.ReferencePeerDataWrite
  intro s p b hp hc hd hlate hwf
  refine ⟨writeCycle .data b s, p.dataWrite b, rfl, writeCycle_reference hp hc hd hlate .data b,
    RefPeer.wf_dataWrite hwf b, ?_, ?_, ?_, RefPeer.read_ddram_dataWrite hwf b, RefPeer.read_cgram_dataWrite hwf b, ?_⟩
  all_goals rw [RefPeer.dataWrite_eq]

/-- Settings below an opcode's own bit leave the opcode the one the byte names (R105, R116). -/
theorem decodeLcdByte_code_or {op : LcdOpcode} {settings : Byte} (h : settings.toNat < op.code.toNat) :
    decodeLcdByte (op.code ||| settings) = some (op, settings) := by
  cases op <;> revert settings <;> decide

/-- On driven lines a peer that performs late cycles performs an instruction word other than a function-set (R86). -/
theorem instructionCycle_reference {s : State} {p : RefPeer} (hp : s.peer = .reference p) (hc : s.ctlDir = .output)
    (hd : s.dbDir = .output) (hlate : p.late = .performed) {op : LcdOpcode} {settings : Byte}
    (h : settings.toNat < op.code.toNat) (hf : op ≠ .functionSet) :
    (instructionCycle op settings s).peer = .reference (p.perform op settings).startBusy :=
  (writeCycle_reference hp hc hd hlate .instruction _).trans (peerAfterInstruction_eq p (decodeLcdByte_code_or h) hf)

/-- The same of a function-set with the 8-bit length (R89). -/
theorem functionSetCycle_reference {s : State} {p : RefPeer} (hp : s.peer = .reference p) (hc : s.ctlDir = .output)
    (hd : s.dbDir = .output) (hlate : p.late = .performed) {settings : Byte}
    (h : settings.toNat < LcdOpcode.functionSet.code.toNat) (h8 : settings[4] = true) :
    (instructionCycle .functionSet settings s).peer = .reference (p.functionSet settings).startBusy :=
  (writeCycle_reference hp hc hd hlate .instruction _).trans
    (peerAfterInstruction_functionSet p (decodeLcdByte_code_or h) h8)

/-! ### The bits of the settings -/

theorem entryModeSet_bits (x y : Bool) (p : RefPeer) :
    p.entryModeSet (0#6 ++ BitVec.ofBool x ++ BitVec.ofBool y) = { p with id := x, s := y } := by
  cases x <;> cases y <;> rfl

theorem displayControl_bits (x y z : Bool) (p : RefPeer) :
    p.displayControl (0#5 ++ BitVec.ofBool x ++ BitVec.ofBool y ++ BitVec.ofBool z) =
      { p with d := x, c := y, b := z } := by
  cases x <;> cases y <;> cases z <;> rfl

/-- The two low bits are unnamed (R89). -/
theorem functionSet_bits (y z : Bool) (low : BitVec 2) (p : RefPeer) :
    p.functionSet (0#3 ++ 1#1 ++ BitVec.ofBool y ++ BitVec.ofBool z ++ low) =
      { p with dl := true, n := y, f := z } := by
  simp only [RefPeer.functionSet, RefPeer.mk.injEq, true_and, and_true]
  revert y z low
  decide

theorem setCgramAddress_bits (a : BitVec 6) (p : RefPeer) :
    p.setCgramAddress (0#2 ++ a) = { p with ramsel := .cgram, ac := 0#1 ++ a } := by
  simp only [RefPeer.setCgramAddress, RefPeer.mk.injEq, true_and, and_true]
  revert a
  decide

theorem setDdramAddress_bits (a : BitVec 7) (p : RefPeer) :
    p.setDdramAddress (0#1 ++ a) = { p with ramsel := .ddram, ac := a } := by
  simp only [RefPeer.setDdramAddress, RefPeer.mk.injEq, true_and, and_true]
  revert a
  decide

/-- The two low bits are unnamed (R90). -/
theorem cursorMove_bits (right : Bool) (low : BitVec 2) (p : RefPeer) :
    p.cursorDisplayShift (0#4 ++ 0#1 ++ BitVec.ofBool right ++ low) = p.move right := by
  rw [RefPeer.cursorDisplayShift, if_neg (by revert right low; decide)]
  congr 1
  revert right low
  decide

theorem displayShift_bits (right : Bool) (low : BitVec 2) (p : RefPeer) :
    p.cursorDisplayShift (0#4 ++ 1#1 ++ BitVec.ofBool right ++ low) =
      { p with sh := if right then p.sh + 1 else p.sh - 1 } := by
  have hright : (0#4 ++ 1#1 ++ BitVec.ofBool right ++ low : Byte)[2] = right := by
    revert right low
    decide
  rw [RefPeer.cursorDisplayShift, if_pos (by revert right low; decide), hright]

/-- Settles O40: each word is performed (`instructionCycle_reference`), with the bits its settings name. -/
theorem referencePeerInstructions : Obligations.ReferencePeerInstructions := by
  unfold Obligations.ReferencePeerInstructions
  intro s p hp hc hd hlate
  have hperformed {op : LcdOpcode} {settings : Byte} := instructionCycle_reference (op := op) (settings := settings)
    hp hc hd hlate
  refine ⟨⟨_, rfl, ?clear⟩, ⟨_, rfl, ?home⟩, fun x y => ⟨_, rfl, ?entry⟩, fun x y z => ⟨_, rfl, ?display⟩,
    fun y z low => ⟨_, rfl, ?function⟩, fun a => ⟨_, rfl, ?cgram⟩, fun a => ⟨_, rfl, ?ddram⟩⟩
  case clear => exact hperformed (op := .clearDisplay) (by decide) (by decide)
  case home => exact hperformed (op := .returnHome) (by decide) (by decide)
  case entry =>
    rw [hperformed (by revert x y; decide) (by decide), RefPeer.perform, entryModeSet_bits]
    rfl
  case display =>
    rw [hperformed (by revert x y z; decide) (by decide), RefPeer.perform, displayControl_bits]
    rfl
  case function =>
    rw [functionSetCycle_reference hp hc hd hlate (by revert y z low; decide) (by revert y z low; decide),
      functionSet_bits]
    rfl
  case cgram =>
    rw [hperformed (by revert a; decide) (by decide), RefPeer.perform, setCgramAddress_bits]
    rfl
  case ddram =>
    rw [hperformed (by revert a; decide) (by decide), RefPeer.perform, setDdramAddress_bits]
    rfl

/-- Settles O41: the word is performed (`instructionCycle_reference`), a move or a shift by its bit 3. -/
theorem referencePeerShift : Obligations.ReferencePeerShift := by
  unfold Obligations.ReferencePeerShift
  intro s p right low hp hc hd hlate
  have hperformed {settings : Byte} := instructionCycle_reference (op := .cursorDisplayShift) (settings := settings)
    hp hc hd hlate
  refine ⟨⟨_, rfl, ?move⟩, ⟨_, rfl, ?shift⟩⟩
  case move =>
    rw [hperformed (by revert right low; decide) (by decide), RefPeer.perform, cursorMove_bits]
    rfl
  case shift =>
    rw [hperformed (by revert right low; decide) (by decide), RefPeer.perform, displayShift_bits]
    rfl

end Sys2Proof.Machine

/-! ## 20_memory, sections 2 and 6: what operations leave of the reference peer's memories -/

namespace Sys2Proof.Machine

/-! ### Canonical memories (log 2) -/

theorem Memory.wfFrom_cons_iff {size least k : Nat} {v : Byte} {rest : Memory} :
    Memory.wfFrom size least ((k, v) :: rest) = true ↔
      least ≤ k ∧ k < size ∧ v ≠ Memory.unlisted ∧ Memory.wfFrom size (k + 1) rest = true := by
  simp [Memory.wfFrom, and_assoc]

/-- A canonical memory reads as an unlisted cell at every address only if it lists nothing. -/
theorem Memory.eq_nil_of_read {size least : Nat} {m : Memory} (h : Memory.wfFrom size least m = true)
    (hread : ∀ x, Memory.read m x = Memory.unlisted) : m = [] := by
  cases m with
  | nil => rfl
  | cons cell rest =>
    obtain ⟨k, v⟩ := cell
    obtain ⟨-, -, hv, -⟩ := Memory.wfFrom_cons_iff.1 h
    exact absurd (by simpa [Memory.read] using hread k) hv

/-- The lowest listed addresses of canonical memories that read the same: neither is below the other. -/
theorem Memory.head_le_of_read {size least k k' : Nat} {v v' : Byte} {rest rest' : Memory}
    (h : Memory.wfFrom size least ((k, v) :: rest) = true) (h' : Memory.wfFrom size least ((k', v') :: rest') = true)
    (hread : ∀ x, Memory.read ((k, v) :: rest) x = Memory.read ((k', v') :: rest') x) : k' ≤ k := by
  by_contra hlt
  obtain ⟨-, -, hv, -⟩ := Memory.wfFrom_cons_iff.1 h
  obtain ⟨-, hsize, hv', hrest'⟩ := Memory.wfFrom_cons_iff.1 h'
  have hfrom : Memory.wfFrom size k' ((k', v') :: rest') = true :=
    Memory.wfFrom_cons_iff.2 ⟨le_rfl, hsize, hv', hrest'⟩
  have hk := hread k
  rw [Memory.read_below hfrom (by omega)] at hk
  exact hv (by simpa [Memory.read] using hk)

theorem Memory.eq_of_read {size least : Nat} {m m' : Memory} (h : Memory.wfFrom size least m = true)
    (h' : Memory.wfFrom size least m' = true) (hread : ∀ x, Memory.read m x = Memory.read m' x) : m = m' := by
  induction m generalizing least m' with
  | nil => exact (Memory.eq_nil_of_read h' fun x => (hread x).symm).symm
  | cons cell rest ih =>
    cases m' with
    | nil => exact Memory.eq_nil_of_read h hread
    | cons cell' rest' =>
      obtain ⟨k, v⟩ := cell
      obtain ⟨k', v'⟩ := cell'
      obtain rfl : k = k' := le_antisymm (Memory.head_le_of_read h' h fun x => (hread x).symm)
        (Memory.head_le_of_read h h' hread)
      obtain rfl : v = v' := by simpa [Memory.read] using hread k
      obtain ⟨-, -, -, hrest⟩ := Memory.wfFrom_cons_iff.1 h
      obtain ⟨-, -, -, hrest'⟩ := Memory.wfFrom_cons_iff.1 h'
      have htail : rest = rest' := by
        refine ih hrest hrest' fun x => ?_
        by_cases hx : k = x
        · subst hx
          rw [Memory.read_below hrest (by omega), Memory.read_below hrest' (by omega)]
        · simpa [Memory.read, hx] using hread x
      rw [htail]

/-- Settles O44, by induction on the entries (`Memory.eq_of_read`). -/
theorem canonicalMemoriesAreEqualData : Obligations.CanonicalMemoriesAreEqualData := by
  unfold Obligations.CanonicalMemoriesAreEqualData
  intro size m m' h h' hread
  exact Memory.eq_of_read h h' hread

/-! ### Operations that store nothing -/

/-- LCDC drives the control lines, and the reference peer on the bus holds these two memories. -/
def HoldsMemories (ddram cgram : Memory) (s : State) : Prop :=
  s.ctlDir = .output ∧ ∃ p, s.peer = .reference p ∧ p.ddram = ddram ∧ p.cgram = cgram

/-- Whether an instruction byte leaves the reference peer its memories: no clear-display, and no function-set that asks
for the 4-bit bus. -/
def keepsMemories (b : Byte) : Bool :=
  match decodeLcdByte b with
  | some (.clearDisplay, _) => false
  | some (.functionSet, settings) => settings[4]
  | _ => true

theorem peerAfterInstruction_memories {b : Byte} (h : keepsMemories b = true) (p : RefPeer) :
    ∃ q, peerAfterInstruction b p = .reference q ∧ q.ddram = p.ddram ∧ q.cgram = p.cgram := by
  cases hb : decodeLcdByte b with
  | none => exact ⟨p, by simp [peerAfterInstruction, selectsFourBitBus, RefPeer.instructionWrite, hb], rfl, rfl⟩
  | some decoded =>
    obtain ⟨op, settings⟩ := decoded
    have hclear : op ≠ .clearDisplay := by
      rintro rfl
      simp [keepsMemories, hb] at h
    by_cases hf : op = .functionSet
    · subst hf
      exact ⟨_, peerAfterInstruction_functionSet p hb (by simpa [keepsMemories, hb] using h), rfl, rfl⟩
    · exact ⟨_, peerAfterInstruction_eq p hb hf, RefPeer.perform_memories settings p hclear⟩

theorem keepsMemories_code_or {op : LcdOpcode} {settings : Byte} (h : settings.toNat < op.code.toNat)
    (hclear : op ≠ .clearDisplay) (h8 : op = .functionSet → settings[4] = true) :
    keepsMemories (op.code ||| settings) = true := by
  unfold keepsMemories
  rw [decodeLcdByte_code_or h]
  cases op with
  | clearDisplay => exact absurd rfl hclear
  | functionSet => exact h8 rfl
  | _ => rfl

/-- Settings too large for a function-set make the byte a set-address, which leaves the memories too. -/
theorem keepsMemories_functionSet {settings : Byte} (h8 : settings[4] = true) :
    keepsMemories (LcdOpcode.functionSet.code ||| settings) = true := by
  revert settings
  decide

theorem keepsMemories_setdd (a : Address) : keepsMemories (0x80#8 ||| setddSettings a) = true := by
  revert a
  decide

namespace HoldsMemories

variable {ddram cgram : Memory} {s : State}

theorem readCycle (h : HoldsMemories ddram cgram s) (reg : BusRegister) :
    HoldsMemories ddram cgram (readCycle reg s).2 := by
  obtain ⟨hc, p, hp, rfl, rfl⟩ := h
  refine ⟨(readCycle_peerOnly reg s).ctlDir.trans hc, ?_⟩
  rw [readCycle_driven reg hc]
  cases reg with
  | instruction => exact ⟨p.afterStatusRead, by simp [peerRead, readSampling, readDone, hp], rfl, rfl⟩
  | data =>
    obtain hkept | ⟨-, hread⟩ := peerRead_data_reference (s := readSampling .data s) hp
    · exact ⟨p, hkept, rfl, rfl⟩
    · exact ⟨p.afterDataRead, hread, rfl, rfl⟩

theorem pollLoop (h : HoldsMemories ddram cgram s) (more : Nat) :
    HoldsMemories ddram cgram (pollLoop more s).state := by
  induction more generalizing s with
  | zero =>
    unfold Machine.pollLoop
    split <;> exact h.readCycle .instruction
  | succ more ih =>
    unfold Machine.pollLoop
    split
    · exact ih (h.readCycle .instruction)
    · exact h.readCycle .instruction

theorem poll (h : HoldsMemories ddram cgram s) : HoldsMemories ddram cgram (pollUntilReady s).state :=
  pollLoop (s := startPoll s) h _

/-- The write of such a byte, performed or ignored (R281). -/
theorem writeCycle (h : HoldsMemories ddram cgram s) (hd : s.dbDir = .output) {b : Byte} (hb : keepsMemories b = true) :
    HoldsMemories ddram cgram (writeCycle .instruction b s) := by
  obtain ⟨hc, p, hp, rfl, rfl⟩ := h
  refine ⟨(writeCycle_peerOnly .instruction b s).ctlDir.trans hc, ?_⟩
  rw [writeCycle_driven .instruction b hc hd]
  obtain hignored | hperformed := peerWrite_reference (s := writeLatched .instruction b s) hp .instruction b
  · exact ⟨p, hignored, rfl, rfl⟩
  · obtain ⟨q, hq, hmemories⟩ := peerAfterInstruction_memories hb p
    exact ⟨q, hperformed.trans hq, hmemories⟩

theorem issueInstruction (h : HoldsMemories ddram cgram s) {b : Byte} (hb : keepsMemories b = true) :
    HoldsMemories ddram cgram (issueInstruction b s) := by
  obtain ⟨samples, -, -, hpeer⟩ := poll_afterPoll s
  have hd : (pollUntilReady s).state.dbDir = .output := by
    unfold PeerOnly at hpeer
    rw [hpeer]
    rfl
  exact h.poll.writeCycle hd hb

theorem validatedInstruction (h : HoldsMemories ddram cgram s) {op : LcdOpcode} {arg : Byte}
    (hclear : op ≠ .clearDisplay) (h8 : op = .functionSet → arg[4] = true) :
    HoldsMemories ddram cgram (validatedInstruction op arg s) := by
  unfold Machine.validatedInstruction encodeSettings
  by_cases hinvalid : op.code ≤ arg
  · rw [if_pos hinvalid]
    exact h
  · rw [if_neg hinvalid]
    exact h.issueInstruction (keepsMemories_code_or (BitVec.not_le.1 hinvalid) hclear h8)

theorem navigate (h : HoldsMemories ddram cgram s) (t : RemapTable) {otherwise : Option Byte}
    (hb : ∀ b, otherwise = some b → keepsMemories b = true) :
    HoldsMemories ddram cgram (navigate t otherwise s) := by
  have hread : HoldsMemories ddram cgram (readAddress s).2 := h.poll
  unfold Machine.navigate
  rw [branchOn_eq, branchByte]
  cases remap t (readAddress s).1 with
  | some target => exact hread.issueInstruction (keepsMemories_setdd target)
  | none =>
    cases otherwise with
    | some b => exact hread.issueInstruction (hb b rfl)
    | none => exact hread

end HoldsMemories

/-- Settles O45: a state that holds the memories is followed through every instruction that is left
(`HoldsMemories`). -/
theorem nonStoringInstructionsKeepEveryByte : Obligations.NonStoringInstructionsKeepEveryByte := by
  unfold Obligations.NonStoringInstructionsKeepEveryByte
  intro s t p i hp hc hi hd hexec
  suffices hholds : ∃ u, exec i s = .next u ∧ HoldsMemories p.ddram p.cgram u by
    obtain ⟨u, hu, -, q, hq, hddram, hcgram⟩ := hholds
    obtain rfl : u = t := Host.Outcome.next.inj (hu.symm.trans hexec)
    exact ⟨q, hq, fun x => by rw [hddram], fun x => by rw [hcgram]⟩
  have h : HoldsMemories p.ddram p.cgram s := ⟨hc, p, hp, rfl, rfl⟩
  cases i with
  | clear | init | wrdata | putch | bksp | bwClearDisplay | bwDataWrite => exact hi.elim
  | home => exact ⟨_, rfl, h.issueInstruction (by decide)⟩
  | entry | dispctl | shift | setcg | setdd => exact ⟨_, rfl, h.validatedInstruction (by decide) nofun⟩
  | funcset => exact ⟨_, rfl, h.validatedInstruction (by decide) fun _ => hi⟩
  | rddata => exact ⟨_, rfl, h.poll.readCycle .data⟩
  | rdac | waitbusy => exact ⟨_, rfl, h.poll⟩
  | enter => exact ⟨_, rfl, h.navigate .enterTarget (by simp)⟩
  | curleft => exact ⟨_, rfl, h.navigate .previousAddress (by decide)⟩
  | curright => exact ⟨_, rfl, h.navigate .nextAddress (by decide)⟩
  | bwReturnHome => exact ⟨_, rfl, h.writeCycle hd (by decide)⟩
  | bwEntryModeSet | bwDisplayControl | bwCursorDisplayShift | bwSetCgramAddress | bwSetDdramAddress =>
    have hbelow := BitVec.lt_def.1 (of_decide_eq_true hi)
    exact ⟨_, rfl, h.writeCycle hd (keepsMemories_code_or hbelow (by decide) nofun)⟩
  | bwFunctionSet => exact ⟨_, rfl, h.writeCycle hd (keepsMemories_functionSet hi)⟩
  | bwStatusRead => exact ⟨_, rfl, h.readCycle .instruction⟩
  | bwDataRead => exact ⟨_, rfl, h.readCycle .data⟩

/-! ### Operations that store -/

/-- Settles O46: the data write stores the byte (`RefPeer.read_ddram_dataWrite`), and what PUTCH does after it stores
nothing (`HoldsMemories.navigate`). -/
theorem characterWritesStoreOneByte : Obligations.CharacterWritesStoreOneByte := by
  unfold Obligations.CharacterWritesStoreOneByte
  intro s t p i b hattached hwf hi hexec
  obtain ⟨hpeer, hctl, -, -⟩ := writeData_attached_peer hattached b
  have hwritten : HoldsMemories (p.settled.dataWrite b).ddram (p.settled.dataWrite b).cgram (writeData b s) :=
    ⟨hctl, _, hpeer, rfl, rfl⟩
  have hholds : HoldsMemories (p.settled.dataWrite b).ddram (p.settled.dataWrite b).cgram t := by
    rcases hi with rfl | rfl
    · exact Host.Outcome.next.inj hexec ▸ hwritten
    · have hmoved := hwritten.navigate .postWriteFix (otherwise := none) (by simp)
      exact Host.Outcome.next.inj hexec ▸ hmoved
  obtain ⟨-, q, hq, hddram, hcgram⟩ := hholds
  have hsettled : p.settled.wf = true := hwf
  refine ⟨q, hq, fun x => ?_, fun x => ?_⟩
  · rw [hddram]
    exact RefPeer.read_ddram_dataWrite hsettled b x
  · rw [hcgram]
    exact RefPeer.read_cgram_dataWrite hsettled b x

/-- Settles O47: CLEAR is a poll and the write of clear-display (`issueInstruction_attached`), which empties the list
that DDRAM is (`peerAfterInstruction_clear`). -/
theorem clearBlanksTheDisplay : Obligations.ClearBlanksTheDisplay := by
  unfold Obligations.ClearBlanksTheDisplay
  intro s p arg hattached
  have hpeer := (congrArg State.peer (issueInstruction_attached hattached LcdOpcode.clearDisplay.code)).trans
    (peerAfterInstruction_clear p.settled)
  exact ⟨_, _, rfl, hpeer, fun _ => rfl, fun _ => rfl, rfl⟩

/-! ### A byte written and read back -/

/-- A validating operation, other than a function-set, with the reference peer attached. -/
theorem validatedInstruction_attached {s : State} {p : RefPeer} (h : Attached s p) {op : LcdOpcode} {settings : Byte}
    (hlt : settings.toNat < op.code.toNat) (hf : op ≠ .functionSet) :
    Attached (validatedInstruction op settings s) (p.settled.perform op settings).startBusy := by
  obtain ⟨hbusy, -, -⟩ := RefPeer.perform_parameters op settings p.settled
  have hissue := issueInstruction_attached_peer h (peerAfterInstruction_eq p.settled (decodeLcdByte_code_or hlt) hf)
    hbusy hbusy
  unfold validatedInstruction encodeSettings
  rw [if_neg (by rw [BitVec.le_def]; omega)]
  exact hissue

/-- The reference peer polled until ready, and then set to an address of a RAM (R91). -/
def RefPeer.addressed (ram : RamSelect) (a : Address) (p : RefPeer) : RefPeer :=
  { p.settled with ramsel := ram, ac := a, busycnt := p.kBusy }

/-- R91, R176, R177: SETDD and SETCG leave their RAM selected, at the same address whenever they are run. -/
theorem exec_setAddress {set : Instr} {a : Byte}
    (hset : (set = .setdd a ∧ a.toNat < 0x80) ∨ (set = .setcg a ∧ a.toNat < 0x40)) :
    ∃ ram x, ∀ {s p}, Attached s p → ∃ t, exec set s = .next t ∧ Attached t (p.addressed ram x) := by
  rcases hset with ⟨rfl, hlt⟩ | ⟨rfl, hlt⟩
  · exact ⟨.ddram, a.extractLsb' 0 7, fun h =>
      ⟨_, rfl, validatedInstruction_attached h (op := .setDdramAddress) hlt (by decide)⟩⟩
  · exact ⟨.cgram, 0#1 ++ a.extractLsb' 0 6, fun h =>
      ⟨_, rfl, validatedInstruction_attached h (op := .setCgramAddress) hlt (by decide)⟩⟩

/-- A peer with the memories a data write left, back at the address it was made at, has the byte in its cell. -/
theorem RefPeer.cell_of_written {q r : RefPeer} {b : Byte} (hwf : q.wf = true) (hram : r.ramsel = q.ramsel)
    (hac : r.ac = q.ac) (hddram : r.ddram = (q.dataWrite b).ddram) (hcgram : r.cgram = (q.dataWrite b).cgram) :
    r.cell = b := by
  cases hq : q.ramsel with
  | ddram => rw [RefPeer.cell_of_ddram (hram.trans hq), hddram, hac, RefPeer.read_ddram_dataWrite hwf, if_pos ⟨hq, rfl⟩]
  | cgram => rw [RefPeer.cell_of_cgram (hram.trans hq), hcgram, hac, RefPeer.read_cgram_dataWrite hwf, if_pos ⟨hq, rfl⟩]

/-- Settles O48: the two set-address commands lead to one address (`exec_setAddress`), where the byte is
(`RefPeer.cell_of_written`). -/
theorem writtenByteReadsBack : Obligations.WrittenByteReadsBack := by
  unfold Obligations.WrittenByteReadsBack
  intro s p a b set hattached hwf hset
  obtain ⟨ram, x, hsetAddress⟩ := exec_setAddress hset
  obtain ⟨t1, hexec1, hset1⟩ := hsetAddress hattached
  have hwrite : Attached (endOperation codeSuccess (writeData b t1)) _ := writeData_attached_peer hset1 b
  obtain ⟨t3, hexec3, hset3⟩ := hsetAddress hwrite
  obtain ⟨hrdata, -⟩ := readData_attached_peer hset3
  have hcell : (((p.addressed ram x).settled.dataWrite b).addressed ram x).cell = b :=
    RefPeer.cell_of_written (q := (p.addressed ram x).settled) hwf rfl rfl rfl rfl
  exact ⟨t1, _, t3, _, hexec1, rfl, hexec3, rfl, hrdata.trans hcell, rfl⟩

end Sys2Proof.Machine

/-! ## 30_encoding, section 1: the reserved op values (R103) -/

namespace Sys2Proof.Machine

/-- R103: the op values 0x0D to 0x0F and 0x15 to 0xFF. -/
def ReservedOp (op : Byte) : Prop := (0x0D#8 ≤ op ∧ op ≤ 0x0F#8) ∨ 0x15#8 ≤ op

theorem reservedOp_iff (op : Byte) : ReservedOp op ↔ (13 ≤ op.toNat ∧ op.toNat ≤ 15) ∨ 21 ≤ op.toNat := Iff.rfl

/-- A command word is reserved or names an instruction, by its op alone. -/
theorem decodeCommand_cases (w : CommandWord) :
    (ReservedOp (opField w) ∧ decodeCommand w = .error (.reservedOp (opField w))) ∨
      (¬ ReservedOp (opField w) ∧ ∃ i, decodeCommand w = .ok i) := by
  rw [reservedOp_iff]
  unfold decodeCommand
  split
  case h_19 =>
    refine .inl ⟨?_, rfl⟩
    simp only [imp_false] at *
    omega
  all_goals exact .inr ⟨by omega, _, rfl⟩

theorem decodeCommand_reserved_iff (w : CommandWord) :
    decodeCommand w = .error (.reservedOp (opField w)) ↔ ReservedOp (opField w) := by
  obtain ⟨hop, hdecode⟩ | ⟨hop, i, hdecode⟩ := decodeCommand_cases w
  · exact iff_of_true hdecode hop
  · exact iff_of_false (by simp [hdecode]) hop

theorem decodeCommand_of_not_reserved {w : CommandWord} (hop : ¬ ReservedOp (opField w)) :
    ∃ i, decodeCommand w = .ok i := by
  obtain ⟨hop', -⟩ | ⟨-, hdecode⟩ := decodeCommand_cases w
  · exact absurd hop' hop
  · exact hdecode

theorem writeCmd_of_error {w : CommandWord} {e : DecodeError} (hdecode : decodeCommand w = .error e) (s : State) :
    writeCmd w s = .next (reservedOperation { s with cmd := w }) := by
  unfold writeCmd
  rw [hdecode]

/-- A reserved op leaves SEQ of an idle LCDC where it was (R103, R243). -/
theorem reservedOperation_of_idle {s : State} (hseq : s.seq = .idle) :
    reservedOperation s = { s with status := 0x01#8 } := by
  unfold reservedOperation endOperation
  rw [← hseq]
  rfl

/-- Settles O4: the op decides how a word decodes (`decodeCommand_cases`), and a write of CMD with a reserved one is
answered by `reservedOperation`. -/
theorem reservedOpSetsStatusOnly : Obligations.ReservedOpSetsStatusOnly := by
  unfold Obligations.ReservedOpSetsStatusOnly
  refine ⟨decodeCommand_reserved_iff, fun _ => decodeCommand_of_not_reserved, fun s w rest hseq hinputs hop => ?_⟩
  calc
    step s = writeCmd w { s with inputs := rest } := step_takes hseq hinputs
    _ = .next (reservedOperation { s with inputs := rest, cmd := w }) :=
      writeCmd_of_error ((decodeCommand_reserved_iff w).mpr hop) _
    _ = .next { s with inputs := rest, cmd := w, status := 0x01#8 } :=
      congrArg _ (reservedOperation_of_idle hseq)

end Sys2Proof.Machine

/-! ## 30_encoding, section 2: the bus words, each one cycle (R104, R137, R138) -/

namespace Sys2Proof.Machine

theorem busWord_rs (reg : BusRegister) (rw : Transfer) (db : Byte) :
    (busWord reg rw db).extractLsb' 9 1 = reg.bit := by
  show BitVec.extractLsb' 9 1 (reg.bit ++ rw.bit ++ db) = reg.bit
  rw [BitVec.extractLsb'_append_eq_of_le (by decide), BitVec.extractLsb'_append_eq_of_le (by decide)]
  exact BitVec.extractLsb'_eq_self

theorem busWord_rw (reg : BusRegister) (rw : Transfer) (db : Byte) :
    (busWord reg rw db).extractLsb' 8 1 = rw.bit := by
  show BitVec.extractLsb' 8 1 (reg.bit ++ rw.bit ++ db) = rw.bit
  rw [BitVec.extractLsb'_append_eq_of_le (by decide), BitVec.extractLsb'_append_eq_of_add_le (by decide)]
  exact BitVec.extractLsb'_eq_self

theorem busWord_db (reg : BusRegister) (rw : Transfer) (db : Byte) : (busWord reg rw db).extractLsb' 0 8 = db := by
  show BitVec.extractLsb' 0 8 (reg.bit ++ rw.bit ++ db) = db
  rw [BitVec.extractLsb'_append_eq_of_add_le (by decide)]
  exact BitVec.extractLsb'_eq_self

/-- RS, RW and DB of a bus word are apart (R104). -/
theorem busWord_inj {reg reg' : BusRegister} {rw rw' : Transfer} {db db' : Byte}
    (h : busWord reg rw db = busWord reg' rw' db') : reg = reg' ∧ rw = rw' ∧ db = db' := by
  have hrs : reg.bit = reg'.bit := by rw [← busWord_rs reg rw db, h, busWord_rs]
  have hrw : rw.bit = rw'.bit := by rw [← busWord_rw reg rw db, h, busWord_rw]
  have hdb : db = db' := by rw [← busWord_db reg rw db, h, busWord_db]
  refine ⟨?_, ?_, hdb⟩
  · cases reg <;> cases reg' <;> trivial
  · cases rw <;> cases rw' <;> trivial

/-- A write word runs the write cycle of its byte. -/
theorem exec_of_writeWord {i : Instr} {reg : BusRegister} {b : Byte} (h : encode i = .bus10 (busWord reg .write b))
    (s : State) : exec i s = .next (writeCycle reg b s) := by
  cases i with
  | bwClearDisplay | bwReturnHome | bwEntryModeSet | bwDisplayControl | bwCursorDisplayShift | bwFunctionSet
  | bwSetCgramAddress | bwSetDdramAddress | bwDataWrite =>
    obtain ⟨rfl, -, rfl⟩ := busWord_inj (CodeWord.bus10.inj h)
    rfl
  | bwStatusRead | bwDataRead =>
    obtain ⟨-, hrw, -⟩ := busWord_inj (CodeWord.bus10.inj h)
    cases hrw
  | _ => cases h

/-- A read word runs the read cycle of its register; the byte in the word is the peer's to drive (log 19). -/
theorem exec_of_readWord {i : Instr} {reg : BusRegister} {b : Byte} (h : encode i = .bus10 (busWord reg .read b))
    (s : State) : exec i s = .next (readCycle reg s).2 := by
  cases i with
  | bwStatusRead | bwDataRead =>
    obtain ⟨rfl, -, -⟩ := busWord_inj (CodeWord.bus10.inj h)
    rfl
  | bwClearDisplay | bwReturnHome | bwEntryModeSet | bwDisplayControl | bwCursorDisplayShift | bwFunctionSet
  | bwSetCgramAddress | bwSetDdramAddress | bwDataWrite =>
    obtain ⟨-, hrw, -⟩ := busWord_inj (CodeWord.bus10.inj h)
    cases hrw
  | _ => cases h

/-- Settles O31: a bus word runs one cycle, and what the cycle does to LCDC is `writeCycle_peerOnly` or
`readCycle_peerOnly`. -/
theorem busWordsAreOneCycle : Obligations.BusWordsAreOneCycle := by
  unfold Obligations.BusWordsAreOneCycle
  exact ⟨fun i reg b s h => ⟨_, exec_of_writeWord h s, writeCycle_peerOnly reg b s⟩,
    fun i reg b s h => ⟨_, _, exec_of_readWord h s, readCycle_peerOnly reg s⟩⟩

end Sys2Proof.Machine

/-! ## 30_encoding, section 5: the byte of an LCD instruction (R105, R106, R116) -/

namespace Sys2Proof.Machine

/-- Only 0x00 has no highest set bit. -/
theorem decodeLcdByte_eq_none_iff (b : Byte) : decodeLcdByte b = none ↔ b = 0x00#8 := by
  revert b
  decide

/-- At each of the 256 bytes: the opcode and settings it names make it up, the settings below the opcode's own bit
(R105). -/
theorem decodeLcdByte_parts (b : Byte) :
    ∀ named ∈ decodeLcdByte b, named.2.toNat < named.1.code.toNat ∧ b = named.1.code ||| named.2 := by
  revert b
  decide

/-- Settles O6: what a byte names makes it up (`decodeLcdByte_parts`), and what makes it up is what it names
(`decodeLcdByte_code_or`). -/
theorem instructionByteNamesOneInstruction : Obligations.InstructionByteNamesOneInstruction := by
  unfold Obligations.InstructionByteNamesOneInstruction
  refine ⟨(decodeLcdByte_eq_none_iff _).mpr rfl, fun b hb => ?_⟩
  obtain ⟨⟨op, settings⟩, hnamed⟩ := Option.ne_none_iff_exists'.mp (mt (decodeLcdByte_eq_none_iff b).mp hb)
  obtain ⟨hlt, hparts⟩ := decodeLcdByte_parts b _ hnamed
  refine ⟨op, settings, hnamed, hlt, hparts, fun op' settings' hlt' hparts' => ?_⟩
  have hsame : some (op', settings') = some (op, settings) := by
    rw [← decodeLcdByte_code_or hlt', ← hparts', hnamed]
  simpa using hsame

end Sys2Proof.Machine

/-! ## 30_encoding, section 7: the composites and their expansions (R122) -/

namespace Sys2Proof.Machine

/-! ### What an operation does not see of the one before -/

theorem branchOn_retag (t : RemapTable) (otherwise : Option Byte) (a : Address) (q : Seq) (c : Byte) (s : State) :
    branchOn t otherwise a (retag q c s) = retag q c (branchOn t otherwise a s) := by
  rw [branchOn_eq, branchOn_eq]
  cases branchByte t otherwise a with
  | some b => exact issueInstruction_retag b q c s
  | none => rfl

theorem navigate_retag (t : RemapTable) (otherwise : Option Byte) (q : Seq) (c : Byte) (s : State) :
    navigate t otherwise (retag q c s) = retag q c (navigate t otherwise s) := by
  unfold navigate
  rw [readAddress_retag]
  exact branchOn_retag t otherwise _ q c _

/-- An operation run after another's end comes to what it comes to without that end between them. -/
theorem endOperation_comp {f : State → State} (hf : ∀ q c s, f (retag q c s) = retag q c (f s)) (c d : Byte)
    (s : State) : endOperation c (f (endOperation d s)) = endOperation c (f s) := by
  rw [endOperation_eq_retag d, hf, endOperation_retag]

@[simp] theorem endOperation_subInstruction (op : LcdOpcode) (settings : Byte) (c d : Byte) (s : State) :
    endOperation c (subInstruction op settings (endOperation d s)) = endOperation c (subInstruction op settings s) :=
  endOperation_comp (subInstruction_retag op settings) c d s

@[simp] theorem endOperation_issueInstruction (b : Byte) (c d : Byte) (s : State) :
    endOperation c (issueInstruction b (endOperation d s)) = endOperation c (issueInstruction b s) :=
  endOperation_comp (issueInstruction_retag b) c d s

@[simp] theorem endOperation_writeData (b : Byte) (c d : Byte) (s : State) :
    endOperation c (writeData b (endOperation d s)) = endOperation c (writeData b s) :=
  endOperation_comp (writeData_retag b) c d s

@[simp] theorem endOperation_navigate (t : RemapTable) (otherwise : Option Byte) (c d : Byte) (s : State) :
    endOperation c (navigate t otherwise (endOperation d s)) = endOperation c (navigate t otherwise s) :=
  endOperation_comp (navigate_retag t otherwise) c d s

/-- The end of an operation leaves FLAGS, so INITD may as well be set after it (R200). -/
theorem endOperation_recordInitd (c : Byte) (s : State) :
    endOperation c (recordInitd s) = { endOperation c s with flags := (endOperation c s).flags ||| 0x02#8 } := rfl

/-! ### The operations of the expansions -/

/-- With settings below its opcode a validating operation is the sub-instruction, and its end (R169, R219). -/
theorem validatedInstruction_of_lt {op : LcdOpcode} {settings : Byte} (h : settings.toNat < op.code.toNat) (s : State) :
    validatedInstruction op settings s = endOperation codeSuccess (subInstruction op settings s) := by
  unfold validatedInstruction subInstruction encodeSettings
  rw [if_neg (by rw [BitVec.le_def]; omega)]

/-- A validating command with settings below its opcode is the sub-instruction, and its end. -/
theorem exec_validated {i : Instr} {op : LcdOpcode} {settings : Byte} (hi : validatedOpcode i = some (op, settings))
    (h : settings.toNat < op.code.toNat) (s : State) :
    exec i s = .next (endOperation codeSuccess (subInstruction op settings s)) := by
  rw [← validatedInstruction_of_lt h]
  cases i with
  | entry | dispctl | shift | funcset | setcg | setdd => cases hi; rfl
  | _ => cases hi

/-- The same of the operation run after another's end. -/
theorem validatedInstruction_endOperation {op : LcdOpcode} {settings : Byte} (h : settings.toNat < op.code.toNat)
    (d : Byte) (s : State) :
    validatedInstruction op settings (endOperation d s) = endOperation codeSuccess (subInstruction op settings s) := by
  rw [validatedInstruction_of_lt h, endOperation_subInstruction]

theorem setddSettings_lt (a : Address) : (setddSettings a).toNat < LcdOpcode.setDdramAddress.code.toNat := by
  revert a
  decide

/-- The state RDAC leaves (R156). -/
def afterRdac (s : State) : State := endOperation codeSuccess (readAddress s).2

/-- The address read stands in RDATA in full (R117). -/
theorem addressOf_afterRdac (s : State) : addressOf (afterRdac s).rdata = (readAddress s).1 :=
  addressOf_addressByte _

/-! ### What follows RDAC in a composite (R222 to R226) -/

section Navigate

variable (t : RemapTable) {s : State}

/-- Where the table has the address, SETDD. -/
theorem endOperation_navigate_of_some {target : Address} (h : remap t (addressOf (afterRdac s).rdata) = some target)
    (otherwise : Option Byte) :
    endOperation codeSuccess (navigate t otherwise s) =
      validatedInstruction .setDdramAddress (setddSettings target) (afterRdac s) := by
  rw [addressOf_afterRdac] at h
  rw [afterRdac, validatedInstruction_endOperation (setddSettings_lt target)]
  simp only [navigate, branchOn, h]

/-- Where it has not, the instruction that the composite has for this case. -/
theorem endOperation_navigate_of_none (h : remap t (addressOf (afterRdac s).rdata) = none) (b : Byte) :
    endOperation codeSuccess (navigate t (some b) s) = endOperation codeSuccess (issueInstruction b (afterRdac s)) := by
  rw [addressOf_afterRdac] at h
  rw [afterRdac, endOperation_issueInstruction]
  simp only [navigate, branchOn, h]

/-- A composite that has none is over. -/
theorem endOperation_navigate_none_of_none (h : remap t (addressOf (afterRdac s).rdata) = none) :
    endOperation codeSuccess (navigate t none s) = afterRdac s := by
  rw [addressOf_afterRdac] at h
  simp only [navigate, branchOn, h, afterRdac]

/-- The host command with which CURLEFT, CURRIGHT and BKSP go on from the address read: SETDD where the table has the
address, else SHIFT (R223, R225, R226). -/
def moveCommand (shift : Byte) : Option Address → Instr
  | some target => .setdd (target.setWidth 8)
  | none => .shift shift

theorem exec_moveCommand (shift : Byte) {target : Option Address}
    (htarget : remap t (addressOf (afterRdac s).rdata) = target)
    (hshift : shift.toNat < LcdOpcode.cursorDisplayShift.code.toNat) :
    exec (moveCommand shift target) (afterRdac s) =
      .next (endOperation codeSuccess (navigate t (some (LcdOpcode.cursorDisplayShift.code ||| shift)) s)) := by
  cases target with
  | some target => exact congrArg _ (endOperation_navigate_of_some t htarget _).symm
  | none =>
    rw [endOperation_navigate_of_none t htarget, ← subInstruction_issues hshift]
    exact exec_validated rfl hshift _

end Navigate

/-- Settles O32: an operation does not see the end of the one before it (`endOperation_comp`), so a composite's chain of
calls is the chain of its expansion; what follows RDAC is by `endOperation_navigate_of_some`,
`endOperation_navigate_none_of_none` and `exec_moveCommand`. -/
theorem compositesEqualTheirExpansions : Obligations.CompositesEqualTheirExpansions := by
  unfold Obligations.CompositesEqualTheirExpansions
  intro arg s
  refine ⟨?init, ?putch, ?bksp, afterRdac s, rfl, ?enter, ?curleft, ?curright⟩
  case init =>
    refine ⟨initRaw s, _, _, _, _, rfl, exec_validated rfl (by decide) _, exec_validated rfl (by decide) _, rfl,
      exec_validated rfl (by decide) _, ?_⟩
    show Host.Outcome.next (endOperation codeSuccess (recordInitd (initPolled (initRaw s)))) = _
    simp only [endOperation_recordInitd, initPolled, endOperation_subInstruction, endOperation_issueInstruction]
  case putch =>
    have hputch : exec (.putch arg) s =
        .next (endOperation codeSuccess (navigate .postWriteFix none (endOperation codeSuccess (writeData arg s)))) := by
      rw [endOperation_navigate]
      rfl
    refine ⟨_, afterRdac _, rfl, rfl, ?_⟩
    rw [hputch]
    split
    case h_1 hremap => exact congrArg _ (endOperation_navigate_of_some .postWriteFix hremap none)
    case h_2 hremap => exact congrArg _ (endOperation_navigate_none_of_none .postWriteFix hremap)
  case bksp =>
    have hentry := exec_validated (i := .entry 0x00#8) rfl (by decide) s
    generalize ht1 : endOperation codeSuccess (subInstruction .entryModeSet 0x00#8 s) = t1 at hentry
    refine ⟨t1, afterRdac t1, endOperation codeSuccess (navigate .previousAddress (some leftCursorShift) t1), _, _,
      hentry, rfl, ?move, rfl, exec_validated rfl (by decide) _, ?_⟩
    case move =>
      generalize htarget : previousAddress _ = target
      exact exec_moveCommand .previousAddress 0x00#8 htarget (by decide)
    rw [exec_validated (i := .entry 0x02#8) rfl (by decide), ← ht1]
    show Host.Outcome.next (endOperation codeSuccess (backspace s)) = _
    simp only [backspace, endOperation_subInstruction, endOperation_writeData, endOperation_navigate]
  case enter =>
    split
    case h_1 hremap => exact congrArg _ (endOperation_navigate_of_some .enterTarget hremap none)
    case h_2 hremap => exact congrArg _ (endOperation_navigate_none_of_none .enterTarget hremap)
  case curleft =>
    generalize htarget : previousAddress _ = target
    exact (exec_moveCommand .previousAddress 0x00#8 htarget (by decide)).symm
  case curright =>
    generalize htarget : nextAddress _ = target
    exact (exec_moveCommand .nextAddress 0x04#8 htarget (by decide)).symm

end Sys2Proof.Machine

/-! ## 40_bus_transport, section 3: the two cycles on the pins (R137, R138) -/

namespace Sys2Proof.Machine

/-- Settles O12: what a write cycle does to LCDC is `writeCycle_peerOnly`, and to an attached peer
`writeCycle_reference`. -/
theorem writeCycleOnThePins : Obligations.WriteCycleOnThePins := by
  unfold Obligations.WriteCycleOnThePins
  intro reg b s
  exact ⟨writeCycle_peerOnly reg b s, transactions_pinEvents [.write reg b],
    fun hc hd p hp hlate => writeCycle_reference hp hc hd hlate reg b⟩

/-- On driven control lines an oracle answers a read cycle with the next byte of its list (R71). -/
theorem readCycle_oracle {s : State} {b : Byte} {answers : List Byte} (hp : s.peer = .oracle (b :: answers))
    (hc : s.ctlDir = .output) (reg : BusRegister) :
    readCycle reg s = (b, readDone reg b { s with peer := .oracle answers }) := by
  rw [readCycle_driven reg hc]
  simp [peerRead, readSampling, hp]

/-- Settles O13: what a read cycle does to LCDC is `readCycle_peerOnly`, and an oracle's answer to it
`readCycle_oracle`. -/
theorem readCycleOnThePins : Obligations.ReadCycleOnThePins := by
  unfold Obligations.ReadCycleOnThePins
  intro reg s
  refine ⟨readCycle_peerOnly reg s, fun hc b answers hp => ?_⟩
  rw [readCycle_oracle hp hc]
  exact ⟨rfl, rfl⟩

end Sys2Proof.Machine

/-! ## 40_bus_transport, section 4: the pin-level checker (R140, R141) -/

namespace Sys2Proof.Machine

/-- The events from `s` to `t` are whole cycles that pass the checker (R140). -/
def PassesChecker (s t : State) : Prop := ∃ evs, t.trace = s.trace ++ evs ∧ wholeCycles s.dbDir t.dbDir evs

namespace PassesChecker

theorem refl (s : State) : PassesChecker s s := ⟨[], (List.append_nil _).symm, rfl⟩

theorem trans {s t u : State} (h : PassesChecker s t) (k : PassesChecker t u) : PassesChecker s u := by
  obtain ⟨evs, hevs, hpass⟩ := h
  obtain ⟨more, hmore, kpass⟩ := k
  exact ⟨evs ++ more, by rw [hmore, hevs, List.append_assoc], wholeCycles_append hpass kpass⟩

/-- What a state has besides the trace and DB_DIR is nothing to the checker. -/
theorem congr {s t u : State} (h : PassesChecker s t) (htrace : u.trace = t.trace) (hdir : u.dbDir = t.dbDir) :
    PassesChecker s u := by
  unfold PassesChecker
  rwa [htrace, hdir]

theorem endOperation {s t : State} (h : PassesChecker s t) (code : Byte) : PassesChecker s (endOperation code t) :=
  h.congr rfl rfl

theorem peerOnly {s t u : State} (h : PassesChecker s t) (k : PeerOnly t u) : PassesChecker s u := by
  unfold PeerOnly at k
  rw [k]
  exact h.congr rfl rfl

end PassesChecker

/-! ### Cycles and polls -/

/-- R137's precondition: a write cycle is asked for driven data lines. -/
theorem writeCycle_passesChecker (reg : BusRegister) (b : Byte) {s : State} (hd : s.dbDir = .output) :
    PassesChecker s (writeCycle reg b s) := by
  have hlatched : PassesChecker s (writeLatched reg b s) := by
    refine ⟨_, rfl, ?_⟩
    rw [writeLatched, hd]
    exact wholeCycles_write reg b
  exact hlatched.peerOnly (writeCycle_peerOnly reg b s)

theorem readCycle_passesChecker (reg : BusRegister) (s : State) : PassesChecker s (readCycle reg s).2 :=
  have hdone : PassesChecker s (readDone reg (readCycle reg s).1 s) := ⟨_, rfl, wholeCycles_read s.dbDir reg _⟩
  hdone.peerOnly (readCycle_peerOnly reg s)

/-- One poll and the transactions after it: the poll drives the data lines, whatever their direction was. -/
theorem Did.passesChecker {s t : State} {samples : List Byte} {txns : List Txn} (h : Did s t [samples] txns)
    (hpoll : pollTxns samples <+: txns) : PassesChecker s t := by
  obtain ⟨more, rfl⟩ := hpoll
  obtain ⟨-, -, -, hd⟩ := h.last samples rfl
  have hne : samples ≠ [] := (h.shape samples (by simp)).ne_nil
  refine ⟨_, h.trace, ?_⟩
  rw [hd]
  exact wholeCycles_poll s.dbDir hne more

theorem pollUntilReady_passesChecker (s : State) : PassesChecker s (pollUntilReady s).state := by
  obtain ⟨samples, hdid, -, -⟩ := did_poll s
  exact hdid.passesChecker List.prefix_rfl

theorem readAddress_passesChecker (s : State) : PassesChecker s (readAddress s).2 :=
  (pollUntilReady_passesChecker s).congr rfl rfl

theorem readData_passesChecker (s : State) : PassesChecker s (readData s) := by
  obtain ⟨samples, b, hdid, -⟩ := did_readData s
  exact hdid.passesChecker (List.prefix_append _ _)

theorem poll_write_passesChecker (reg : BusRegister) (b : Byte) (s : State) :
    PassesChecker s (writeCycle reg b (pollUntilReady s).state) := by
  obtain ⟨samples, hdid, -⟩ := did_poll_write reg b s
  exact hdid.passesChecker (List.prefix_append _ _)

theorem issueInstruction_passesChecker (b : Byte) (s : State) : PassesChecker s (issueInstruction b s) :=
  poll_write_passesChecker .instruction b s

theorem writeData_passesChecker (b : Byte) (s : State) : PassesChecker s (writeData b s) :=
  poll_write_passesChecker .data b s

/-! ### Operations -/

/-- With invalid settings there is no bus traffic (R169). -/
theorem validatedInstruction_passesChecker (op : LcdOpcode) (arg : Byte) (s : State) :
    PassesChecker s (validatedInstruction op arg s) := by
  unfold validatedInstruction
  cases encodeSettings op arg with
  | some b => exact (issueInstruction_passesChecker b s).endOperation _
  | none => exact (PassesChecker.refl s).endOperation _

theorem subInstruction_passesChecker (op : LcdOpcode) (settings : Byte) (s : State) :
    PassesChecker s (subInstruction op settings s) := by
  unfold subInstruction
  cases encodeSettings op settings with
  | some b => exact issueInstruction_passesChecker b s
  | none => exact .refl s

theorem navigate_passesChecker (t : RemapTable) (otherwise : Option Byte) (s : State) :
    PassesChecker s (navigate t otherwise s) := by
  refine (readAddress_passesChecker s).trans ?_
  rw [navigate, branchOn_eq]
  cases branchByte t otherwise (readAddress s).1 with
  | some b => exact issueInstruction_passesChecker b _
  | none => exact .refl _

theorem backspace_passesChecker (s : State) : PassesChecker s (backspace s) :=
  ((((subInstruction_passesChecker .entryModeSet 0x00#8 s).trans
    (navigate_passesChecker .previousAddress (some leftCursorShift) _)).trans
    (writeData_passesChecker s.cfg.blank _)).trans
    (subInstruction_passesChecker .cursorDisplayShift 0x04#8 _)).trans
    (subInstruction_passesChecker .entryModeSet 0x02#8 _)

/-- The set-up events of INIT come before its cycles and turn the data lines to outputs (R200). -/
theorem initRaw_passesChecker (s : State) : PassesChecker s (initRaw s) :=
  have hset : PassesChecker s (initialised s) :=
    ⟨_, List.append_assoc _ _ _, wholeCycles_append (wholeCycles_setup s.dbDir) (wholeCycles_pinEvents _)⟩
  hset.peerOnly (initRaw_peerOnly s)

theorem initPolled_passesChecker (s : State) : PassesChecker s (initPolled s) :=
  (((subInstruction_passesChecker .functionSet 0x18#8 s).trans
    (subInstruction_passesChecker .displayControl 0x00#8 _)).trans
    (issueInstruction_passesChecker LcdOpcode.clearDisplay.code _)).trans
    (subInstruction_passesChecker .entryModeSet 0x02#8 _)

theorem recordInitd_passesChecker (s : State) : PassesChecker s (recordInitd s) := (PassesChecker.refl s).congr rfl rfl

/-! ### Instructions -/

/-- Every instruction's events pass; a bus word alone is asked for driven data lines. -/
theorem exec_passesChecker {i : Instr} {s : State} (hbus : ∀ w, encode i = .bus10 w → s.dbDir = .output) :
    ∃ t, exec i s = .next t ∧ PassesChecker s t := by
  cases i with
  | clear | home => exact ⟨_, rfl, (issueInstruction_passesChecker _ s).endOperation _⟩
  | entry arg | dispctl arg | shift arg | funcset arg | setcg arg | setdd arg =>
    exact ⟨_, rfl, validatedInstruction_passesChecker _ arg s⟩
  | wrdata arg => exact ⟨_, rfl, (writeData_passesChecker arg s).endOperation _⟩
  | rddata => exact ⟨_, rfl, (readData_passesChecker s).endOperation _⟩
  | rdac => exact ⟨_, rfl, (readAddress_passesChecker s).endOperation _⟩
  | waitbusy => exact ⟨_, rfl, (pollUntilReady_passesChecker s).endOperation _⟩
  | init =>
    exact ⟨_, rfl, (((initRaw_passesChecker s).trans (initPolled_passesChecker _)).trans
      (recordInitd_passesChecker _)).endOperation _⟩
  | putch arg => exact ⟨_, rfl, ((writeData_passesChecker arg s).trans (navigate_passesChecker _ _ _)).endOperation _⟩
  | bksp => exact ⟨_, rfl, (backspace_passesChecker s).endOperation _⟩
  | enter | curleft | curright => exact ⟨_, rfl, (navigate_passesChecker _ _ s).endOperation _⟩
  | bwClearDisplay | bwReturnHome | bwEntryModeSet | bwDisplayControl | bwCursorDisplayShift | bwFunctionSet
  | bwSetCgramAddress | bwSetDdramAddress | bwDataWrite =>
    exact ⟨_, rfl, writeCycle_passesChecker _ _ (hbus _ rfl)⟩
  | bwStatusRead | bwDataRead => exact ⟨_, rfl, readCycle_passesChecker _ s⟩

/-! ### An operation that a reset cuts short (R270) -/

/-- However many micro-operations of an instruction are performed, what they have traced begins what the whole
instruction traces. -/
theorem ticks_beginOperation_trace_prefix {i : Instr} {s t : State} (hseq : s.seq = .idle) (hexec : exec i s = .next t)
    (n : Nat) : (ticks n (beginOperation i s)).trace <+: t.trace := by
  obtain ⟨u, hu, ⟨m, hticks, -⟩, hidle⟩ := reach_exec i hseq
  obtain rfl : u = t := Host.Outcome.next.inj (hu.symm.trans hexec)
  rcases Nat.le_total n m with hle | hle <;> obtain ⟨k, rfl⟩ := Nat.exists_eq_add_of_le hle
  · rw [← hticks, ticks_add]
    exact (ticks_tickFrame k _).2.1
  · rw [ticks_add, hticks, ticks_of_idle k hidle]

/-- A command word names no bus word (R101). -/
theorem encode_of_decodeCommand {w : CommandWord} {i : Instr} (h : decodeCommand w = .ok i) :
    ∃ v, encode i = .hc16 v := by
  unfold decodeCommand at h
  split at h
  case h_19 => cases h
  all_goals
    cases h
    exact ⟨_, rfl⟩

/-- The events of a command that is cut short pass as far as they go. -/
theorem ticks_beginOperation_cyclesSoFar {i : Instr} {s : State} (hseq : s.seq = .idle)
    (hcommand : ∃ v, encode i = .hc16 v) (n : Nat) :
    ∃ evs, (ticks n (beginOperation i s)).trace = s.trace ++ evs ∧ cyclesSoFar s.dbDir evs := by
  obtain ⟨v, hv⟩ := hcommand
  obtain ⟨t, hexec, evs, hevs, hpass⟩ := exec_passesChecker (i := i) (s := s) fun w hw => by
    rw [hv] at hw
    cases hw
  have hend := ticks_beginOperation_trace_prefix hseq hexec n
  obtain ⟨done, hdone⟩ : s.trace <+: (ticks n (beginOperation i s)).trace :=
    (ticks_tickFrame n (beginOperation i s)).2.1
  rw [← hdone, hevs] at hend
  exact ⟨done, hdone.symm, cyclesSoFar_of_prefix hpass ((List.prefix_append_right_inj _).1 hend)⟩

/-- What a write of CMD comes to that a reset cuts short: some micro-operations of its command, or none of a reserved
op. -/
theorem writeCmdCutShort_cyclesSoFar {w : CommandWord} {n : Nat} {s t : State} (hseq : s.seq = .idle)
    (h : writeCmdCutShort w n s = .next t) : ∃ evs, t.trace = s.trace ++ evs ∧ cyclesSoFar s.dbDir evs := by
  unfold writeCmdCutShort at h
  split at h
  case h_1 i hdecode =>
    unfold cutShort at h
    split at h
    · cases h
    · obtain rfl := Host.Outcome.next.inj h
      exact ticks_beginOperation_cyclesSoFar (s := { s with cmd := w }) hseq (encode_of_decodeCommand hdecode) n
  case h_2 =>
    obtain rfl := Host.Outcome.next.inj h
    exact ⟨[], (List.append_nil _).symm, rfl⟩

/-- Settles O15: every instruction is made of polls and cycles that pass (`exec_passesChecker`), and what a command cut
short has traced begins what the whole command traces (`ticks_beginOperation_trace_prefix`). -/
theorem pinTracesPassTheChecker : Obligations.PinTracesPassTheChecker := by
  unfold Obligations.PinTracesPassTheChecker
  refine ⟨fun i s t hbus hexec => ?whole, fun s t w n rest hseq hinputs hstep => ?cut⟩
  case whole =>
    obtain ⟨u, hu, hpass⟩ := exec_passesChecker hbus
    exact Host.Outcome.next.inj (hu.symm.trans hexec) ▸ hpass
  case cut =>
    rw [step_takes hseq hinputs] at hstep
    exact writeCmdCutShort_cyclesSoFar (s := { s with inputs := rest }) hseq hstep

end Sys2Proof.Machine

/-! ## 41_busy_poller, sections 1 to 4: the poll, and the two operations that are one poll (R152 to R157) -/

namespace Sys2Proof.Machine

/-! ### Bytes that are sampled busy, and one more -/

@[simp] theorem lastBusy_append_singleton (samples : List Byte) (b : Byte) :
    lastBusy (samples ++ [b]) = busyBit b := by
  simp [lastBusy]

@[simp] theorem lastSample_append_singleton (samples : List Byte) (b : Byte) : lastSample (samples ++ [b]) = b := by
  simp [lastSample, List.getLastD_eq_getLast?]

/-- Busy bytes and then one more are what a poll can sample: a ready one within the budget, a busy one at its end. -/
theorem PollShape.append_singleton {budget : Nat} {busy : List Byte} {b : Byte}
    (hbusy : ∀ x ∈ busy, busyBit x = true) (hle : busy.length < budget)
    (hend : busyBit b = true → busy.length + 1 = budget) : PollShape budget (busy ++ [b]) := by
  refine ⟨by simp, by simpa using hle, ?_, by simpa using hend⟩
  rw [List.dropLast_concat]
  exact hbusy

/-! ### A poll that ends Ready, and one that times out (R152) -/

/-- Where a poll leaves LCDC, from before its start. -/
theorem pollDone_startPoll_of_ready {samples : List Byte} (h : lastBusy samples = false) (s : State) :
    pollDone samples (startPoll s) =
      { s with
        attempt := BitVec.ofNat 8 samples.length, pollres := codeReady, dbDir := .output, rs := .instruction,
        rw := .read, e := .low, trace := s.trace ++ pinEvents (statusReads samples) } := by
  simp [pollDone, startPoll, pollCode, pollTxns, h]

theorem pollDone_startPoll_of_busy {samples : List Byte} (h : lastBusy samples = true) (s : State) :
    pollDone samples (startPoll s) =
      { s with
        attempt := BitVec.ofNat 8 samples.length, pollres := codeTimedOut, flags := withTmo s.flags,
        dbDir := .output, rs := .instruction, rw := .read, e := .low,
        trace := s.trace ++ pinEvents (statusReads samples) ++ [.timeout] } := by
  simp [pollDone, startPoll, pollCode, pollTxns, h, Txn.events]

/-- Settles O18: the bytes have the shape of a poll (`PollShape.append_singleton`), so an oracle that answers them is
sampled to the last (`pollUntilReady_oracle`). -/
theorem pollReturnsAtFirstReadyOrBudget : Obligations.PollReturnsAtFirstReadyOrBudget := by
  unfold Obligations.PollReturnsAtFirstReadyOrBudget
  intro s busy rest b hc hbusy hp
  replace hp : s.peer = .oracle ((busy ++ [b]) ++ rest) := by simpa using hp
  refine ⟨fun hb hle => ?ready, fun hb hlen => ?timedOut⟩
  case ready =>
    have hshape : PollShape s.cfg.maxAttempts (busy ++ [b]) :=
      .append_singleton hbusy hle (by simp [hb])
    rw [pollUntilReady_oracle hshape hp hc, pollDone_startPoll_of_ready (by simpa using hb)]
    simp [pollVerdict, hb, codeReady]
  case timedOut =>
    have hshape : PollShape s.cfg.maxAttempts (busy ++ [b]) :=
      .append_singleton hbusy (by omega) fun _ => hlen
    rw [pollUntilReady_oracle hshape hp hc, pollDone_startPoll_of_busy (by simpa using hb)]
    simp [pollVerdict, hb, hlen, codeTimedOut, withTmo]

theorem pollVerdict_eq_timedOut_iff (samples : List Byte) :
    pollVerdict samples = .timedOut ↔ lastBusy samples = true := by
  cases h : lastBusy samples <;> simp [pollVerdict, h]

/-- Settles O19: `pollUntilReady_spec`, with ATTEMPT counted from 0 (`startPoll`). -/
theorem pollOfAnyPeer : Obligations.PollOfAnyPeer := by
  unfold Obligations.PollOfAnyPeer
  intro s
  obtain ⟨samples, hshape, hsampled, hresult, hstate⟩ := pollUntilReady_spec s
  refine ⟨samples, hshape, hsampled, hresult ▸ pollVerdict_eq_timedOut_iff samples, ?_⟩
  unfold PeerOnly at hstate
  simpa [pollDone, startPoll] using hstate

/-! ### WAITBUSY and RDAC (R155, R156) -/

/-- Settles O20: what the poll did (`did_poll`, `did_readAddress`), and the end of the operation (`Did.effect`). -/
theorem waitbusyAndRdacPoll : Obligations.WaitbusyAndRdacPoll := by
  unfold Obligations.WaitbusyAndRdacPoll
  intro arg s
  refine ⟨?waitbusy, ?rdac⟩
  case waitbusy =>
    obtain ⟨samples, hdid, -, hrdata⟩ := did_poll s
    exact ⟨_, samples, rfl, hdid.effect rfl, hrdata⟩
  case rdac =>
    obtain ⟨samples, hdid, -, hrdata⟩ := did_readAddress s
    exact ⟨_, samples, rfl, hdid.effect rfl, hrdata⟩

end Sys2Proof.Machine

/-! ## 42_instructions, sections 1 to 3: the encoder, the issuer and the LCD instructions (R166 to R171) -/

namespace Sys2Proof.Machine

/-! ### The encoder (R166, R117) -/

theorem encodeSettings_of_le {op : LcdOpcode} {settings : Byte} (h : op.code.toNat ≤ settings.toNat) :
    encodeSettings op settings = none :=
  if_pos (BitVec.le_def.2 h)

theorem encodeSettings_of_lt {op : LcdOpcode} {settings : Byte} (h : settings.toNat < op.code.toNat) :
    encodeSettings op settings = some (op.code ||| settings) :=
  if_neg (BitVec.not_le.2 (BitVec.lt_def.2 h))

/-- An opcode is a single bit (R105). -/
theorem code_eq_two_pow (op : LcdOpcode) : ∃ k, op.code.toNat = 2 ^ k := by
  cases op with
  | clearDisplay => exact ⟨0, rfl⟩
  | returnHome => exact ⟨1, rfl⟩
  | entryModeSet => exact ⟨2, rfl⟩
  | displayControl => exact ⟨3, rfl⟩
  | cursorDisplayShift => exact ⟨4, rfl⟩
  | functionSet => exact ⟨5, rfl⟩
  | setCgramAddress => exact ⟨6, rfl⟩
  | setDdramAddress => exact ⟨7, rfl⟩

/-- Settings below an opcode have none of its bits, so OR adds them. -/
theorem toNat_code_or {op : LcdOpcode} {settings : Byte} (h : settings.toNat < op.code.toNat) :
    (op.code ||| settings).toNat = op.code.toNat + settings.toNat := by
  obtain ⟨k, hk⟩ := code_eq_two_pow op
  rw [hk] at h
  rw [BitVec.toNat_or, hk]
  simpa using (Nat.two_pow_add_eq_or_of_lt h 1).symm

/-- Settles O5: the encoder's two branches, and the sum (`toNat_code_or`). -/
theorem encoderRejectsSettingsAtOrAboveOpcode : Obligations.EncoderRejectsSettingsAtOrAboveOpcode := by
  unfold Obligations.EncoderRejectsSettingsAtOrAboveOpcode
  exact fun op settings => ⟨encodeSettings_of_le, fun h => ⟨encodeSettings_of_lt h, toNat_code_or h⟩⟩

/-! ### What an instruction that issues one byte does (R168) -/

/-- An instruction that is one `IssueInstruction` and its end does a poll and the write (`did_poll_write`), and RDATA is
not written. -/
theorem issuing_effect {i : Instr} {b : Byte} {s : State}
    (h : exec i s = .next (endOperation codeSuccess (issueInstruction b s))) :
    ∃ t p, exec i s = .next t ∧ Effect s t [p] p (pollTxns p ++ [Txn.write .instruction b]) ∧ t.rdata = s.rdata := by
  obtain ⟨p, hdid, hrdata⟩ := did_poll_write .instruction b s
  exact ⟨_, p, h, hdid.effect rfl, hrdata⟩

/-- Settles O21: CLEAR and HOME issue their opcode's byte and nothing of arg (`issuing_effect`). -/
theorem clearAndHomeIssue : Obligations.ClearAndHomeIssue := by
  unfold Obligations.ClearAndHomeIssue
  exact fun arg s => ⟨issuing_effect rfl, issuing_effect rfl⟩

/-! ### The validating operations (R169) -/

theorem validatedInstruction_issues {op : LcdOpcode} {arg : Byte} (h : arg.toNat < op.code.toNat) (s : State) :
    validatedInstruction op arg s = endOperation codeSuccess (issueInstruction (op.code ||| arg) s) := by
  rw [validatedInstruction_of_lt h, subInstruction_issues h]

theorem validatedInstruction_rejects {op : LcdOpcode} {arg : Byte} (h : op.code.toNat ≤ arg.toNat) (s : State) :
    validatedInstruction op arg s = endOperation codeInvalidArgument s := by
  rw [validatedInstruction, encodeSettings_of_le h]

theorem exec_of_validatedOpcode {i : Instr} {op : LcdOpcode} {arg : Byte} (h : validatedOpcode i = some (op, arg))
    (s : State) : exec i s = .next (validatedInstruction op arg s) := by
  cases i with
  | entry | dispctl | shift | funcset | setcg | setdd => cases h; rfl
  | _ => cases h

/-- Settles O22: a validating operation with settings below its opcode issues `opcode | arg` (`issuing_effect`), with
other settings it ends at once (`validatedInstruction_rejects`). -/
theorem settingsAreValidatedThenIssued : Obligations.SettingsAreValidatedThenIssued := by
  unfold Obligations.SettingsAreValidatedThenIssued
  intro i op arg s hmem
  have hexec : exec i s = .next (validatedInstruction op arg s) := by
    apply exec_of_validatedOpcode
    simp only [List.mem_cons, Prod.mk.injEq, List.not_mem_nil, or_false] at hmem
    obtain ⟨rfl, rfl⟩ | ⟨rfl, rfl⟩ | ⟨rfl, rfl⟩ | ⟨rfl, rfl⟩ | ⟨rfl, rfl⟩ | ⟨rfl, rfl⟩ := hmem <;> rfl
  refine ⟨fun hvalid => ?valid, fun hinvalid => ?invalid⟩
  case valid => exact issuing_effect (hexec.trans (by rw [validatedInstruction_issues hvalid]))
  case invalid => exact hexec.trans (by rw [validatedInstruction_rejects hinvalid]; rfl)

/-! ### The host's instructions and their bus words (R168, R192, R193, R155, R156) -/

/-- RDATA receives the address read as the sample's low 7 bits (R114, R117). -/
theorem addressByte_addressOf (sampled : Byte) : addressByte (addressOf sampled) = sampled &&& 0x7F#8 := by
  revert sampled
  decide

/-- Settles O23: CLEAR, HOME and WRDATA are their poll and cycle by definition, a validating operation by
`validatedInstruction_issues`, its bus word being well-formed only below the opcode. -/
theorem hostInstructionIsAPollAndItsBusWord : Obligations.HostInstructionIsAPollAndItsBusWord := by
  unfold Obligations.HostInstructionIsAPollAndItsBusWord
  refine ⟨fun arg i word s hmem hword => ?write, fun arg b s => ⟨?rddata, rfl, ?rdac⟩⟩
  case write =>
    cases i with
    | clear | home | wrdata =>
      obtain ⟨rfl, rfl⟩ : _ = arg ∧ word = _ := by simpa [eq_comm] using hmem
      exact ⟨_, rfl, rfl⟩
    | entry | dispctl | shift | funcset | setcg | setdd =>
      obtain ⟨rfl, rfl⟩ : _ = arg ∧ word = _ := by simpa [eq_comm] using hmem
      have hbelow := BitVec.lt_def.1 (of_decide_eq_true hword)
      exact ⟨_, rfl, congrArg Host.Outcome.next (validatedInstruction_issues hbelow s)⟩
    | _ => simp at hmem
  case rddata => exact ⟨_, _, rfl, (readCycle_peerOnly .data (pollUntilReady s).state).trace, rfl⟩
  case rdac => rw [← addressByte_addressOf]; rfl

end Sys2Proof.Machine

/-! ## 43_data_transfer: raw data write and read (R192, R193, R195) -/

namespace Sys2Proof.Machine

/-- Settles O25: what the poll and the data cycle did (`did_poll_write`, `did_readData`), and the end of the operation
(`Did.effect`). -/
theorem rawDataTransfers : Obligations.RawDataTransfers := by
  unfold Obligations.RawDataTransfers
  intro arg s
  refine ⟨?wrdata, ?rddata⟩
  case wrdata =>
    obtain ⟨samples, hdid, hrdata⟩ := did_poll_write .data arg s
    exact ⟨_, samples, rfl, hdid.effect rfl, hrdata⟩
  case rddata =>
    obtain ⟨samples, d, hdid, hrdata⟩ := did_readData s
    exact ⟨_, samples, d, rfl, hdid.effect rfl, hrdata⟩

end Sys2Proof.Machine

/-! ## 44_init: the initialisation sequence (R200, R204 to R206) -/

namespace Sys2Proof.Machine

/-! ### LCDC through INIT, whatever the peer answers (R200, R206) -/

theorem linesAfter_append_write (rs : BusRegister) (rw : Transfer) (txns : List Txn) (reg : BusRegister) (b : Byte) :
    linesAfter rs rw (txns ++ [.write reg b]) = (reg, .write) := by
  rw [linesAfter_append]
  rfl

theorem dbOutAfter_append_write (old : Byte) (txns : List Txn) (reg : BusRegister) (b : Byte) :
    dbOutAfter old (txns ++ [.write reg b]) = b := by
  rw [dbOutAfter_append]
  rfl

/-- What a stretch does to LCDC does not depend on what its start knows of the peer. -/
theorem Did.of_peerOnly {r s t : State} {polls : List (List Byte)} {txns : List Txn} (h : PeerOnly r s)
    (k : Did s t polls txns) : Did r t polls txns := by
  unfold PeerOnly at h
  rw [h] at k
  exact { k with }

theorem exec_init (arg : Byte) (s : State) :
    exec (.init arg) s = .next (endOperation codeSuccess (recordInitd (initPolled (initRaw s)))) := rfl

/-- Settles O26: from the state the unpolled part leaves (`initialised`), what the polled part did
(`did_initPolled`). -/
theorem initSequence : Obligations.InitSequence := by
  unfold Obligations.InitSequence
  intro arg s
  obtain ⟨p1, p2, p3, p4, hdid, -⟩ := did_initPolled (initRaw s)
  obtain ⟨hshape, htrace, hlast, hflags, hlines, hdbOut, hctlDir, hsurroundings⟩ := hdid.of_peerOnly (initRaw_peerOnly s)
  obtain ⟨hpollres, hattempt, he, hdbDir⟩ := hlast p4 rfl
  rw [← List.append_assoc, linesAfter_append_write, Prod.mk.injEq] at hlines
  rw [← List.append_assoc, dbOutAfter_append_write] at hdbOut
  obtain ⟨hrs, hrw⟩ := hlines
  have hrdata := initPolled_initRaw_rdata s
  rw [exec_init]
  generalize initPolled (initRaw s) = u at *
  refine ⟨_, p1, p2, p3, p4, rfl, hshape, ?trace, he, hctlDir, hdbDir, hrs, hrw, hdbOut, congrArg withInitd hflags, rfl,
    hpollres, hattempt, rfl, hrdata, hsurroundings⟩
  case trace => simp [htrace, initialised, rawFunctionSet]

/-! ### The reference peer through the unpolled part (R201, R202) -/

/-- LCDC drives every line, and on the bus is the reference peer `p`, which performs late cycles (R92). -/
def DrivenReference (s : State) (p : RefPeer) : Prop :=
  s.peer = .reference p ∧ s.ctlDir = .output ∧ s.dbDir = .output ∧ p.late = .performed

/-- With enable already low, the set-up makes no falling edge, so the peer sees no cycle in it (R72, R200). -/
theorem initPins_driven {s : State} {p : RefPeer} (hp : s.peer = .reference p) (hlate : p.late = .performed)
    (he : s.e = .low) : DrivenReference (initPins s) p := by
  unfold initPins
  rw [setEnable_low_of_low he]
  exact ⟨hp, rfl, rfl, hlate⟩

theorem PeerOnly.dbDir {s t : State} (h : PeerOnly s t) : t.dbDir = s.dbDir := by
  unfold PeerOnly at h
  rw [h]

/-- The reference peer after the raw byte 0x30 (R89, R202). -/
def RefPeer.afterRawWrite (p : RefPeer) : RefPeer :=
  { p with dl := true, n := false, f := false, busycnt := p.kBusy }

theorem rawWrite_driven {s : State} {p : RefPeer} (h : DrivenReference s p) (d : Delay) :
    DrivenReference (rawWrite d s) p.afterRawWrite := by
  obtain ⟨hp, hctl, hdir, hlate⟩ := h
  have hpeer : (rawWrite d s).peer = .reference p.afterRawWrite :=
    functionSetCycle_reference (s := delay d s) (settings := 0x10#8) hp hctl hdir hlate (by decide) (by decide)
  have hcycle := writeCycle_peerOnly .instruction rawFunctionSet (delay d s)
  exact ⟨hpeer, hcycle.ctlDir.trans hctl, hcycle.dbDir.trans hdir, hlate⟩

theorem initRaw_driven {s : State} {p : RefPeer} (hp : s.peer = .reference p) (hlate : p.late = .performed)
    (he : s.e = .low) : DrivenReference (initRaw s) p.afterRawWrite :=
  rawWrite_driven (rawWrite_driven (rawWrite_driven (initPins_driven hp hlate he) .init1) .init2) .init3

/-- However busy the peer was, after the unpolled part it is busy K_BUSY times, which no poll outlasts (R92). -/
theorem initRaw_attached {s : State} {p : RefPeer} (hp : s.peer = .reference p) (hlate : p.late = .performed)
    (he : s.e = .low) (hbusy : p.kBusy < s.cfg.maxAttempts) : Attached (initRaw s) p.afterRawWrite := by
  obtain ⟨hpeer, hctl, -, -⟩ := initRaw_driven hp hlate he
  have hcfg : (initRaw s).cfg = s.cfg := (initRaw_peerOnly s).cfg
  exact ⟨hpeer, hctl, hcfg ▸ hbusy, hcfg ▸ hbusy⟩

/-! ### The reference peer through the polled part (R204) -/

/-- The reference peer in the state R204 lists. -/
def RefPeer.initialised (p : RefPeer) : RefPeer :=
  { p with
    bf := false, ac := 0x00#7, ramsel := .ddram, id := true, s := false, d := false, c := false, b := false,
    dl := true, n := true, f := false, sh := 0, ddram := [], busycnt := p.kBusy }

/-- With the reference peer attached no poll times out: TMO stays as it was, and POLLRES is Ready (R152, R168). -/
theorem issueInstruction_attached_ready {s : State} {p q : RefPeer} (h : Attached s p) {b : Byte}
    (hq : peerAfterInstruction b p.settled = .reference q) (hk : q.kBusy = p.kBusy) (hb : q.busycnt = p.kBusy) :
    Attached (issueInstruction b s) q ∧ (issueInstruction b s).flags = s.flags ∧
      (issueInstruction b s).pollres = codeReady := by
  refine ⟨issueInstruction_attached_peer h hq hk hb, ?_⟩
  rw [issueInstruction_attached h]
  refine ⟨?flags, afterPoll_ready_pollres p s⟩
  case flags => simp [writeLatched, afterPoll, pollDone, lastBusy_readySamples]

theorem initPolled_attached {s : State} {p : RefPeer} (h : Attached s p) :
    Attached (initPolled s) p.initialised ∧ (initPolled s).flags = s.flags ∧ (initPolled s).pollres = codeReady := by
  obtain ⟨hfunction, hflags1, -⟩ := issueInstruction_attached_ready h (b := 0x38#8)
    (peerAfterInstruction_functionSet _ (settings := 0x18#8) (by decide) (by decide)) rfl rfl
  obtain ⟨hdisplay, hflags2, -⟩ := issueInstruction_attached_ready hfunction (b := 0x08#8)
    (peerAfterInstruction_eq _ (op := .displayControl) (settings := 0x00#8) (by decide) (by decide)) rfl rfl
  obtain ⟨hclear, hflags3, -⟩ := issueInstruction_attached_ready hdisplay (peerAfterInstruction_clear _) rfl rfl
  obtain ⟨hentry, hflags4, hready⟩ := issueInstruction_attached_ready hclear (peerAfterInstruction_increment _) rfl rfl
  unfold initPolled
  rw [subInstruction_issues (by decide), subInstruction_issues (by decide), subInstruction_issues (by decide)]
  exact ⟨hentry, hflags4.trans (hflags3.trans (hflags2.trans hflags1)), hready⟩

/-- Settles O49: the unpolled part leaves a peer that is ready in time (`initRaw_attached`), which the polled part
brings up (`initPolled_attached`); LCDC's lines and STATUS are those of `initSequence`. -/
theorem initBringsThePeerUp : Obligations.InitBringsThePeerUp := by
  unfold Obligations.InitBringsThePeerUp
  intro s p arg hp hlate he hbusy
  obtain ⟨⟨hpeer, -⟩, hflags, hready⟩ := initPolled_attached (initRaw_attached hp hlate he hbusy)
  have hraw : (initRaw s).flags = s.flags := (initRaw_peerOnly s).flags
  obtain ⟨t, _, _, _, _, hexec, -, -, hlow, hctlDir, hdbDir, hrs, hrw, hdbOut, -, hstatus, -⟩ := initSequence arg s
  rw [exec_init, Host.Outcome.next.injEq] at hexec
  rw [exec_init]
  generalize initPolled (initRaw s) = u at *
  subst hexec
  exact ⟨_, rfl, hpeer, hlow, hctlDir, hdbDir, hrs, hrw, hdbOut, congrArg withInitd (hflags.trans hraw), hstatus, hready⟩

end Sys2Proof.Machine

/-! ## 45_navigator, section 1: the line table and its remap tables (R212 to R218) -/

namespace Sys2Proof.Machine

/-! ### The remap tables, with the ends of the lines written out (R66) -/

theorem nextAddress_eq (a : Address) :
    nextAddress a = if a = 0x13#7 then some 0x40#7 else if a = 0x53#7 then some 0x14#7
      else if a = 0x27#7 then some 0x54#7 else if a = 0x67#7 then some 0x00#7 else none := rfl

theorem previousAddress_eq (a : Address) :
    previousAddress a = if a = 0x40#7 then some 0x13#7 else if a = 0x14#7 then some 0x53#7
      else if a = 0x54#7 then some 0x27#7 else if a = 0x00#7 then some 0x67#7 else none := rfl

theorem postWriteFix_eq (a : Address) :
    postWriteFix a = if a = 0x14#7 then some 0x40#7 else if a = 0x40#7 then some 0x54#7
      else if a = 0x54#7 then some 0x14#7 else none := rfl

/-- Settles O33, table by table. -/
theorem remapTables : Obligations.RemapTables := by
  unfold Obligations.RemapTables
  exact fun a => ⟨nextAddress_eq a, previousAddress_eq a, postWriteFix_eq a⟩

/-! ### The lines (R212, R215) -/

/-- A line is given by its two ends, and no address is in two lines (R212). -/
theorem lineOf_eq_some_iff {a : Address} {l : DisplayLine} : lineOf a = some l ↔ l.first ≤ a ∧ a ≤ l.last := by
  cases l <;> revert a <;> decide

theorem lineOf_eq_none_iff {a : Address} : lineOf a = none ↔ ∀ l : DisplayLine, ¬ (l.first ≤ a ∧ a ≤ l.last) := by
  simp only [Option.eq_none_iff_forall_ne_some, ne_eq, lineOf_eq_some_iff]

/-- The columns of a line are the addresses between its ends (R66, R75). -/
theorem mem_addresses_iff_lineOf {a : Address} {l : DisplayLine} : a ∈ l.addresses ↔ lineOf a = some l := by
  cases l <;> revert a <;> decide

theorem enterTarget_of_lineOf {a : Address} {l : DisplayLine} (h : lineOf a = some l) :
    enterTarget a = some l.below.first := by
  rw [enterTarget, h, Option.map_some]

theorem enterTarget_eq_none {a : Address} (h : lineOf a = none) : enterTarget a = none := by
  rw [enterTarget, h, Option.map_none]

/-- R212 at every address. -/
theorem lineOf_eq (a : Address) :
    lineOf a = if a ≤ 0x13#7 then some .line1 else if a ≤ 0x27#7 then some .line3 else if a ≤ 0x3F#7 then none
      else if a ≤ 0x53#7 then some .line2 else if a ≤ 0x67#7 then some .line4 else none := by
  revert a
  decide

/-- Settles O34: `lineOf_eq`, and the line below each (R215). -/
theorem linesAndEnterTargets : Obligations.LinesAndEnterTargets := by
  unfold Obligations.LinesAndEnterTargets
  refine fun a => ⟨lineOf_eq a, ?_⟩
  rw [enterTarget, lineOf_eq]
  simp only [apply_ite (Option.map _)]
  rfl

/-- Settles O35, at the four pairs. -/
theorem boundaryRemapsAreInverse : Obligations.BoundaryRemapsAreInverse := by
  unfold Obligations.BoundaryRemapsAreInverse
  decide

/-- Settles O36, at the four line ends. -/
theorem postWriteFixFollowsTheIncrement : Obligations.PostWriteFixFollowsTheIncrement := by
  unfold Obligations.PostWriteFixFollowsTheIncrement
  decide

end Sys2Proof.Machine

/-! ## 45_navigator, section 3: the composites, whatever the peer answers (R219 to R226) -/

namespace Sys2Proof.Machine

theorem did_subInstruction {op : LcdOpcode} {settings : Byte} (h : settings.toNat < op.code.toNat) (s : State) :
    ∃ p, Did s (subInstruction op settings s) [p] (pollTxns p ++ [.write .instruction (op.code ||| settings)]) := by
  rw [subInstruction_issues h]
  obtain ⟨p, hdid, -⟩ := did_poll_write .instruction (op.code ||| settings) s
  exact ⟨p, hdid⟩

theorem did_writeData (b : Byte) (s : State) :
    ∃ p, Did s (writeData b s) [p] (pollTxns p ++ [.write .data b]) := by
  obtain ⟨p, hdid, -⟩ := did_poll_write .data b s
  exact ⟨p, hdid⟩

@[simp] theorem subInstruction_rdata (op : LcdOpcode) (settings : Byte) (s : State) :
    (subInstruction op settings s).rdata = s.rdata := by
  unfold subInstruction
  split <;> simp

/-- A composite's address read and what follows it: RDATA receives the address; where `branchByte` has a byte for it,
a second poll and the write of that byte (R222 to R226). -/
theorem did_navigate (t : RemapTable) (otherwise : Option Byte) (s : State) :
    ∃ p q, (navigate t otherwise s).rdata = lastSample p &&& 0x7F#8 ∧
      (∀ b, branchByte t otherwise (addressOf (lastSample p)) = some b →
        Did s (navigate t otherwise s) [p, q] (pollTxns p ++ pollTxns q ++ [.write .instruction b])) ∧
      (branchByte t otherwise (addressOf (lastSample p)) = none →
        Did s (navigate t otherwise s) [p] (pollTxns p)) := by
  obtain ⟨p, hread, haddress, hrdata⟩ := did_readAddress s
  rw [navigate, branchOn_eq, haddress]
  cases hb : branchByte t otherwise (addressOf (lastSample p)) with
  | none => exact ⟨p, [], hrdata, by simp [hb], fun _ => hread⟩
  | some b =>
    obtain ⟨q, hwrite, hkept⟩ := did_poll_write .instruction b (readAddress s).2
    refine ⟨p, q, hkept.trans hrdata, fun b' hb' => ?_, by simp [hb]⟩
    obtain rfl : b = b' := Option.some.inj (hb.symm.trans hb')
    rw [List.append_assoc]
    exact hread.trans hwrite (by simp)

/-- A composite that goes on at every address: the byte `branchByte` has for the one read (R223, R225, R226). -/
theorem did_navigate_moves (t : RemapTable) (shift : Byte) (s : State) :
    ∃ p q moved, branchByte t (some shift) (addressOf (lastSample p)) = some moved ∧
      (navigate t (some shift) s).rdata = lastSample p &&& 0x7F#8 ∧
      Did s (navigate t (some shift) s) [p, q] (pollTxns p ++ pollTxns q ++ [.write .instruction moved]) := by
  obtain ⟨p, q, hrdata, hsome, -⟩ := did_navigate t (some shift) s
  obtain ⟨moved, hmoved⟩ : ∃ moved, branchByte t (some shift) (addressOf (lastSample p)) = some moved := by
    unfold branchByte
    cases remap t (addressOf (lastSample p)) with
    | some target => exact ⟨_, rfl⟩
    | none => exact ⟨shift, rfl⟩
  exact ⟨p, q, moved, hmoved, hrdata, hsome moved hmoved⟩

/-! ### The bytes of the tables -/

theorem branchByte_of_none {t : RemapTable} {a : Address} (h : remap t a = none) (otherwise : Option Byte) :
    branchByte t otherwise a = otherwise := by
  simp only [branchByte, h]

theorem branchByte_of_some {t : RemapTable} {a target : Address} (h : remap t a = some target)
    (otherwise : Option Byte) : branchByte t otherwise a = some (0x80#8 ||| setddSettings target) := by
  simp only [branchByte, h]

/-- R216: SETDD at three addresses. -/
theorem branchByte_postWriteFix :
    (∀ row ∈ [(0x14#7, 0xC0#8), (0x40#7, 0xD4#8), (0x54#7, 0x94#8)],
      branchByte .postWriteFix none row.1 = some row.2) ∧
    ∀ a ∉ [0x14#7, 0x40#7, 0x54#7], branchByte .postWriteFix none a = none := by
  refine ⟨by simp [branchByte, remap, postWriteFix_eq, setddSettings, addressByte], fun a h => branchByte_of_none ?_ _⟩
  simp_all [remap, postWriteFix_eq]

/-- R214: SETDD at four addresses, elsewhere the left shift. -/
theorem branchByte_previousAddress :
    (∀ row ∈ [(0x40#7, 0x93#8), (0x14#7, 0xD3#8), (0x54#7, 0xA7#8), (0x00#7, 0xE7#8)],
      branchByte .previousAddress (some leftCursorShift) row.1 = some row.2) ∧
    ∀ a ∉ [0x40#7, 0x14#7, 0x54#7, 0x00#7], branchByte .previousAddress (some leftCursorShift) a = some 0x10#8 := by
  refine ⟨by simp [branchByte, remap, previousAddress_eq, setddSettings, addressByte], fun a h => branchByte_of_none ?_ _⟩
  simp_all [remap, previousAddress_eq]

/-- R213: SETDD at four addresses, elsewhere the right shift. -/
theorem branchByte_nextAddress :
    (∀ row ∈ [(0x13#7, 0xC0#8), (0x53#7, 0x94#8), (0x27#7, 0xD4#8), (0x67#7, 0x80#8)],
      branchByte .nextAddress (some rightCursorShift) row.1 = some row.2) ∧
    ∀ a ∉ [0x13#7, 0x53#7, 0x27#7, 0x67#7], branchByte .nextAddress (some rightCursorShift) a = some 0x14#8 := by
  refine ⟨by simp [branchByte, remap, nextAddress_eq, setddSettings, addressByte], fun a h => branchByte_of_none ?_ _⟩
  simp_all [remap, nextAddress_eq]

/-- The byte moved by is the one the table's rows give. -/
theorem moved_of_rows {t : RemapTable} {shift moved : Byte} {address : Address} {rows : List (Address × Byte)}
    {begins : List Address} (hmoved : branchByte t (some shift) address = some moved)
    (hrows : (∀ row ∈ rows, branchByte t (some shift) row.1 = some row.2) ∧
      ∀ a ∉ begins, branchByte t (some shift) a = some shift) :
    (∀ a m, (a, m) ∈ rows → address = a → moved = m) ∧ (address ∉ begins → moved = shift) := by
  obtain ⟨hrow, hother⟩ := hrows
  refine ⟨?_, fun h => Option.some.inj (hmoved.symm.trans (hother _ h))⟩
  rintro a m hmem rfl
  exact Option.some.inj (hmoved.symm.trans (hrow _ hmem))

/-- R215: SETDD to the begin of the line below. -/
theorem branchByte_enterTarget {a : Address} {l : DisplayLine} (h : lineOf a = some l) {target : Byte}
    (hrow : (l, target) ∈ [(DisplayLine.line1, 0xC0#8), (.line2, 0x94#8), (.line3, 0xD4#8), (.line4, 0x80#8)]) :
    branchByte .enterTarget none a = some target := by
  have hbyte : ∀ row ∈ [(DisplayLine.line1, 0xC0#8), (.line2, 0x94#8), (.line3, 0xD4#8), (.line4, 0x80#8)],
      0x80#8 ||| setddSettings row.1.below.first = row.2 := by decide
  rw [branchByte_of_some (t := .enterTarget) (enterTarget_of_lineOf h), hbyte _ hrow]

/-! ### The five composites -/

/-- Settles O27: the data write (`did_writeData`), then the address read and what follows it (`did_navigate`), by the
table of R216 (`branchByte_postWriteFix`). -/
theorem putchSequence : Obligations.PutchSequence := by
  unfold Obligations.PutchSequence
  intro arg s
  obtain ⟨p, hwrite⟩ := did_writeData arg s
  obtain ⟨q, r, hrdata, hfix, hnone⟩ := did_navigate .postWriteFix none (writeData arg s)
  obtain ⟨hrow, hother⟩ := branchByte_postWriteFix
  refine ⟨_, p, q, r, rfl, hrdata, fun target hmem => ?fixed, fun h => ?unfixed⟩
  case fixed =>
    have hdid := hwrite.trans (hfix target (hrow _ hmem)) (by simp)
    simpa using hdid.effect (last := r) rfl
  case unfixed => exact (hwrite.trans (hnone (hother _ h)) (by simp)).effect rfl

/-- BKSP's five calls one after the other (R223). -/
theorem did_backspace (s : State) :
    ∃ p1 p2 p3 p4 p5 p6 moved,
      branchByte .previousAddress (some leftCursorShift) (addressOf (lastSample p2)) = some moved ∧
      (backspace s).rdata = lastSample p2 &&& 0x7F#8 ∧
      Did s (backspace s) [p1, p2, p3, p4, p5, p6]
        (pollTxns p1 ++ [.write .instruction 0x04#8] ++ pollTxns p2 ++ pollTxns p3 ++ [.write .instruction moved]
          ++ pollTxns p4 ++ [.write .data s.cfg.blank] ++ pollTxns p5 ++ [.write .instruction 0x14#8]
          ++ pollTxns p6 ++ [.write .instruction 0x06#8]) := by
  unfold backspace
  obtain ⟨p1, hdecrement⟩ := did_subInstruction (op := .entryModeSet) (settings := 0x00#8) (by decide) s
  generalize subInstruction .entryModeSet 0x00#8 s = s1 at *
  obtain ⟨p2, p3, moved, hmoved, hrdata, hmove⟩ := did_navigate_moves .previousAddress leftCursorShift s1
  generalize navigate .previousAddress (some leftCursorShift) s1 = s2 at *
  obtain ⟨p4, hblank⟩ := did_writeData s.cfg.blank s2
  obtain ⟨p5, hright⟩ := did_subInstruction (op := .cursorDisplayShift) (settings := 0x04#8) (by decide)
    (writeData s.cfg.blank s2)
  obtain ⟨p6, hincrement⟩ := did_subInstruction (op := .entryModeSet) (settings := 0x02#8) (by decide)
    (subInstruction .cursorDisplayShift 0x04#8 (writeData s.cfg.blank s2))
  have hdid := (((hdecrement.trans hmove (by simp)).trans hblank (by simp)).trans hright (by simp)).trans hincrement
    (by simp)
  refine ⟨p1, p2, p3, p4, p5, p6, moved, hmoved, by simpa using hrdata, ?_⟩
  simpa [LcdOpcode.code] using hdid

/-- Settles O28: the five calls (`did_backspace`); the move is by the table of R214 or the left shift
(`branchByte_previousAddress`). -/
theorem bkspSequence : Obligations.BkspSequence := by
  unfold Obligations.BkspSequence
  intro arg s
  obtain ⟨p1, p2, p3, p4, p5, p6, moved, hmoved, hrdata, hdid⟩ := did_backspace s
  exact ⟨_, p1, p2, p3, p4, p5, p6, moved, rfl, hdid.effect rfl, (endOperation_rdata _ _).trans hrdata,
    moved_of_rows hmoved branchByte_previousAddress⟩

/-- Settles O29: `did_navigate` by the line of the address read (`branchByte_enterTarget`). -/
theorem enterSequence : Obligations.EnterSequence := by
  unfold Obligations.EnterSequence
  intro arg s
  obtain ⟨p, q, hrdata, hsome, hnone⟩ := did_navigate .enterTarget none s
  refine ⟨_, p, q, rfl, hrdata, fun l target hmem hfirst hlast => ?inLine, fun h => ?inNone⟩
  case inLine => exact (hsome target (branchByte_enterTarget (lineOf_eq_some_iff.2 ⟨hfirst, hlast⟩) hmem)).effect rfl
  case inNone =>
    have hnowhere := branchByte_of_none (t := .enterTarget) (enterTarget_eq_none (lineOf_eq_none_iff.2 h)) none
    exact (hnone hnowhere).effect rfl

/-- CURLEFT and CURRIGHT: `did_navigate_moves`, by the rows of the table. -/
theorem navigate_effect {table : RemapTable} {shift : Byte} {rows : List (Address × Byte)} {begins : List Address}
    (hrows : (∀ row ∈ rows, branchByte table (some shift) row.1 = some row.2) ∧
      ∀ a ∉ begins, branchByte table (some shift) a = some shift)
    {i : Instr} {s : State} (hexec : exec i s = .next (endOperation codeSuccess (navigate table (some shift) s))) :
    ∃ t p q moved, exec i s = .next t ∧ t.rdata = lastSample p &&& 0x7F#8 ∧
      Effect s t [p, q] q (pollTxns p ++ pollTxns q ++ [Txn.write .instruction moved]) ∧
      (∀ a m, (a, m) ∈ rows → addressOf (lastSample p) = a → moved = m) ∧
      (addressOf (lastSample p) ∉ begins → moved = shift) := by
  obtain ⟨p, q, moved, hmoved, hrdata, hdid⟩ := did_navigate_moves table shift s
  exact ⟨_, p, q, moved, hexec, hrdata, hdid.effect rfl, moved_of_rows hmoved hrows⟩

/-- Settles O30, by the tables of R214 and R213 (`navigate_effect`). -/
theorem cursorSequences : Obligations.CursorSequences := by
  unfold Obligations.CursorSequences
  exact fun arg s => ⟨navigate_effect branchByte_previousAddress rfl, navigate_effect branchByte_nextAddress rfl⟩

end Sys2Proof.Machine

/-! ## 45_navigator, section 4: the composites and the display (R227, R228, R231, R232) -/

namespace Sys2Proof.Machine

/-! ### The display order (R66, R227) -/

theorem displayAddress_mod (k : Nat) : displayAddress (k % 80) = displayAddress k := by
  rw [displayAddress, Nat.mod_mod, displayAddress]

/-- What holds of each of the 80 places and the one after it holds all round the display. -/
theorem displayAddress_round {P : Nat → Address → Address → Prop}
    (h : ∀ j < 80, P j (displayAddress j) (displayAddress (j + 1))) (k : Nat) :
    P (k % 80) (displayAddress k) (displayAddress (k + 1)) := by
  have hplace := h (k % 80) (Nat.mod_lt k (by decide))
  rwa [displayAddress_mod, ← displayAddress_mod (k % 80 + 1), Nat.mod_add_mod, displayAddress_mod] at hplace

theorem lineOf_displayAddress (k : Nat) : lineOf (displayAddress k) ≠ none :=
  displayAddress_round (P := fun _ a _ => lineOf a ≠ none) (by decide) k

/-- R213 and the peer's increment together follow the display order. -/
theorem next_displayAddress (k : Nat) :
    (nextAddress (displayAddress k)).getD (addressStep .ddram true (displayAddress k)) = displayAddress (k + 1) :=
  displayAddress_round (P := fun _ a b => (nextAddress a).getD (addressStep .ddram true a) = b) (by decide) k

/-- R214 and the peer's decrement together follow it back. -/
theorem previous_displayAddress (k : Nat) :
    (previousAddress (displayAddress (k + 1))).getD (addressStep .ddram false (displayAddress (k + 1))) =
      displayAddress k :=
  displayAddress_round (P := fun _ a b => (previousAddress b).getD (addressStep .ddram false b) = a) (by decide) k

/-- Places after whose character PUTCH makes its corrective SETDD (R216, R222). -/
abbrev NeedsFix (place : Nat) : Prop := place = 19 ∨ place = 39 ∨ place = 59

/-- R218, round the display. -/
theorem postWriteFix_displayAddress (k : Nat) :
    (NeedsFix (k % 80) → postWriteFix (addressStep .ddram true (displayAddress k)) = some (displayAddress (k + 1))) ∧
    (¬ NeedsFix (k % 80) → postWriteFix (addressStep .ddram true (displayAddress k)) = none ∧
      addressStep .ddram true (displayAddress k) = displayAddress (k + 1)) :=
  displayAddress_round (P := fun j a b => (NeedsFix j → postWriteFix (addressStep .ddram true a) = some b) ∧
    (¬ NeedsFix j → postWriteFix (addressStep .ddram true a) = none ∧ addressStep .ddram true a = b)) (by decide) k

/-! ### The address read and what follows it, with the reference peer attached -/

/-- SETDD leads to the table's target (R91). -/
theorem navigate_attached_of_some {s : State} {p : RefPeer} (h : Attached s p) {t : RemapTable} {target : Address}
    (htarget : remap t p.ac = some target) (otherwise : Option Byte) :
    Attached (navigate t otherwise s) (p.addressed .ddram target) := by
  obtain ⟨haddress, hread⟩ := readAddress_attached_peer h
  rw [navigate, branchOn_eq, haddress, branchByte_of_some htarget]
  exact issueInstruction_attached_peer hread (peerAfterInstruction_setdd target _) rfl rfl

/-- A composite that has nothing for the address leaves the peer polled. -/
theorem navigate_attached_of_none {s : State} {p : RefPeer} (h : Attached s p) {t : RemapTable}
    (hnone : remap t p.ac = none) : Attached (navigate t none s) p.settled := by
  obtain ⟨haddress, hread⟩ := readAddress_attached_peer h
  rw [navigate, branchOn_eq, haddress, branchByte_of_none hnone]
  exact hread

/-- Where a move leads: to the table's target in DDRAM, else one step by R83. -/
def moveTarget (t : RemapTable) (up : Bool) (p : RefPeer) : RamSelect × Address :=
  match remap t p.ac with
  | some target => (.ddram, target)
  | none => (p.ramsel, addressStep p.ramsel up p.ac)

theorem moveTarget_of_ddram (t : RemapTable) (up : Bool) {p : RefPeer} (h : p.ramsel = .ddram) :
    moveTarget t up p = (.ddram, (remap t p.ac).getD (addressStep .ddram up p.ac)) := by
  unfold moveTarget
  cases remap t p.ac with
  | some target => rfl
  | none => rw [h]; rfl

/-- The peer's steps are R83's: in two-line mode, or by its parameter (R285, log 22). -/
def StepsByTable (p : RefPeer) : Prop := p.n = true ∨ p.oneLine = .byTable

theorem StepsByTable.stepped_eq {p : RefPeer} (h : StepsByTable p) (up : Bool) :
    p.stepped up = addressStep p.ramsel up p.ac :=
  RefPeer.stepped_eq (h.imp_right Or.inr) up

/-- With a shift in the table's place, the peer goes to `moveTarget`. -/
theorem navigate_attached_moves {s : State} {p : RefPeer} (h : Attached s p) (hstep : StepsByTable p) {shift : Byte}
    {up : Bool}
    (hshift : ∀ q, peerAfterInstruction shift q = .reference { q with ac := q.stepped up, busycnt := q.kBusy })
    (t : RemapTable) :
    Attached (navigate t (some shift) s) (p.addressed (moveTarget t up p).1 (moveTarget t up p).2) := by
  unfold moveTarget
  cases hremap : remap t p.ac with
  | some target => exact navigate_attached_of_some h hremap _
  | none =>
    obtain ⟨haddress, hread⟩ := readAddress_attached_peer h
    rw [navigate, branchOn_eq, haddress, branchByte_of_none hremap, ← hstep.stepped_eq up]
    exact issueInstruction_attached_peer hread (hshift _) rfl rfl

/-- In the RAM it was in, only the peer's address and its poll state are new. -/
theorem RefPeer.addressed_of_ramsel {p : RefPeer} {ram : RamSelect} (h : p.ramsel = ram) (a : Address) :
    p.addressed ram a = { p with ac := a, bf := false, busycnt := p.kBusy } := by
  subst h
  rfl

/-! ### CURLEFT, CURRIGHT and ENTER (R224 to R226) -/

/-- CURLEFT and CURRIGHT in DDRAM. -/
theorem navigate_cursor_peer {s : State} {p : RefPeer} (h : Attached s p) (hstep : StepsByTable p)
    (hram : p.ramsel = .ddram) {shift : Byte} {up : Bool}
    (hshift : ∀ q, peerAfterInstruction shift q = .reference { q with ac := q.stepped up, busycnt := q.kBusy })
    {t : RemapTable} {target : Address} (htarget : (remap t p.ac).getD (addressStep .ddram up p.ac) = target) :
    (navigate t (some shift) s).peer = .reference { p with ac := target, bf := false, busycnt := p.kBusy } := by
  obtain ⟨hpeer, -⟩ := navigate_attached_moves h hstep hshift t
  rw [hpeer, moveTarget_of_ddram t up hram, htarget, RefPeer.addressed_of_ramsel hram]

/-- Settles O52: the tables and the peer's steps follow the display order (`next_displayAddress`,
`previous_displayAddress`). -/
theorem cursorMovesAlongTheDisplayOrder : Obligations.CursorMovesAlongTheDisplayOrder := by
  unfold Obligations.CursorMovesAlongTheDisplayOrder
  intro s p arg k hattached hram hn
  refine ⟨fun hac => ⟨_, rfl, ?right⟩, fun hac => ⟨_, rfl, ?left⟩⟩
  case right =>
    exact navigate_cursor_peer hattached (.inl hn) hram peerAfterInstruction_right (t := .nextAddress)
      (hac ▸ next_displayAddress k)
  case left =>
    exact navigate_cursor_peer hattached (.inl hn) hram peerAfterInstruction_left (t := .previousAddress)
      (hac ▸ previous_displayAddress k)

/-- Settles O53: the line of the address decides (`mem_addresses_iff_lineOf`). -/
theorem enterGoesToTheLineBelow : Obligations.EnterGoesToTheLineBelow := by
  unfold Obligations.EnterGoesToTheLineBelow
  intro s p arg hattached hram hn
  simp only [mem_addresses_iff_lineOf]
  refine ⟨fun l hline => ⟨_, rfl, ?inLine⟩, fun hnone => ⟨_, rfl, ?inNone⟩⟩
  case inLine =>
    obtain ⟨hpeer, -⟩ := navigate_attached_of_some hattached (t := .enterTarget) (enterTarget_of_lineOf hline) none
    rw [endOperation_peer, hpeer, RefPeer.addressed_of_ramsel hram]
  case inNone =>
    have hline := Option.eq_none_iff_forall_ne_some.2 hnone
    obtain ⟨hpeer, -⟩ := navigate_attached_of_none hattached (t := .enterTarget) (enterTarget_eq_none hline)
    exact hpeer

/-! ### PUTCH (R222) -/

/-- A poll and a data write that does not shift the display (R84, R192). -/
theorem writeData_attached_unshifted {s : State} {p : RefPeer} (h : Attached s p) (hstep : StepsByTable p)
    (hs : p.s = false) (b : Byte) :
    Attached (writeData b s)
      { p with
        bf := false, ac := addressStep p.ramsel p.id p.ac,
        ddram := if p.ramsel = .ddram then Memory.write p.ddram p.ac.toNat b else p.ddram,
        cgram := if p.ramsel = .cgram then Memory.write p.cgram (p.ac.toNat % 64) b else p.cgram,
        busycnt := p.kBusy } := by
  have hwrite := writeData_attached_peer h b
  rw [RefPeer.dataWrite_eq, RefPeer.stepped_settled, hstep.stepped_eq] at hwrite
  simpa [RefPeer.settled, hs, cgramIndex_toNat] using hwrite

/-- The same with the navigator's assumptions met (R228). -/
theorem writeData_navigatorReady {s : State} {p : RefPeer} (h : Attached s p) (hready : NavigatorReady p) (c : Byte) :
    Attached (writeData c s)
      { p with
        bf := false, ac := addressStep .ddram true p.ac, ddram := Memory.write p.ddram p.ac.toNat c,
        busycnt := p.kBusy } := by
  obtain ⟨hram, hid, hs, -, hn⟩ := hready
  simpa [hram, hid] using writeData_attached_unshifted h (.inl hn) hs c

/-- Settles O50: the character is stored and the peer has stepped (`writeData_navigatorReady`); where that is not the
next place the table of R216 leads there (`postWriteFix_displayAddress`). -/
theorem putchWalksTheDisplayOrder : Obligations.PutchWalksTheDisplayOrder := by
  unfold Obligations.PutchWalksTheDisplayOrder
  intro s p c k hattached hready hac
  have hwrite := writeData_navigatorReady hattached hready c
  obtain ⟨hfix, hnone⟩ := postWriteFix_displayAddress k
  rw [hac] at hwrite
  obtain ⟨hram, -⟩ := hready
  refine ⟨_, rfl, ?_⟩
  rw [endOperation_peer]
  by_cases hplace : NeedsFix (k % 80)
  · obtain ⟨hpeer, -⟩ := navigate_attached_of_some hwrite (t := .postWriteFix) (hfix hplace) none
    rw [if_pos hplace, hpeer]
    exact congrArg Peer.reference (RefPeer.addressed_of_ramsel (by exact hram) _)
  · obtain ⟨hremap, hstep⟩ := hnone hplace
    obtain ⟨hpeer, -⟩ := navigate_attached_of_none hwrite (t := .postWriteFix) hremap
    rw [if_neg hplace, hpeer, ← hstep]
    rfl

/-! ### BKSP (R223) -/

/-- The peer after BKSP moved to the address `a` of a RAM and blanked it (R223, R232). -/
def RefPeer.backspaced (ram : RamSelect) (a : Address) (blank : Byte) (p : RefPeer) : RefPeer :=
  { p with
    bf := false, ramsel := ram, ac := addressStep ram true (addressStep ram false a), id := true, s := false,
    ddram := if ram = .ddram then Memory.write p.ddram a.toNat blank else p.ddram,
    cgram := if ram = .cgram then Memory.write p.cgram (a.toNat % 64) blank else p.cgram,
    busycnt := p.kBusy }

theorem subInstruction_attached_peer {s : State} {p q : RefPeer} (h : Attached s p) {op : LcdOpcode} {settings : Byte}
    (hlt : settings.toNat < op.code.toNat)
    (hq : peerAfterInstruction (op.code ||| settings) p.settled = .reference q) (hk : q.kBusy = p.kBusy)
    (hb : q.busycnt = p.kBusy) : Attached (subInstruction op settings s) q := by
  rw [subInstruction_issues hlt]
  exact issueInstruction_attached_peer h hq hk hb

/-- The right shift where the peer steps by the table. -/
theorem StepsByTable.peerAfterInstruction_right {p : RefPeer} (h : StepsByTable p) :
    peerAfterInstruction 0x14#8 p =
      .reference { p with ac := addressStep p.ramsel true p.ac, busycnt := p.kBusy } := by
  rw [Machine.peerAfterInstruction_right, h.stepped_eq]

/-- The peer through the five calls: the entry mode is Decrement without shift from the first on, so the blank leaves
the display where it is, and the right shift takes the step back. -/
theorem backspace_attached {s : State} {p : RefPeer} (h : Attached s p) (hstep : StepsByTable p) {ram : RamSelect}
    {a : Address} (hmove : (ram, a) = moveTarget .previousAddress false p) :
    Attached (backspace s) (p.backspaced ram a s.cfg.blank) := by
  have hdecrement := subInstruction_attached_peer h (op := .entryModeSet) (settings := 0x00#8) (by decide)
    (peerAfterInstruction_decrement _) rfl rfl
  have hmoved := navigate_attached_moves hdecrement hstep peerAfterInstruction_left .previousAddress
  have hblank := writeData_attached_unshifted hmoved hstep rfl s.cfg.blank
  have hright := subInstruction_attached_peer hblank (op := .cursorDisplayShift) (settings := 0x04#8) (by decide)
    (StepsByTable.peerAfterInstruction_right hstep) rfl rfl
  have hincrement := subInstruction_attached_peer hright (op := .entryModeSet) (settings := 0x02#8) (by decide)
    (peerAfterInstruction_increment _) rfl rfl
  obtain ⟨rfl, rfl⟩ := Prod.mk.inj hmove
  exact hincrement

theorem exec_bksp_peer {s : State} {p : RefPeer} (h : Attached s p) (hstep : StepsByTable p) {ram : RamSelect}
    {a : Address} (hmove : (ram, a) = moveTarget .previousAddress false p) (arg : Byte) :
    ∃ t, exec (.bksp arg) s = .next t ∧ t.peer = .reference (p.backspaced ram a s.cfg.blank) := by
  obtain ⟨hpeer, -⟩ := backspace_attached h hstep hmove
  exact ⟨_, rfl, (endOperation_peer _ _).trans hpeer⟩

/-- Settles O51: the peer is `RefPeer.backspaced` where the move leads (`exec_bksp_peer`); at a place of display order
that is the place before it (`previous_displayAddress`), where the steps are inverse. -/
theorem bkspStepsBackAndBlanks : Obligations.BkspStepsBackAndBlanks := by
  unfold Obligations.BkspStepsBackAndBlanks
  intro s p arg hattached
  refine ⟨fun k hram hn hac => ?place, fun hstep ram a hmove => ?anywhere⟩
  case place =>
    have hmove : (RamSelect.ddram, displayAddress k) = moveTarget .previousAddress false p := by
      rw [moveTarget_of_ddram _ _ hram, hac]
      exact congrArg _ (previous_displayAddress k).symm
    obtain ⟨t, hexec, hpeer⟩ := exec_bksp_peer hattached (.inl hn) hmove arg
    have hback := addressStep_ddram_inverse (lineOf_displayAddress k) true
    exact ⟨t, _, hexec, hpeer, hback, rfl, rfl, rfl, rfl, rfl, rfl⟩
  case anywhere =>
    obtain ⟨t, hexec, hpeer⟩ := exec_bksp_peer hattached hstep hmove arg
    exact ⟨t, _, hexec, hpeer, rfl, rfl, rfl, rfl, rfl, rfl, rfl⟩

end Sys2Proof.Machine

/-! ## 60_exceptions: the validation error (R241) -/

namespace Sys2Proof.Machine

/-- A command word an instruction is encoded as decodes to it (R101). -/
theorem decodeCommand_of_encode {i : Instr} {w : CommandWord} (h : encode i = .hc16 w) : decodeCommand w = .ok i := by
  cases i with
  | bwClearDisplay | bwReturnHome | bwEntryModeSet | bwDisplayControl | bwCursorDisplayShift | bwFunctionSet
  | bwSetCgramAddress | bwSetDdramAddress | bwStatusRead | bwDataWrite | bwDataRead => cases h
  | _ =>
    cases h
    simp [decodeCommand, opField_commandWord, argField_commandWord]

/-- The end of an operation that never left Idle writes STATUS alone. -/
theorem endOperation_of_idle {s : State} (hseq : s.seq = .idle) (code : Byte) :
    endOperation code s = { s with status := code } := by
  rw [endOperation, ← hseq]

/-! ### A launch that fails its validation -/

theorem failsValidation_of_le {i : Instr} {op : LcdOpcode} {arg : Byte} (hop : validatedOpcode i = some (op, arg))
    (hle : op.code.toNat ≤ arg.toNat) : failsValidation i = true := by
  simp [failsValidation, hop, encodeSettings_of_le hle]

/-- A FUNCSET that puts its settings on the bus has them below its opcode, so it passes its validation (R169, R284). -/
theorem writesFourBitBus_of_failsValidation {i : Instr} (h : failsValidation i = true) :
    writesFourBitBus i = false := by
  cases i with
  | funcset arg =>
    have habove : ¬ arg < 0x20#8 := fun hlt => by
      simp [failsValidation, validatedOpcode, encodeSettings_of_lt (op := .functionSet) (BitVec.lt_def.1 hlt)] at h
    simp [writesFourBitBus, habove]
  | bwFunctionSet => simp [failsValidation, validatedOpcode] at h
  | _ => rfl

/-- What would not touch the bus is refused in neither launch mode (R273, R284). -/
theorem launch_of_failsValidation {i : Instr} (h : failsValidation i = true) (s : State) : launch i s = exec i s := by
  have hrefusal : launchRefusal i s = none := by
    cases hmode : s.launchMode with
    | hardware => rw [launchRefusal, hmode]
    | checked => simp [launchRefusal, hmode, specRefusal, h, writesFourBitBus_of_failsValidation h]
  rw [launch, hrefusal]

theorem launch_rejects {i : Instr} {op : LcdOpcode} {arg : Byte} (hop : validatedOpcode i = some (op, arg))
    (hle : op.code.toNat ≤ arg.toNat) {s : State} (hseq : s.seq = .idle) :
    launch i s = .next { s with status := codeInvalidArgument } := by
  rw [launch_of_failsValidation (failsValidation_of_le hop hle), exec_of_validatedOpcode hop,
    validatedInstruction_rejects hle, endOperation_of_idle hseq]

/-! ### The six operations (R241) -/

/-- Each row of R241's thresholds is a validating operation and its opcode. -/
theorem exists_validatedOpcode_of_threshold {op : Byte} {threshold : Nat}
    (hmem : (op, threshold) ∈ [(0x02#8, 0x04), (0x03#8, 0x08), (0x04#8, 0x10), (0x05#8, 0x20), (0x06#8, 0x40),
      (0x07#8, 0x80)]) (arg : Byte) :
    ∃ i opcode, encode i = .hc16 (commandWord op arg) ∧ validatedOpcode i = some (opcode, arg) ∧
      opcode.code.toNat = threshold := by
  simp only [List.mem_cons, Prod.mk.injEq, List.not_mem_nil, or_false] at hmem
  obtain ⟨rfl, rfl⟩ | ⟨rfl, rfl⟩ | ⟨rfl, rfl⟩ | ⟨rfl, rfl⟩ | ⟨rfl, rfl⟩ | ⟨rfl, rfl⟩ := hmem
  · exact ⟨.entry arg, _, rfl, rfl, rfl⟩
  · exact ⟨.dispctl arg, _, rfl, rfl, rfl⟩
  · exact ⟨.shift arg, _, rfl, rfl, rfl⟩
  · exact ⟨.funcset arg, _, rfl, rfl, rfl⟩
  · exact ⟨.setcg arg, _, rfl, rfl, rfl⟩
  · exact ⟨.setdd arg, _, rfl, rfl, rfl⟩

/-- Settles O24: the word is one of the six operations with its opcode as the threshold
(`exists_validatedOpcode_of_threshold`), whose launch ends at once in either launch mode (`launch_rejects`). -/
theorem invalidSettingsChangeOnlyStatus : Obligations.InvalidSettingsChangeOnlyStatus := by
  unfold Obligations.InvalidSettingsChangeOnlyStatus
  intro s rest op arg threshold hmem hle hseq hinputs
  obtain ⟨i, opcode, hencode, hop, rfl⟩ := exists_validatedOpcode_of_threshold hmem arg
  calc
    step s = writeCmd (commandWord op arg) { s with inputs := rest } := step_takes hseq hinputs
    _ = launch i { s with inputs := rest, cmd := commandWord op arg } :=
      writeCmd_of_ok (decodeCommand_of_encode hencode) _
    _ = .next { s with inputs := rest, cmd := commandWord op arg, status := 0x01#8 } := launch_rejects hop hle hseq

end Sys2Proof.Machine

/-! ## 30_encoding, sections 1 to 3: decoding undoes encoding, and encoding decoding (R100 to R106, R114) -/

namespace Sys2Proof.Machine

/-- Settles O1: each word is a literal of the tables of R101 and R104. -/
theorem specWordsDecode : Obligations.SpecWordsDecode := by
  unfold Obligations.SpecWordsDecode
  decide

/-! ### Command words -/

/-- An op and the arg of a word that has it make up the word (R100). -/
theorem commandWord_argField {w : CommandWord} {op : Byte} (h : (opField w).toNat = op.toNat) :
    commandWord op (argField w) = w := by
  rw [← BitVec.eq_of_toNat_eq h, commandWord_fields]

/-- What a command word decodes to is well-formed and encodes to it (R101). -/
theorem encode_eq_of_decodeCommand {w : CommandWord} {i : Instr} (h : decodeCommand w = .ok i) :
    i.wellFormed = true ∧ encode i = .hc16 w := by
  unfold decodeCommand at h
  split at h
  case h_19 => cases h
  all_goals
    next hop =>
      cases h
      exact ⟨rfl, congrArg CodeWord.hc16 (commandWord_argField hop)⟩

/-! ### Bus words -/

theorem busWord_bit9 (reg : BusRegister) (rw : Transfer) (db : Byte) :
    (busWord reg rw db)[9] = decide (reg = .data) := by
  have hbit : (busWord reg rw db)[9] = reg.bit[0] := by
    rw [← busWord_rs reg rw db]
    simp
  rw [hbit]
  cases reg <;> rfl

theorem busWord_bit8 (reg : BusRegister) (rw : Transfer) (db : Byte) :
    (busWord reg rw db)[8] = decide (rw = .read) := by
  have hbit : (busWord reg rw db)[8] = rw.bit[0] := by
    rw [← busWord_rw reg rw db]
    simp
  rw [hbit]
  cases rw <;> rfl

/-- The busy flag of a status read word is bit 7 of its DB (R104, R114). -/
theorem busWord_bit7 (reg : BusRegister) (rw : Transfer) (db : Byte) : (busWord reg rw db)[7] = busyBit db := by
  conv_rhs => rw [← busWord_db reg rw db]
  simp [busyBit]

/-- The address of a status read word is the one in its DB (R104, R114). -/
theorem busWord_address (reg : BusRegister) (rw : Transfer) (db : Byte) :
    (busWord reg rw db).extractLsb' 0 7 = addressOf db := by
  conv_rhs => rw [← busWord_db reg rw db]
  simp [addressOf]

theorem BusRegister.exists_bit (v : BitVec 1) : ∃ reg : BusRegister, reg.bit = v := by
  obtain rfl | rfl := BitVec.eq_zero_or_eq_one v
  · exact ⟨.instruction, rfl⟩
  · exact ⟨.data, rfl⟩

theorem Transfer.exists_bit (v : BitVec 1) : ∃ rw : Transfer, rw.bit = v := by
  obtain rfl | rfl := BitVec.eq_zero_or_eq_one v
  · exact ⟨.write, rfl⟩
  · exact ⟨.read, rfl⟩

/-- Every bus word is made of an RS, an RW and a DB (R104). -/
theorem exists_busWord (w : BusWord) : ∃ reg rw db, w = busWord reg rw db := by
  obtain ⟨reg, hreg⟩ := BusRegister.exists_bit (w.extractLsb' 9 1)
  obtain ⟨rw, hrw⟩ := Transfer.exists_bit (w.extractLsb' 8 1)
  have hlines : w.extractLsb' 9 1 ++ w.extractLsb' 8 1 = w.extractLsb' 8 2 :=
    BitVec.extractLsb'_append_extractLsb'_eq_extractLsb' rfl
  have hword : w.extractLsb' 8 2 ++ w.extractLsb' 0 8 = w.extractLsb' 0 10 :=
    BitVec.extractLsb'_append_extractLsb'_eq_extractLsb' rfl
  refine ⟨reg, rw, w.extractLsb' 0 8, ?_⟩
  rw [busWord, hreg, hrw, hlines, hword, BitVec.extractLsb'_eq_self]

/-- R104, row by row: what a bus word made of RS, RW and DB decodes to. -/
theorem decodeBus_busWord (reg : BusRegister) (rw : Transfer) (db : Byte) :
    decodeBus (busWord reg rw db) =
      match reg, rw with
      | .instruction, .write => decodeInstructionWrite (busWord .instruction .write db)
      | .instruction, .read => .ok (.bwStatusRead (busyBit db) (addressOf db))
      | .data, .write => .ok (.bwDataWrite db)
      | .data, .read => .ok (.bwDataRead db) := by
  unfold decodeBus
  rw [busWord_bit9, busWord_bit8]
  cases reg <;> cases rw <;> simp [busWord_bit7, busWord_address, busWord_db]

/-- The busy flag and the address make up the status byte (R114). -/
theorem statusByte_parts (b : Byte) : statusByte (busyBit b) (addressOf b) = b := by
  revert b
  decide

/-! ### Instruction writes (R105, R106, R113) -/

/-- The instruction-write row of an opcode. -/
def instructionWriteRow (op : LcdOpcode) (settings : Byte) : Instr :=
  match op with
  | .clearDisplay => .bwClearDisplay
  | .returnHome => .bwReturnHome
  | .entryModeSet => .bwEntryModeSet settings
  | .displayControl => .bwDisplayControl settings
  | .cursorDisplayShift => .bwCursorDisplayShift settings
  | .functionSet => .bwFunctionSet settings
  | .setCgramAddress => .bwSetCgramAddress settings
  | .setDdramAddress => .bwSetDdramAddress settings

theorem instructionWriteRow_wellFormed {op : LcdOpcode} {settings : Byte} (h : settings.toNat < op.code.toNat) :
    (instructionWriteRow op settings).wellFormed = true := by
  cases op with
  | clearDisplay | returnHome => rfl
  | _ => exact decide_eq_true (BitVec.lt_def.2 h)

/-- The rows of clear-display and return-home have no settings: R105 leaves the first none, and the word of the second
with its low bit set is no row (R113). -/
theorem encode_instructionWriteRow {op : LcdOpcode} {settings : Byte} (h : settings.toNat < op.code.toNat)
    (hhome : op = .returnHome → settings = 0x00#8) :
    encode (instructionWriteRow op settings) = instructionWriteWord op settings := by
  cases op with
  | clearDisplay =>
    obtain rfl : settings = 0x00#8 := BitVec.eq_of_toNat_eq (Nat.lt_one_iff.1 h)
    rfl
  | returnHome => rw [hhome rfl]; rfl
  | _ => rfl

/-- An instruction-write word made of an opcode and settings below its own bit decodes to the opcode's row, unless it is
return-home with its low bit set. -/
theorem decodeInstructionWrite_code_or {op : LcdOpcode} {settings : Byte} (h : settings.toNat < op.code.toNat) :
    decodeInstructionWrite (busWord .instruction .write (op.code ||| settings)) =
      if op = .returnHome ∧ settings ≠ 0x00#8
        then .error (.noBusWord (busWord .instruction .write (op.code ||| settings)))
        else .ok (instructionWriteRow op settings) := by
  unfold decodeInstructionWrite
  rw [busWord_db, decodeLcdByte_code_or h]
  cases op with
  | returnHome => by_cases hzero : settings = 0x00#8 <;> simp [hzero, instructionWriteRow]
  | _ => rfl

theorem decode_instructionWriteWord {op : LcdOpcode} {settings : Byte} (h : settings.toNat < op.code.toNat)
    (hhome : op = .returnHome → settings = 0x00#8) :
    decode (instructionWriteWord op settings) = .ok (instructionWriteRow op settings) := by
  show decodeBus (busWord .instruction .write (op.code ||| settings)) = _
  rw [decodeBus_busWord]
  dsimp only
  rw [decodeInstructionWrite_code_or h, if_neg fun hlow => hlow.2 (hhome hlow.1)]

/-- What an instruction-write word decodes to is well-formed and encodes to it: its DB byte is an opcode and settings
below the opcode's own bit (`decodeLcdByte_parts`). -/
theorem encode_eq_of_decodeInstructionWrite {db : Byte} {i : Instr}
    (h : decodeInstructionWrite (busWord .instruction .write db) = .ok i) :
    i.wellFormed = true ∧ encode i = .bus10 (busWord .instruction .write db) := by
  cases hnamed : decodeLcdByte db with
  | none => simp [decodeInstructionWrite, busWord_db, hnamed] at h
  | some named =>
    obtain ⟨op, settings⟩ := named
    obtain ⟨hlt, rfl⟩ := decodeLcdByte_parts db _ hnamed
    rw [decodeInstructionWrite_code_or hlt] at h
    split at h
    · cases h
    · next hrow =>
      cases h
      have hhome : op = .returnHome → settings = 0x00#8 := by simpa using hrow
      exact ⟨instructionWriteRow_wellFormed hlt, encode_instructionWriteRow hlt hhome⟩

/-! ### Every word -/

/-- Settles O2: a command word gives back its fields (`decodeCommand_of_encode`), a bus word its parts
(`decodeBus_busWord`), and an instruction write its opcode and settings (`decode_instructionWriteWord`). -/
theorem decodeOfEncodeIsTheInstruction : Obligations.DecodeOfEncodeIsTheInstruction := by
  unfold Obligations.DecodeOfEncodeIsTheInstruction
  intro i hwf
  cases i with
  | bwClearDisplay => exact decode_instructionWriteWord (op := .clearDisplay) (by decide) nofun
  | bwReturnHome => exact decode_instructionWriteWord (op := .returnHome) (by decide) fun _ => rfl
  | bwStatusRead busy address =>
    refine (decodeBus_busWord .instruction .read (statusByte busy address)).trans ?_
    dsimp only
    rw [busyBit_statusByte, addressOf_statusByte]
  | bwDataWrite byte => exact decodeBus_busWord .data .write byte
  | bwDataRead byte => exact decodeBus_busWord .data .read byte
  | bwEntryModeSet | bwDisplayControl | bwCursorDisplayShift | bwFunctionSet | bwSetCgramAddress
  | bwSetDdramAddress =>
    exact decode_instructionWriteWord (BitVec.lt_def.1 (of_decide_eq_true hwf)) nofun
  | _ => exact decodeCommand_of_encode rfl

/-- Settles O3: a command word is its op and arg (`encode_eq_of_decodeCommand`), a bus word its RS, RW and DB
(`exists_busWord`), whose DB is the byte, the status byte (`statusByte_parts`) or the instruction byte
(`encode_eq_of_decodeInstructionWrite`) of the row. -/
theorem encodeOfDecodeIsTheWord : Obligations.EncodeOfDecodeIsTheWord := by
  unfold Obligations.EncodeOfDecodeIsTheWord
  intro w i hdecode
  cases w with
  | hc16 w => exact encode_eq_of_decodeCommand hdecode
  | bus10 w =>
    obtain ⟨reg, rw, db, rfl⟩ := exists_busWord w
    have hrow := (decodeBus_busWord reg rw db).symm.trans hdecode
    cases reg <;> cases rw
    case instruction.write => exact encode_eq_of_decodeInstructionWrite hrow
    case instruction.read =>
      cases hrow
      exact ⟨rfl, by rw [encode, statusByte_parts]⟩
    case data.write | data.read =>
      cases hrow
      exact ⟨rfl, rfl⟩

end Sys2Proof.Machine

/-! ## 70_reset_and_hazards, section 1: reset (R270, R272) -/

namespace Sys2Proof.Machine

theorem busyStep_of_reset {s : State} {rest : List Input} (hinputs : s.inputs = .reset :: rest) :
    busyStep s = .next (takeReset { s with inputs := rest }) := by
  rw [busyStep, hinputs]

/-- A reset that arrives is taken, whatever SEQ is doing (R270). -/
theorem step_reset {s : State} {rest : List Input} (hinputs : s.inputs = .reset :: rest) :
    step s = .next (takeReset { s with inputs := rest }) := by
  cases hseq : s.seq with
  | idle => exact step_takes hseq hinputs
  | running => exact (step_of_running hseq).trans (busyStep_of_reset hinputs)

theorem takeReset_atResetValues (s : State) : AtResetValues (takeReset s) := resetValues

theorem cutShort_hardware (i : Instr) (n : Nat) {s : State} (hmode : s.launchMode = .hardware) :
    cutShort i n s = .next (takeReset (ticks n (beginOperation i s))) := by
  unfold cutShort launchRefusal
  rw [hmode]

theorem writeCmdCutShort_of_ok {w : CommandWord} {i : Instr} (hdecode : decodeCommand w = .ok i) (n : Nat) (s : State) :
    writeCmdCutShort w n s = cutShort i n { s with cmd := w } := by
  unfold writeCmdCutShort
  rw [hdecode]

/-- A command that a reset cuts short: its first micro-operations, and the reset (log 20). -/
theorem step_cutShort {s : State} {w : CommandWord} {n : Nat} {rest : List Input} {i : Instr} (hseq : s.seq = .idle)
    (hmode : s.launchMode = .hardware) (hinputs : s.inputs = .writeCutShort w n :: rest)
    (hdecode : decodeCommand w = .ok i) :
    step s = .next (takeReset (ticks n (beginOperation i { s with inputs := rest, cmd := w }))) := by
  calc
    step s = writeCmdCutShort w n { s with inputs := rest } := step_takes hseq hinputs
    _ = cutShort i n { s with inputs := rest, cmd := w } := writeCmdCutShort_of_ok hdecode n _
    _ = .next (takeReset (ticks n (beginOperation i { s with inputs := rest, cmd := w }))) :=
      cutShort_hardware i n hmode

/-- Settles O11: a reset that arrives is taken at once (`step_reset`); a command that one cuts short has traced what
begins the whole command's trace (`ticks_beginOperation_trace_prefix`), in unchanged surroundings
(`ticks_tickFrame`). -/
theorem resetAbandonsARunningOperation : Obligations.ResetAbandonsARunningOperation := by
  unfold Obligations.ResetAbandonsARunningOperation
  refine ⟨fun s rest hinputs => ?arrives, fun s w n rest i hseq hmode hinputs hdecode => ?cut⟩
  case arrives => exact ⟨_, step_reset hinputs, takeReset_atResetValues _, rfl, rfl, rfl, rfl⟩
  case cut =>
    have hstep := step_cutShort hseq hmode hinputs hdecode
    obtain ⟨u, hexec⟩ := everyInstructionCompletes i { s with inputs := rest, cmd := w }
    have hbegins := ticks_beginOperation_trace_prefix (s := { s with inputs := rest, cmd := w }) hseq hexec n
    obtain ⟨⟨-, hcfg, hrest, -⟩, htrace, -⟩ := ticks_tickFrame n (beginOperation i { s with inputs := rest, cmd := w })
    exact ⟨_, u, hstep, hexec, takeReset_atResetValues _, htrace, hbegins, hcfg, hrest, rfl⟩

end Sys2Proof.Machine

/-! ## 70_reset_and_hazards, sections 2 and 3: the checked launch mode (R273, R284) -/

namespace Sys2Proof.Machine

theorem launchRefusal_checked (i : Instr) {s : State} (hmode : s.launchMode = .checked) :
    launchRefusal i s = specRefusal i s := by
  rw [launchRefusal, hmode]

theorem launch_refuses {i : Instr} {s : State} {r : Refusal} (hmode : s.launchMode = .checked)
    (h : specRefusal i s = some r) : launch i s = .refused r := by
  rw [launch, launchRefusal_checked i hmode, h]

theorem launch_inSpec {i : Instr} {s : State} (hmode : s.launchMode = .checked) (h : LaunchInSpec i s) :
    launch i s = exec i s := by
  rw [launch, launchRefusal_checked i hmode, h]

theorem isInit_iff (i : Instr) : isInit i = true ↔ ∃ a, i = .init a := by
  cases i <;> simp [isInit]

/-- R273: before INIT, anything but INIT that would touch the bus. -/
theorem specRefusal_beforeInit {i : Instr} {s : State} (hinitd : s.initd = false) (hinit : ∀ a, i ≠ .init a)
    (hvalid : failsValidation i = false) : specRefusal i s = some .launchBeforeInit := by
  have hother : isInit i = false := Bool.eq_false_iff.2 fun h => ((isInit_iff i).1 h).elim hinit
  rw [specRefusal, if_pos ⟨hinitd, hother, hvalid⟩]

theorem specRefusal_of_allowed {i : Instr} {s : State}
    (h : s.initd = true ∨ (∃ a, i = .init a) ∨ failsValidation i = true) :
    specRefusal i s = if writesFourBitBus i then some .fourBitDataLength else none := by
  rw [← isInit_iff] at h
  rw [specRefusal, if_neg (by rintro ⟨hinitd, hinit, hvalid⟩; simp [hinitd, hinit, hvalid] at h)]

/-- R284 of a command: a FUNCSET with valid settings and the data-length flag clear. -/
theorem writesFourBitBus_iff_of_command {i : Instr} (hcommand : ∃ v, encode i = .hc16 v) :
    writesFourBitBus i = true ↔ ∃ arg, i = .funcset arg ∧ arg.toNat < 0x20 ∧ arg[4] = false := by
  obtain ⟨v, hv⟩ := hcommand
  cases i with
  | funcset arg => simp [writesFourBitBus, BitVec.lt_def]
  | bwFunctionSet => cases hv
  | _ => simp [writesFourBitBus]

/-- Settles O9: the write of CMD launches the instruction, which the checked mode refuses where `specRefusal` names a
refusal: before INIT (`specRefusal_beforeInit`), and otherwise for a 4-bit FUNCSET alone
(`writesFourBitBus_iff_of_command`). -/
theorem checkedLaunchRefusesWhatTheSpecRefuses : Obligations.CheckedLaunchRefusesWhatTheSpecRefuses := by
  unfold Obligations.CheckedLaunchRefusesWhatTheSpecRefuses
  intro s w rest i hseq hmode hinputs hdecode
  have hstep : step s = launch i { s with inputs := rest, cmd := w } :=
    (step_takes hseq hinputs).trans (writeCmd_of_ok hdecode _)
  have hfourBit := writesFourBitBus_iff_of_command (encode_of_decodeCommand hdecode)
  rw [hstep]
  refine ⟨fun hinitd hinit hvalid => ?beforeInit, fun arg hinitd hi hlt hclear => ?fourBit, fun hallowed hlong => ?runs⟩
  case beforeInit => exact launch_refuses hmode (specRefusal_beforeInit hinitd hinit hvalid)
  case fourBit =>
    refine launch_refuses hmode ((specRefusal_of_allowed (.inl hinitd)).trans (if_pos ?_))
    exact hfourBit.2 ⟨arg, hi, hlt, hclear⟩
  case runs =>
    refine launch_inSpec hmode ((specRefusal_of_allowed hallowed).trans (if_neg fun h => ?_))
    obtain ⟨arg, hi, hlt, hclear⟩ := hfourBit.1 h
    simp [hlong arg hi hlt] at hclear

end Sys2Proof.Machine

/-! ## 70_reset_and_hazards, section 3: the 4-bit bus and the late cycle (R281, R284) -/

namespace Sys2Proof.Machine

/-- A function-set with the data-length flag clear leaves the reference peer (R89, log 7). -/
theorem peerAfterInstruction_fourBit {settings : Byte} (p : RefPeer)
    (h : settings.toNat < LcdOpcode.functionSet.code.toNat) (hclear : settings[4] = false) :
    peerAfterInstruction (LcdOpcode.functionSet.code ||| settings) p = .oracle [] := by
  simp [peerAfterInstruction, selectsFourBitBus, decodeLcdByte_code_or h, hclear]

/-- Settles O42: the FUNCSET is issued (`validatedInstruction_issues`) to the polled peer
(`issueInstruction_attached`), which it leaves behind (`peerAfterInstruction_fourBit`). -/
theorem fourBitBusLeavesTheReferencePeer : Obligations.FourBitBusLeavesTheReferencePeer := by
  unfold Obligations.FourBitBusLeavesTheReferencePeer
  intro s p arg hattached hlt hclear
  have hexec : exec (.funcset arg) s = .next (endOperation codeSuccess (issueInstruction (0x20#8 ||| arg) s)) :=
    congrArg Host.Outcome.next (validatedInstruction_issues (op := .functionSet) hlt s)
  rw [issueInstruction_attached hattached] at hexec
  exact ⟨_, hexec, peerAfterInstruction_fourBit p.settled hlt hclear, rfl, rfl⟩

/-! ### What a cycle leaves of LCDC, whatever the peer -/

section PeerOnly

variable {s t : State}

theorem PeerOnly.pollres (h : PeerOnly s t) : t.pollres = s.pollres := by rw [PeerOnly] at h; rw [h]

theorem PeerOnly.tmo (h : PeerOnly s t) : t.tmo = s.tmo := by rw [State.tmo, State.tmo, h.flags]

theorem PeerOnly.dbOut (h : PeerOnly s t) : t.dbOut = s.dbOut := by rw [PeerOnly] at h; rw [h]

theorem PeerOnly.rs (h : PeerOnly s t) : t.rs = s.rs := by rw [PeerOnly] at h; rw [h]

theorem PeerOnly.rw (h : PeerOnly s t) : t.rw = s.rw := by rw [PeerOnly] at h; rw [h]

end PeerOnly

/-! ### After a poll that timed out -/

section LateCycle

variable {s : State} {p : RefPeer}

/-- A state as a poll that timed out leaves it, with the reference peer `p` on driven lines (R152, R281). -/
structure TimedOut (s : State) (p : RefPeer) : Prop where
  peer : s.peer = .reference p
  ctlDir : s.ctlDir = .output
  dbDir : s.dbDir = .output
  pollres : s.pollres = codeTimedOut
  tmo : s.tmo = true

/-- A poll of a peer that is busy for at least the budget times out (R153). -/
theorem pollUntilReady_timedOut (hp : s.peer = .reference p) (hc : s.ctlDir = .output)
    (hbusy : s.cfg.maxAttempts ≤ p.busycnt) :
    TimedOut (pollUntilReady s).state (p.stillBusy s.cfg.maxAttempts) := by
  have hlast : lastBusy (busySamples s.cfg.maxAttempts p) = true := lastBusy_busySamples s.cfg.budget p
  rw [pollUntilReady_busy_reference hbusy hp hc]
  exact ⟨rfl, hc, rfl, by simp [pollDone, pollCode, hlast], by simp [pollDone, State.tmo, hlast, withTmo]⟩

/-- The peer performs a write cycle that follows it or ignores it; a peer of R92 performs it. -/
theorem TimedOut.writeCycle_peer (h : TimedOut s p) (reg : BusRegister) (b : Byte) :
    ((writeCycle reg b s).peer = .reference p ∨ (writeCycle reg b s).peer = peerAfterWrite reg b p) ∧
      (p.late = .performed → (writeCycle reg b s).peer = peerAfterWrite reg b p) := by
  refine ⟨?_, fun hlate => writeCycle_reference h.peer h.ctlDir h.dbDir hlate reg b⟩
  rw [writeCycle_driven reg b h.ctlDir h.dbDir]
  exact peerWrite_reference (s := writeLatched reg b s) h.peer reg b

/-- The same of a data read, whose sample is the peer's cell where it is performed. -/
theorem TimedOut.readCycle_peer (h : TimedOut s p) :
    ((readCycle .data s).2.peer = .reference p ∨
        (readCycle .data s).1 = p.cell ∧ (readCycle .data s).2.peer = .reference p.afterDataRead) ∧
      (p.late = .performed →
        (readCycle .data s).1 = p.cell ∧ (readCycle .data s).2.peer = .reference p.afterDataRead) := by
  constructor
  · rw [readCycle_driven .data h.ctlDir]
    exact peerRead_data_reference (s := readSampling .data s) h.peer
  · intro hlate
    rw [readCycle_data_reference h.peer h.ctlDir (lateCycle_of_performed hlate s)]
    exact ⟨rfl, rfl⟩

end LateCycle

theorem lt_of_validates {i : Instr} {op : LcdOpcode} {arg : Byte} (hop : validatedOpcode i = some (op, arg))
    (h : failsValidation i = false) : arg.toNat < op.code.toNat :=
  Nat.lt_of_not_le fun hle => by simp [failsValidation_of_le hop hle] at h

/-- The commands that are a poll and one write cycle, with the register and the byte (R168, R192). -/
def polledWrites (arg : Byte) : List (Instr × BusRegister × Byte) :=
  [(.clear arg, .instruction, 0x01#8), (.home arg, .instruction, 0x02#8), (.entry arg, .instruction, 0x04#8 ||| arg),
    (.dispctl arg, .instruction, 0x08#8 ||| arg), (.shift arg, .instruction, 0x10#8 ||| arg),
    (.funcset arg, .instruction, 0x20#8 ||| arg), (.setcg arg, .instruction, 0x40#8 ||| arg),
    (.setdd arg, .instruction, 0x80#8 ||| arg), (.wrdata arg, .data, arg)]

theorem exec_polledWrite {arg : Byte} {i : Instr} {reg : BusRegister} {b : Byte} (hmem : (i, reg, b) ∈ polledWrites arg)
    (hvalid : failsValidation i = false) (s : State) :
    exec i s = .next (endOperation codeSuccess (writeCycle reg b (pollUntilReady s).state)) := by
  cases i with
  | clear | home | wrdata =>
    obtain ⟨rfl, rfl, rfl⟩ : _ = arg ∧ reg = _ ∧ b = _ := by simpa [polledWrites] using hmem
    rfl
  | entry | dispctl | shift | funcset | setcg | setdd =>
    obtain ⟨rfl, rfl, rfl⟩ : _ = arg ∧ reg = _ ∧ b = _ := by simpa [polledWrites] using hmem
    exact congrArg Host.Outcome.next (validatedInstruction_issues (lt_of_validates rfl hvalid) s)
  | _ => simp [polledWrites] at hmem

/-- Settles O43: the poll times out (`pollUntilReady_timedOut`), and the cycle after it is performed or ignored
(`TimedOut.writeCycle_peer`, `TimedOut.readCycle_peer`). -/
theorem lateCycleIsPerformedOrIgnored : Obligations.LateCycleIsPerformedOrIgnored := by
  unfold Obligations.LateCycleIsPerformedOrIgnored
  rintro s p _ arg hp hc hbusy rfl
  have hpoll := pollUntilReady_timedOut hp hc hbusy
  refine ⟨fun i reg b hmem hvalid => ?write, ?read⟩
  case write =>
    obtain ⟨hpeer, hperformed⟩ := hpoll.writeCycle_peer reg b
    have hlcdc := writeCycle_peerOnly reg b (pollUntilReady s).state
    refine ⟨_, exec_polledWrite hmem hvalid s, rfl, ?_, ?_, ?_, ?_, ?_, hpeer, hperformed⟩
    · exact hlcdc.pollres.trans hpoll.pollres
    · exact hlcdc.tmo.trans hpoll.tmo
    · exact hlcdc.dbOut
    · exact hlcdc.rs
    · exact hlcdc.rw
  case read =>
    obtain ⟨hpeer, hperformed⟩ := hpoll.readCycle_peer
    have hlcdc := readCycle_peerOnly .data (pollUntilReady s).state
    refine ⟨_, rfl, rfl, ?_, ?_, ?_, ?_, hpeer, hperformed⟩
    · exact hlcdc.pollres.trans hpoll.pollres
    · exact hlcdc.tmo.trans hpoll.tmo
    · exact hlcdc.rs
    · exact hlcdc.rw

end Sys2Proof.Machine

/-! ## 70_reset_and_hazards, section 4: the order of the delays (R295) -/

namespace Sys2Proof.Machine

/-- Settles O17: the free delays are below 1 ms = T_INIT_3 (R9), the three of INIT are not. -/
theorem delayOrder : Obligations.DelayOrder := by
  unfold Obligations.DelayOrder
  refine ⟨by decide, by decide, fun d i hsteady hinit => ?_⟩
  have hbelow : d.nanoseconds < Delay.init3.nanoseconds := by
    rcases hsteady with rfl | rfl | rfl | rfl | rfl
    · exact Config.tUnit.isLt
    · exact Config.tSettle.isLt
    · exact Config.tEnHold.isLt
    · exact Config.tRdSetup.isLt
    · exact Config.tRdHold.isLt
  have hleast : Delay.init3.nanoseconds ≤ i.nanoseconds := by
    rcases hinit with rfl | rfl | rfl <;> decide
  exact hbelow.trans_le hleast

end Sys2Proof.Machine
